-- ==== Sys2Proof/Word.lean ====
section
/-! DEFINITION. The word types of the block: bytes, the 32-bit and 40-bit registers, bit sequences and
256-entry tables. There is no signed quantity anywhere (spec R9). -/

namespace Sys2Proof

/-- One byte of a buffer, "each byte 8 bits" (R28, R29). -/
abbrev Byte := BitVec 8

/-- A 32-bit register value: CMD, STATUS, IN_LEN and a FREQ entry (R7, R22). -/
abbrev Word := BitVec 32

/-- A 40-bit register value: OUT_LEN, and the widest value a host access carries (R7, R22). -/
abbrev Len := BitVec 40

/-- A bit sequence, first bit first (R10): `false` is the bit 0, `true` the bit 1. -/
abbrev Bits := List Bool

/-- A register file with one entry per byte value, indexed 0 .. 255 (R30, R34). -/
abbrev Table (α : Type) := Vector α 256

/-- The table whose entry `s` is `f s`. -/
def Table.tabulate {α : Type} (f : Nat → α) : Table α :=
  ⟨((List.range 256).map f).toArray, by simp⟩

/-- The entry of a byte value. -/
def Table.at {α : Type} (t : Table α) (b : Byte) : α :=
  t[b.toNat]'b.isLt

/-- The table with the entry of one byte value replaced. -/
def Table.put {α : Type} (t : Table α) (b : Byte) (v : α) : Table α :=
  t.set b.toNat v b.isLt

end Sys2Proof
end

