-- ==== Sys2Proof/Syntax.lean ====
section
/-! DEFINITION. The syntax: the eleven operations of R86 (one constructor per row of spec/opcode_table.json),
the two formats their codes stand in, and the moves a host may make (R92, R203). -/

namespace Sys2Proof

/-- The operation set (R86). No operation has an operand in its encoding: "Commands take no operands in the
command word" (R87), and the stages are identified by their code alone (R88). -/
inductive Instr where
  | compress
  | decompress
  | count
  | build
  | derive
  | encode
  | pack
  | serialize
  | parse
  | unpack
  | decode
  deriving DecidableEq, Repr

/-- A code that stands for an operation: the 32-bit word written to CMD (format CMD, R87) or the 4-bit field
STATUS[11:8] (format STAGE, R88). -/
inductive CodeWord where
  | cmd (w : Word)
  | stage (c : BitVec 4)
  deriving DecidableEq, Repr

/-- The moves of the host (R203) and the lines of the script notation (R92). A script is a list of moves,
oldest first. `wait` is the polling loop of the notation ("read STATUS until DONE = 1"); `pass` is the host
making no move while the engine takes a step, so that a script can say where between two stages a move lands. -/
inductive HostMove where
  | reset
  | wrReg (n : Nat) (v : Len)
  | rdReg (n : Nat)
  | wrIbuf (a : Nat) (b : Byte)
  | rdIbuf (a : Nat)
  | rdObuf (a : Nat)
  | load (bs : List Byte)
  | move
  | wait
  | pass
  deriving DecidableEq, Repr

end Sys2Proof
end

