-- ==== Sys2Proof/Decode.lean ====
section
/-! DEFINITION. Decoding of the two code formats (R87, R88), total, with a named reason where a code is no
operation; the encoder written from the same tables; and the decoder by table word. -/

namespace Sys2Proof

/-- Why a code is not an operation. -/
inductive DecodeError where
  /-- CMD.OP is 0x0 or 0x3 .. 0xF: "0x0 and 0x3 .. 0xF reserved" (R87, R91 (a)). -/
  | reservedOp (op : BitVec 4)
  /-- The stage code 0x0: "IDLE (no stage)" (R88). -/
  | idle
  /-- A stage code 0xA .. 0xF: "never produced" (R88, R91 (h)). -/
  | reservedStage (c : BitVec 4)
  deriving DecidableEq, Repr

/-- The field OP = CMD[3:0] of a command word (R23, R87); CMD[31:4] is ignored. -/
def cmdOp (w : Word) : BitVec 4 := w.setWidth 4

/-- Decoding of a command word (R87). -/
def decodeCmd (w : Word) : Except DecodeError Instr :=
  if cmdOp w = 1#4 then .ok .compress
  else if cmdOp w = 2#4 then .ok .decompress
  else .error (.reservedOp (cmdOp w))

/-- Decoding of a stage code (R88). -/
def decodeStage (c : BitVec 4) : Except DecodeError Instr :=
  if c = 1#4 then .ok .count
  else if c = 2#4 then .ok .build
  else if c = 3#4 then .ok .derive
  else if c = 4#4 then .ok .encode
  else if c = 5#4 then .ok .pack
  else if c = 6#4 then .ok .serialize
  else if c = 7#4 then .ok .parse
  else if c = 8#4 then .ok .unpack
  else if c = 9#4 then .ok .decode
  else if c = 0#4 then .error .idle
  else .error (.reservedStage c)

/-- Decoding of a code of either format. -/
def decodeWord : CodeWord → Except DecodeError Instr
  | .cmd w => decodeCmd w
  | .stage c => decodeStage c

/-- The command word of a host command with the reserved field RSV = CMD[31:4] (R87). -/
def cmdWord (rsv : BitVec 28) (op : BitVec 4) : Word := rsv ++ op

/-- The code of an operation, from the tables of R87 (RSV written 0) and R88. -/
def encodeWord : Instr → CodeWord
  | .compress => .cmd (cmdWord 0#28 1#4)
  | .decompress => .cmd (cmdWord 0#28 2#4)
  | .count => .stage 1#4
  | .build => .stage 2#4
  | .derive => .stage 3#4
  | .encode => .stage 4#4
  | .pack => .stage 5#4
  | .serialize => .stage 6#4
  | .parse => .stage 7#4
  | .unpack => .stage 8#4
  | .decode => .stage 9#4

/-- The code a table word stands for. spec/opcode_table.json writes a host command as a 32-bit CMD word and a
stage as a 4-bit STAGE field, one byte when rounded up; so a word of at most 8 bits is a STAGE field (its
bits above bit 3 must be 0) and a longer one a CMD word. Log 12. -/
def tableCode (nbits w : Nat) : Option CodeWord :=
  if nbits ≤ 8 then (if w < 16 then some (.stage (BitVec.ofNat 4 w)) else none)
  else (if w < 2 ^ 32 then some (.cmd (BitVec.ofNat 32 w)) else none)

/-- The operation the decoder reads from a table word. -/
def decodeTableWord (nbits w : Nat) : Option Instr :=
  match tableCode nbits w with
  | none => none
  | some c =>
    match decodeWord c with
    | .ok i => some i
    | .error _ => none

end Sys2Proof
end

