-- ==== Sys2Proof/Machine/Private.lean ====
section
/-! DEFINITION. The types of the engine-private state of spec/10_state.md sections 5 and 6: the node arena,
the code table, the working registers of the stages, and the hidden registers no rule reads. -/

namespace Sys2Proof.Machine

/-- The two host commands an engine run can be part of: the OP "latched from the CMD write for the duration
of the command" (R39). -/
inductive Command where
  | compress
  | decompress
  deriving DecidableEq, Repr, Inhabited

/-- A record of the node arena (R31). KIND is the constructor; SYM exists only on a leaf and L, R only on an
internal node, which are the records the spec calls meaningful. A weight is a natural number, as R13 allows;
that it stays below 2^40 (R7, R119) is an invariant. DEDUCED, logs 11 and 14. -/
inductive Node where
  | leaf (sym : Byte) (w : Nat)
  | int (w : Nat) (l r : Nat)
  deriving DecidableEq, Repr, Inhabited

/-- The tree builder's state (R31, R32). `node` holds the records NODE[0] .. NODE[NN-1] in index order (a
record at or above NN is never read, R43, and is absent here); `live` is the set LIVE, its elements in
ascending order; `root` is ROOT, `none` being the value NONE of the spec. DEDUCED, log 14. -/
structure Tree where
  node : List Node
  nn   : Nat
  live : List Nat
  root : Option Nat
  deriving DecidableEq, Repr, Inhabited

/-- An entry of the code table (R34): VALID, LEN and BITS ("physically a 255-bit vector of which the first
LEN positions are used"). -/
structure CodeEntry where
  valid : Bool
  len   : Nat
  bits  : Bits
  deriving DecidableEq, Repr, Inhabited

/-- The engine-private state (R30 to R37), and the three names the pseudocode uses beside it: the latched OP
(R39), CLEN (R165) and DLEN (R180). DESIGN CHOICE, log 18. -/
structure Private where
  op     : Command
  freq   : Table Word
  tree   : Tree
  code   : Table CodeEntry
  bitseq : Bits
  nbits  : Nat
  pay    : List Byte
  plen   : Nat
  pad    : BitVec 3
  cur    : Nat
  ocnt   : Nat
  clen   : Nat
  dlen   : Nat
  deriving DecidableEq, Repr, Inhabited

/-- The hidden state of R38: "State an implementation has and no rule of this spec reads". -/
structure Hidden where
  acc   : BitVec 8
  nacc  : BitVec 3
  shr   : BitVec 8
  nrem  : BitVec 4
  stack : List (Nat × Bits)
  index : Nat
  deriving DecidableEq, Repr, Inhabited

end Sys2Proof.Machine
end

