-- ==== Sys2Proof/Config.lean ====
section
/-! DEFINITION. What is fixed for one machine: the constants of R6, the capacities of R8, and the free values
(opaque constants, no body) that stand for every value the spec leaves unspecified. -/

namespace Sys2Proof

/-- "shortest parseable container", 1025 bytes (R6). -/
@[simp] def Config.minContainer : Nat := 1025

/-- Offset of the padding-count byte of a container (R6, R61). -/
@[simp] def Config.padOffset : Nat := 1024

/-- Offset of the first payload byte of a container (R6, R61). -/
@[simp] def Config.payloadOffset : Nat := 1025

/-- The capacities of R8, which the source leaves open. IN_CAP is at most 2^32 - 1 by its width; OUT_CAP is
given by what it has above the required 1025 + 32 x IN_CAP, so that the requirement of R8 always holds. -/
structure Caps where
  inCap    : BitVec 32
  outExtra : Nat
  deriving DecidableEq, Repr

/-- OUT_CAP (R8: "required to satisfy OUT_CAP >= 1025 + 32 x IN_CAP"). -/
def Caps.outCap (c : Caps) : Nat := 1025 + 32 * c.inCap.toNat + c.outExtra

/-- FREE VALUE. The byte an IBUF offset holds that nothing has written since the reset numbered by the first
argument (R28, R241, U5). Assumption log 3. -/
opaque Config.freeIbuf : Nat → Nat → Byte

/-- FREE VALUE. The byte an OBUF offset holds where the spec leaves it unspecified (R29, U3). Log 4. -/
opaque Config.freeObuf : Nat → Nat → Byte

/-- FREE VALUE. The engine-private state after a command, a fault or a reset (R40, U4). Log 5. -/
opaque Config.freePrivate : Nat → Machine.Private

/-- FREE VALUE. The hidden registers after an engine step (R38, U19). Log 6. -/
opaque Config.freeHidden : Nat → Machine.Hidden

/-- FREE VALUE. Which stage of the running command a STATUS read returns (R211, U8). Log 7. -/
opaque Config.freeStage : Nat → Nat

/-- FREE VALUE. What a read that R245 forbids returns: "a forbidden read returns any value". Log 8. -/
opaque Config.freeRead : Nat → Len

end Sys2Proof
end

