-- ==== Sys2Proof/Machine/State.lean ====
section
/-! DEFINITION. The state of the block and of the host that drives it, as plain data; the reasons a step can
stop; and the state right after reset (R41). -/

namespace Sys2Proof.Machine

/-- STATUS (R24). The host never writes it, so its four fields are held as fields; the reserved bits 7:5 and
31:12 "read as 0" and are made by the read (`Status.word`). -/
structure Status where
  busy  : Bool
  done  : Bool
  err   : BitVec 3
  stage : BitVec 4
  deriving DecidableEq, Repr

/-- The error kinds of R89 that ERR can report. -/
inductive ErrorKind where
  | emptyInput
  | malformedContainer
  | truncatedStream
  | unknownByte
  | illegalCommand
  deriving DecidableEq, Repr

/-- A buffer: the bytes written since it became unspecified, by strictly rising offset. What an unlisted
offset reads as is no value here; the buffer reads of Machine/Ops.lean turn it into a free value. DEDUCED, log 19. -/
abbrev Memory := List Host.Cell

/-- The state of the block (R21 to R38), its capacities (R8), the host's pending moves and the value the host
read last. `draws`, `ibufSeed` and `obufSeed` are the model's own: they number the draws of free values.
DESIGN CHOICE, logs 2, 9 and 17. -/
structure State where
  caps     : Caps
  status   : Status
  inLen    : Word
  outLen   : Len
  ibuf     : Memory
  obuf     : Memory
  priv     : Private
  hidden   : Hidden
  host     : List HostMove
  rdata    : Len
  draws    : Nat
  ibufSeed : Nat
  obufSeed : Nat
  deriving DecidableEq, Repr

/-- Why a run of the block stops. No rule of the spec stops the block ("The block has no hang, no wait state
and no stuck state", R207); each of these stands for an access the spec says is never made, and is met only in
states no run reaches. All are safe: the model stops where the spec gives no behaviour. DEDUCED, log 15. -/
inductive Fault where
  /-- Raised by the engine step: BUSY = 1 and STAGE is not a stage code (R24, R88: "never produced"). Safe. -/
  | stageCode
  /-- Raised by COUNT, ENCODE, PARSE: a read of IBUF at or above IN_CAP (R67: "no engine access is out of
  range"; reached only when IN_LEN is above IN_CAP, which R25 forbids the host). Safe. -/
  | ibufRange
  /-- Raised by SERIALIZE, DECODE: a write of OBUF at or above OUT_CAP (R67, R206: OBUF never overflows). Safe. -/
  | obufRange
  /-- Raised by DERIVE, DECODE: a walk left the tree (an index at or above NN, which "no rule reads", R43; a
  child of a leaf; or a cycle, which R118 (d) excludes). Safe. -/
  | arena
  deriving DecidableEq, Repr

/-- Why a step is refused: a move the spec says the host does not have ("A model gives the host no such move
(it refuses the action)", R245). All are safe as stops; that a real host might make the move is the unsafe
assumption the spec itself lists (D19). DEDUCED, log 16. -/
inductive Refusal where
  /-- Raised by exec's arm of an operation without a meaning. No arm does. Safe. -/
  | notModelled (mnemonic : String)
  /-- Raised by a host access to a register number above 3 (R22, U9: "a model refuses it"). Safe. -/
  | noSuchRegister
  /-- Raised by a host write to IN_LEN of a value above IN_CAP, or a LOAD or MOVE that does not fit (U7). Safe. -/
  | aboveCapacity
  /-- Raised by a host access to a buffer at an offset at or above its capacity (U7). Safe. -/
  | offsetRange
  /-- Raised by a host write to IBUF or IN_LEN, or a LOAD, while BUSY = 1 (R245, U6). Safe. -/
  | busyWrite
  /-- Raised by a MOVE while BUSY = 1, when no result is there to be copied (R92, R245, U6). Safe. -/
  | noResult
  deriving DecidableEq, Repr

/-- The zero node table: no nodes. -/
def Tree.zero : Tree := { node := [], nn := 0, live := [], root := none }

/-- The value the model names for engine-private state right after reset, which the spec leaves unspecified
(R41). DESIGN CHOICE, log 1. -/
def Private.zero : Private :=
  { op := .compress, freq := Vector.replicate 256 0, tree := Tree.zero
    code := Vector.replicate 256 { valid := false, len := 0, bits := [] }
    bitseq := [], nbits := 0, pay := [], plen := 0, pad := 0, cur := 0, ocnt := 0, clen := 0, dlen := 0 }

/-- The value the model names for the hidden registers right after reset (R41). DESIGN CHOICE, log 1. -/
def Hidden.zero : Hidden :=
  { acc := 0, nacc := 0, shr := 0, nrem := 0, stack := [], index := 0 }

/-- STATUS after reset, 0x00000000 (R22, R41). -/
def Status.zero : Status := { busy := false, done := false, err := 0, stage := 0 }

/-- The state right after reset (R41): STATUS, IN_LEN and OUT_LEN are 0, the buffers list nothing (every byte
is unspecified), the block is idle and the host has no move pending. The capacities are a parameter (R8) for
which reset needs one value: DESIGN CHOICE, log 2; the model's own fields: logs 9, 17 and 20. -/
def State.reset : State :=
  { caps := { inCap := BitVec.allOnes 32, outExtra := 0 }
    status := Status.zero, inLen := 0, outLen := 0, ibuf := [], obuf := []
    priv := Private.zero, hidden := Hidden.zero, host := [], rdata := 0
    draws := 1, ibufSeed := 0, obufSeed := 0 }

end Sys2Proof.Machine
end

