-- ==== Sys2Proof/Machine/Flags.lean ====
section
/-! DEFINITION. The status register: error codes, the word a read returns, and the two predicates that steer
the control flow (R24, R27, R88, R89). The block has no arithmetic flags (R27). -/

namespace Sys2Proof.Machine

/-- The ERR code of an error kind (R89). -/
def ErrorKind.code : ErrorKind → BitVec 3
  | .emptyInput => 1
  | .malformedContainer => 2
  | .truncatedStream => 3
  | .unknownByte => 4
  | .illegalCommand => 7

/-- A flag as a number. -/
def flagBit (b : Bool) : Nat := if b then 1 else 0

/-- The word a read of STATUS returns: "BUSY | DONE << 1 | ERR << 2 | STAGE << 8" (R24, R212). -/
def Status.word (st : Status) : Word :=
  BitVec.ofNat 32 (flagBit st.busy + 2 * flagBit st.done + 4 * st.err.toNat + 256 * st.stage.toNat)

/-- STATUS at command start: DONE and ERR cleared, BUSY set, STAGE the first stage (R195). -/
def Status.started (stage : BitVec 4) : Status :=
  { busy := true, done := false, err := 0, stage := stage }

/-- STATUS at a successful command end: STAGE 0, "ERR stays 0", DONE set, BUSY cleared (R197, R201). -/
def Status.ended (st : Status) : Status :=
  { st with busy := false, done := true, stage := 0 }

/-- STATUS after a fault of a command: ERR the code, DONE set, BUSY cleared, STAGE kept (R222). -/
def Status.faulted (st : Status) (k : ErrorKind) : Status :=
  { st with busy := false, done := true, err := k.code }

/-- TREE_EMPTY = (ROOT = NONE) (R27). -/
def Tree.isEmpty (t : Tree) : Bool := t.root.isNone

/-- ROOT_IS_LEAF = (ROOT != NONE and NODE[ROOT].KIND = LEAF) (R27). -/
def Tree.rootIsLeaf (t : Tree) : Bool :=
  match t.root with
  | none => false
  | some r =>
    match t.node[r]? with
    | some (.leaf _ _) => true
    | some (.int _ _ _) => false
    | none => false

/-- The stage codes of a command, in the order it runs them (R88, R196, R200). -/
def Command.stages : Command → List (BitVec 4)
  | .compress => [1#4, 2#4, 3#4, 4#4, 5#4, 6#4]
  | .decompress => [7#4, 2#4, 8#4, 9#4]

end Sys2Proof.Machine
end

