-- ==== Sys2Proof/Machine/Operands.lean ====
section
/-! DEFINITION. Operand assembly (R90): a counter from four container bytes and back (R62, R81), the bits of a
byte most significant first (R63, R83), a byte from a group of bits (R150). -/

namespace Sys2Proof.Machine

/-- `be32(b0,b1,b2,b3) = b0 x 2^24 + b1 x 2^16 + b2 x 2^8 + b3` (R11, R81). -/
def be32 (b0 b1 b2 b3 : Byte) : Word :=
  BitVec.ofNat 32 (b0.toNat * 2 ^ 24 + b1.toNat * 2 ^ 16 + b2.toNat * 2 ^ 8 + b3.toNat)

/-- `bytes_be32(v) = (v[31:24], v[23:16], v[15:8], v[7:0])` (R11, R62). -/
def bytesBe32 (v : Word) : List Byte :=
  [v.extractLsb' 24 8, v.extractLsb' 16 8, v.extractLsb' 8 8, v.extractLsb' 0 8]

/-- The eight bits of a byte, bit 7 first (R63: "expand each byte back into 8 bits most-significant-bit
first"). -/
def byteBits (b : Byte) : Bits :=
  (List.range 8).map fun t => b.getLsbD (7 - t)

/-- The bit at position m of a sequence of which n positions count: "BITSEQ[m] if m < NBITS else 0" (R150).
A bit that is missing counts as 0 (log 26). -/
def bitAt (q : Bits) (n m : Nat) : Byte :=
  if m < n ∧ q.getD m false = true then 1 else 0

/-- Byte j of the packed sequence: bit t of the group goes to bit 7 - t of the byte (R150). -/
def packByte (q : Bits) (n j : Nat) : Byte :=
  (List.range 8).foldl (fun v t => v ||| (bitAt q n (8 * j + t) <<< (7 - t))) 0

end Sys2Proof.Machine
end

