-- ==== Sys2Proof/Machine/Ops.lean ====
section
/-! DEFINITION. The named operations every meaning is written over: buffer reads and writes (R11, R66), the
draw of free values, command start and end, taking a fault, and reset. -/

namespace Sys2Proof.Machine

/-- The byte a buffer lists at an offset, none where nothing is listed. -/
def Memory.read : Memory → Nat → Option Byte
  | [], _ => none
  | (k, b) :: m, a => if k = a then some b else Memory.read m a

/-- The cells of a block of bytes from an offset on. -/
def Memory.cells : Nat → List Byte → Memory
  | _, [] => []
  | a, b :: bs => (a, b) :: Memory.cells (a + 1) bs

/-- `MemWrite(SPACE, addr, n, v)`: "stores the list v of n bytes at those offsets" (R11). -/
def Memory.write (m : Memory) (a : Nat) (bs : List Byte) : Memory :=
  m.filter (fun c => decide (c.1 < a)) ++ Memory.cells a bs
    ++ m.filter (fun c => decide (a + bs.length ≤ c.1))

/-- The canonical form of a buffer: offsets strictly rising, so that equal buffers are equal lists. -/
abbrev Memory.wf (m : Memory) : Prop := m.Pairwise (fun c d => c.1 < d.1)

/-- Every listed offset is below a bound. -/
abbrev Memory.below (m : Memory) (n : Nat) : Prop := ∀ c ∈ m, c.1 < n

/-- The byte IBUF holds at an offset (R28): the one last written, else the free value of that offset. -/
def State.ibufByte (s : State) (a : Nat) : Byte :=
  (Memory.read s.ibuf a).getD (Config.freeIbuf s.ibufSeed a)

/-- The byte OBUF holds at an offset (R29): the one the engine wrote, else the free value of that offset. -/
def State.obufByte (s : State) (a : Nat) : Byte :=
  (Memory.read s.obuf a).getD (Config.freeObuf s.obufSeed a)

/-- IN_CAP as a number. -/
def State.inCap (s : State) : Nat := s.caps.inCap.toNat

/-- OUT_CAP. -/
def State.outCap (s : State) : Nat := s.caps.outCap

/-- The bytes of IBUF at the offsets a .. a+n-1, lowest first. -/
def State.ibufBytes (s : State) (a n : Nat) : List Byte :=
  (List.range n).map fun j => s.ibufByte (a + j)

/-- The operand of a command: IBUF[0 .. IN_LEN-1] (R195). -/
def State.input (s : State) : List Byte := s.ibufBytes 0 s.inLen.toNat

/-- The result of a command: OBUF[0 .. OUT_LEN-1] (R16, R29). -/
def State.output (s : State) : List Byte :=
  (List.range s.outLen.toNat).map s.obufByte

/-- `MemRead(IBUF, addr, n)` (R11); none when an offset is at or above IN_CAP, which does not exist (R60). -/
def State.memReadIbuf (s : State) (a n : Nat) : Option (List Byte) :=
  if a + n ≤ s.inCap then some (s.ibufBytes a n) else none

/-- `MemWrite(OBUF, addr, n, v)` (R11); none when an offset is at or above OUT_CAP (R60). -/
def State.memWriteObuf (s : State) (a : Nat) (bs : List Byte) : Option State :=
  if a + bs.length ≤ s.outCap then some { s with obuf := Memory.write s.obuf a bs } else none

/-- The engine-private state becomes unspecified (R40). -/
def State.releasePrivate (s : State) : State :=
  { s with priv := Config.freePrivate s.draws, draws := s.draws + 1 }

/-- Every byte of OBUF becomes unspecified (R29, U3). -/
def State.releaseObuf (s : State) : State :=
  { s with obuf := [], obufSeed := s.draws, draws := s.draws + 1 }

/-- The hidden registers take values no rule says (R38). -/
def State.stirHidden (s : State) : State :=
  { s with hidden := Config.freeHidden s.draws, draws := s.draws + 1 }

/-- Command start (R195): DONE, ERR and OUT_LEN cleared, BUSY set, STAGE the command's first stage, OP latched
(R39); OBUF becomes unspecified (R248, U3). -/
def State.startCommand (s : State) (op : Command) (stage : BitVec 4) : State :=
  State.releaseObuf
    { s with status := Status.started stage, outLen := 0, priv := { s.priv with op := op } }

/-- Successful command end (R197, R201): OUT_LEN published, STAGE 0, DONE set, BUSY cleared; the engine-private
state becomes unspecified (R40). -/
def State.endCommand (s : State) (len : Nat) : State :=
  State.releasePrivate { s with outLen := BitVec.ofNat 40 len, status := s.status.ended }

/-- TAKING A FAULT, `raise K` (R222): OUT_LEN 0, ERR the code of K, DONE set, BUSY cleared, STAGE kept; OBUF and
the engine-private state become unspecified; IBUF and IN_LEN are unchanged. "Nothing is saved anywhere else". -/
def State.raise (s : State) (k : ErrorKind) : State :=
  State.releasePrivate (State.releaseObuf { s with outLen := 0, status := s.status.faulted k })

/-- A reserved OP written to CMD (R205): while BUSY = 1 it is ignored (R204); otherwise IllegalCommand, which
"has the same final state except STATUS.STAGE = 0" (R222). There is no return from a fault: the report stays
until the next accepted CMD write or reset (R225). -/
def State.illegalCommand (s : State) : State :=
  if s.status.busy then s
  else State.raise { s with status := { s.status with stage := 0 } } .illegalCommand

/-- Reset (R240, R241): STATUS, IN_LEN and OUT_LEN 0, every buffer byte and every engine-private item
unspecified, a running command abandoned. The capacities are the machine's, and the host's script and the
value it read last are the host's. DEDUCED, log 20. -/
def State.assertReset (s : State) : State :=
  State.stirHidden (State.releasePrivate (State.releaseObuf
    { s with status := Status.zero, inLen := 0, outLen := 0, ibuf := [], ibufSeed := s.draws }))

/-- `STAGE <- code`: the sequencer enters a stage (R21, R196, R200). -/
def State.enter (s : State) (stage : BitVec 4) : State :=
  { s with status := { s.status with stage := stage } }

end Sys2Proof.Machine
end

