-- ==== Sys2Proof/Machine/Build.lean ====
section
/-! DEFINITION. The stage BUILD, the greedy minimum-merge tree builder (spec/41_tree_build.md, R110 to R114). -/

namespace Sys2Proof.Machine

/-- NODE[i].W of a record. -/
def Node.weight : Node → Nat
  | .leaf _ w => w
  | .int w _ _ => w

/-- NODE[i].W by index. Indices come from LIVE, so they are below NN; there is no record elsewhere
(log 26). -/
def nodeWeight (node : List Node) (i : Nat) : Nat :=
  match node[i]? with
  | some n => n.weight
  | none => 0

/-- The order of the collection: (NODE[i].W, i) lexicographically (R112). -/
def keyLt (node : List Node) (i j : Nat) : Bool :=
  decide (nodeWeight node i < nodeWeight node j) ||
    (nodeWeight node i == nodeWeight node j && decide (i < j))

/-- `minkey(S)`: the i in S that minimises (NODE[i].W, i) (R112); none for the empty set. -/
def minkey (node : List Node) : List Nat → Option Nat
  | [] => none
  | i :: rest =>
    match minkey node rest with
    | none => some i
    | some j => if keyLt node i j then some i else some j

/-- The scan of R110 from byte value s on: one leaf per non-zero counter, in ascending order of byte value. -/
def scanLeaves : List Word → Nat → Tree → Tree
  | [], _, t => t
  | f :: fs, s, t =>
    if f = 0 then scanLeaves fs (s + 1) t
    else scanLeaves fs (s + 1)
      { t with node := t.node ++ [.leaf (BitVec.ofNat 8 s) f.toNat], live := t.live ++ [t.nn], nn := t.nn + 1 }

/-- `NN <- 0; LIVE <- {}; ROOT <- NONE` and the leaves (R110, R111). -/
def leafTree (freq : Table Word) : Tree :=
  scanLeaves freq.toList 0 Tree.zero

/-- One merge (R111, R114): the lowest node of LIVE and then the lowest of the rest are removed and become the
left and the right child of a new node, which is added to LIVE; none when |LIVE| is at most 1. -/
def mergeOnce (t : Tree) : Option Tree :=
  match minkey t.node t.live with
  | none => none
  | some a =>
    match minkey t.node (t.live.erase a) with
    | none => none
    | some b =>
      some { t with
        node := t.node ++ [.int (nodeWeight t.node a + nodeWeight t.node b) a b]
        live := (t.live.erase a).erase b ++ [t.nn]
        nn := t.nn + 1 }

/-- `while |LIVE| > 1` (R111); each merge takes one element from LIVE, so |LIVE| turns are enough.
DEDUCED, log 23. -/
def mergeLoop : Nat → Tree → Tree
  | 0, t => t
  | fuel + 1, t =>
    match mergeOnce t with
    | none => t
    | some t' => mergeLoop fuel t'

/-- `if |LIVE| = 1: ROOT <- the one element of LIVE` (R111). -/
def Tree.setRoot (t : Tree) : Tree :=
  match t.live with
  | [r] => { t with root := some r }
  | _ => t

/-- BUILD as a function of FREQ (R120: "BUILD reads nothing but FREQ"). -/
def buildTree (freq : Table Word) : Tree :=
  (mergeLoop (leafTree freq).live.length (leafTree freq)).setRoot

/-- BUILD (R111): reads FREQ, writes NN, NODE[0 .. NN-1], LIVE and ROOT; no faults. -/
def execBuild (s : State) : Host.Outcome State Fault Refusal :=
  .next { s with priv := { s.priv with tree := buildTree s.priv.freq } }

end Sys2Proof.Machine
end

