-- ==== Sys2Proof/Machine/Commands.lean ====
section
/-! DEFINITION. The host commands COMPRESS and DECOMPRESS: what the CMD write that carries one does (R195, R204).
The stages the command then runs are the steps of Machine/Sequencer.lean (R196, R200, R208 (b)).
DESIGN CHOICE, log 10. -/

namespace Sys2Proof.Machine

/-- COMPRESS (R195, R196): starts the command at stage COUNT; ignored while BUSY = 1 (R204). -/
def execCompress (s : State) : Host.Outcome State Fault Refusal :=
  if s.status.busy then .next s else .next (s.startCommand .compress 1#4)

/-- DECOMPRESS (R195, R200): starts the command at stage PARSE; ignored while BUSY = 1 (R204). -/
def execDecompress (s : State) : Host.Outcome State Fault Refusal :=
  if s.status.busy then .next s else .next (s.startCommand .decompress 7#4)

end Sys2Proof.Machine
end

