-- ==== Sys2Proof/Machine/Container.lean ====
section
/-! DEFINITION. The stages SERIALIZE and PARSE (spec/45_container.md, R165 to R173). -/

namespace Sys2Proof.Machine

/-- HDR: the 256 counters "as fixed-width (4-byte) big-endian unsigned integers in byte-value order" (R165). -/
def headerBytes (freq : Table Word) : List Byte :=
  freq.toList.flatMap bytesBe32

/-- The container (R80, R165): header, padding-count byte, payload, "with no separators". -/
def containerBytes (freq : Table Word) (pad : BitVec 3) (pay : List Byte) : List Byte :=
  headerBytes freq ++ pad.setWidth 8 :: pay

/-- SERIALIZE (R165): reads FREQ, PAD, PAY and PLEN, writes OBUF[0 .. 1024+PLEN] and CLEN; no faults of the
spec. -/
def execSerialize (s : State) : Host.Outcome State Fault Refusal :=
  match s.memWriteObuf 0 (containerBytes s.priv.freq s.priv.pad (s.priv.pay.take s.priv.plen)) with
  | none => .fault .obufRange
  | some s' => .next { s' with priv := { s'.priv with clen := Config.payloadOffset + s.priv.plen } }

/-- Counter s of a container in IBUF: `be32` of the bytes at 4s .. 4s+3 (R81, R171). -/
def State.counterAt (s : State) (k : Nat) : Word :=
  be32 (s.ibufByte (4 * k)) (s.ibufByte (4 * k + 1)) (s.ibufByte (4 * k + 2)) (s.ibufByte (4 * k + 3))

/-- The 256 counters of a container in IBUF (R171). -/
def State.counters (s : State) : Table Word := Table.tabulate s.counterAt

/-- PARSE (R170): reads IN_LEN and IBUF[0 .. IN_LEN-1], writes FREQ, PAD, PLEN and PAY; raises
MalformedContainer when IN_LEN < 1025, before reading anything, and when byte 1024 is above 7 (R173). -/
def execParse (s : State) : Host.Outcome State Fault Refusal :=
  if s.inLen.toNat < Config.minContainer then .next (s.raise .malformedContainer)
  else
    match s.memReadIbuf Config.payloadOffset (s.inLen.toNat - Config.minContainer) with
    | none => .fault .ibufRange
    | some pay =>
      if 7 < (s.ibufByte Config.padOffset).toNat then .next (s.raise .malformedContainer)
      else .next { s with priv := { s.priv with
        freq := s.counters
        pad := (s.ibufByte Config.padOffset).setWidth 3
        plen := s.inLen.toNat - Config.minContainer
        pay := pay } }

end Sys2Proof.Machine
end

