-- ==== Sys2Proof/Machine/Count.lean ====
section
/-! DEFINITION. The stage COUNT, the frequency counter (spec/40_frequency_count.md, R100). -/

namespace Sys2Proof.Machine

/-- `FREQ[b] <- FREQ[b] + 1` in 32 bits (R100). -/
def bumpCount (f : Table Word) (b : Byte) : Table Word :=
  f.put b (f.at b + 1)

/-- The table after COUNT: cleared, then one increment per byte in order (R100). -/
def countBytes (bs : List Byte) : Table Word :=
  bs.foldl bumpCount (Vector.replicate 256 0)

/-- COUNT (R100): reads IN_LEN and IBUF[0 .. IN_LEN-1], writes FREQ. No faults of the spec; the empty input is
signalled by the sequencer (R102). -/
def execCount (s : State) : Host.Outcome State Fault Refusal :=
  match s.memReadIbuf 0 s.inLen.toNat with
  | none => .fault .ibufRange
  | some bs => .next { s with priv := { s.priv with freq := countBytes bs } }

end Sys2Proof.Machine
end

