-- ==== Sys2Proof/Machine/Derive.lean ====
section
/-! DEFINITION. The stage DERIVE, the code table generator (spec/42_code_derive.md, R130). -/

namespace Sys2Proof.Machine

/-- `visit(i, path)` (R130): the codes assigned below node i, left before right. The depth is bounded by the
fuel; none when the walk leaves the records or the fuel ends (a cycle), which no tree of BUILD allows. DEDUCED,
logs 15 and 23. -/
def visit (node : List Node) : Nat → Nat → Bits → Option (List (Byte × Bits))
  | 0, _, _ => none
  | fuel + 1, i, path =>
    match node[i]? with
    | none => none
    | some (.leaf sym _) => some [(sym, path)]
    | some (.int _ l r) =>
      match visit node fuel l (path ++ [false]), visit node fuel r (path ++ [true]) with
      | some a, some b => some (a ++ b)
      | _, _ => none

/-- The codes of a tree, in the order DERIVE records them: none at all without a tree (R132), the one-bit code
0 for a leaf that is the root (R131), the root-to-leaf paths otherwise. -/
def treeCodes (t : Tree) : Option (List (Byte × Bits)) :=
  match t.root with
  | none => some []
  | some r =>
    match t.node[r]? with
    | none => none
    | some (.leaf sym _) => some [(sym, [false])]
    | some (.int _ _ _) => visit t.node t.node.length r []

/-- `for s in 0..255: CODE[s].VALID <- 0` (R130); LEN and BITS stay. DEDUCED, log 25. -/
def clearCodes (code : Table CodeEntry) : Table CodeEntry :=
  Table.tabulate fun s => { code.at (BitVec.ofNat 8 s) with valid := false }

/-- `CODE[s] <- {VALID=1, LEN=len(path), BITS=path}` (R130). -/
def recordCode (code : Table CodeEntry) (c : Byte × Bits) : Table CodeEntry :=
  code.put c.1 { valid := true, len := c.2.length, bits := c.2 }

/-- DERIVE (R130): reads ROOT and NODE, writes CODE; no faults of the spec. -/
def execDerive (s : State) : Host.Outcome State Fault Refusal :=
  match treeCodes s.priv.tree with
  | none => .fault .arena
  | some cs =>
    .next { s with priv := { s.priv with code := cs.foldl recordCode (clearCodes s.priv.code) } }

end Sys2Proof.Machine
end

