-- ==== Sys2Proof/Machine/Encode.lean ====
section
/-! DEFINITION. The stage ENCODE, code-table lookup and bit concatenation (spec/43_encode.md, R140, R141). -/

namespace Sys2Proof.Machine

/-- The code word of an entry: BITS, "of which the first LEN positions are used" (R34). Log 26. -/
def CodeEntry.word (e : CodeEntry) : Bits := e.bits.take e.len

/-- The concatenation of the codes of the bytes in order; none at the first byte with VALID = 0 (R140, R141). -/
def encodeBytes (code : Table CodeEntry) : List Byte → Option Bits
  | [] => some []
  | b :: bs =>
    if (code.at b).valid then
      match encodeBytes code bs with
      | none => none
      | some q => some ((code.at b).word ++ q)
    else none

/-- ENCODE (R140): reads IN_LEN, IBUF[0 .. IN_LEN-1] and CODE, writes BITSEQ and NBITS; raises UnknownByte
(R141). -/
def execEncode (s : State) : Host.Outcome State Fault Refusal :=
  match s.memReadIbuf 0 s.inLen.toNat with
  | none => .fault .ibufRange
  | some bs =>
    match encodeBytes s.priv.code bs with
    | none => .next (s.raise .unknownByte)
    | some q => .next { s with priv := { s.priv with bitseq := q, nbits := q.length } }

end Sys2Proof.Machine
end

