-- ==== Sys2Proof/Machine/Pack.lean ====
section
/-! DEFINITION. The stages PACK and UNPACK (spec/44_bit_pack_unpack.md, R150 to R157). -/

namespace Sys2Proof.Machine

/-- `PLEN <- ceil(NBITS / 8)` (R151). -/
def packLen (n : Nat) : Nat := (n + 7) / 8

/-- `PAD <- (8 - (NBITS mod 8)) mod 8` (R151). -/
def packPad (n : Nat) : BitVec 3 := BitVec.ofNat 3 ((8 - n % 8) % 8)

/-- PAY[0 .. PLEN-1] of PACK (R150, R152). -/
def packBytes (q : Bits) (n : Nat) : List Byte :=
  (List.range (packLen n)).map (packByte q n)

/-- PACK (R150): reads BITSEQ and NBITS, writes PAY, PLEN and PAD; no faults. -/
def execPack (s : State) : Host.Outcome State Fault Refusal :=
  .next { s with priv := { s.priv with
    pay := packBytes s.priv.bitseq s.priv.nbits
    plen := packLen s.priv.nbits
    pad := packPad s.priv.nbits } }

/-- The bits of UNPACK: "expand each byte back into 8 bits most-significant-bit first, concatenate, then
discard the last `paddingCount` bits" (R155), n bits remaining. -/
def unpackBits (pay : List Byte) (n : Nat) : Bits :=
  (pay.flatMap byteBits).take n

/-- UNPACK (R155): reads PAY, PLEN and PAD, writes BITSEQ and NBITS; raises TruncatedStream when
8 x PLEN < PAD (R156). -/
def execUnpack (s : State) : Host.Outcome State Fault Refusal :=
  if 8 * s.priv.plen < s.priv.pad.toNat then .next (s.raise .truncatedStream)
  else .next { s with priv := { s.priv with
    nbits := 8 * s.priv.plen - s.priv.pad.toNat
    bitseq := unpackBits (s.priv.pay.take s.priv.plen) (8 * s.priv.plen - s.priv.pad.toNat) } }

end Sys2Proof.Machine
end

