-- ==== Sys2Proof/Machine/Walk.lean ====
section
/-! DEFINITION. The stage DECODE, the tree walk on the bit sequence (spec/46_decode.md, R180 to R184). -/

namespace Sys2Proof.Machine

/-- How a walk over the bits ends: with the walk position CUR and the bytes emitted in order; at a bit 1 under
a single-leaf tree (R181), with the bytes emitted before it; outside the records (no rule reaches it). -/
inductive WalkEnd where
  | ended (cur : Nat) (out : List Byte)
  | oneBit (out : List Byte)
  | lost
  deriving DecidableEq, Repr

/-- The walk under a single-leaf tree (R181): each bit 0 emits the byte value, the first bit 1 ends the walk. -/
def walkLeaf (root : Nat) (sym : Byte) : Bits → List Byte → WalkEnd
  | [], out => .ended root out
  | true :: _, out => .oneBit out
  | false :: q, out => walkLeaf root sym q (out ++ [sym])

/-- The walk under a tree with an internal root (R180): 0 to the left child, 1 to the right; at a leaf the byte
value is emitted and the walk position goes back to the root. -/
def walkTree (node : List Node) (root : Nat) : Bits → Nat → List Byte → WalkEnd
  | [], cur, out => .ended cur out
  | b :: q, cur, out =>
    match node[cur]? with
    | some (.int _ l r) =>
      match node[if b then r else l]? with
      | some (.leaf sym _) => walkTree node root q root (out ++ [sym])
      | some (.int _ _ _) => walkTree node root q (if b then r else l) out
      | none => .lost
    | some (.leaf _ _) => .lost
    | none => .lost

/-- The walk over a bit sequence from the root of a tree (R180). -/
def walkBits (t : Tree) (root : Nat) (q : Bits) : WalkEnd :=
  match t.node[root]? with
  | none => .lost
  | some (.leaf sym _) => walkLeaf root sym q []
  | some (.int _ _ _) => walkTree t.node root q root []

/-- The end of DECODE: the bytes emitted are in OBUF, OCNT counts them, DLEN is OCNT (R180). -/
def State.finishDecode (s : State) (cur : Nat) (out : List Byte) : State :=
  { s with priv := { s.priv with cur := cur, ocnt := out.length, dlen := out.length } }

/-- DECODE (R180): reads BITSEQ, NBITS, ROOT and NODE, writes CUR, OCNT, DLEN and OBUF[0 .. OCNT-1]; raises
MalformedContainer at a bit 1 under a single-leaf tree (R181) and TruncatedStream when the bits end with
CUR != ROOT (R183). Without a tree it emits nothing (R182) and CUR stays
(log 25). -/
def execDecode (s : State) : Host.Outcome State Fault Refusal :=
  match s.priv.tree.root with
  | none => .next { s with priv := { s.priv with ocnt := 0, dlen := 0 } }
  | some root =>
    match walkBits s.priv.tree root (s.priv.bitseq.take s.priv.nbits) with
    | .lost => .fault .arena
    | .oneBit out =>
      match s.memWriteObuf 0 out with
      | none => .fault .obufRange
      | some s' => .next (s'.raise .malformedContainer)
    | .ended cur out =>
      match s.memWriteObuf 0 out with
      | none => .fault .obufRange
      | some s' => if cur = root then .next (s'.finishDecode cur out) else .next (s'.raise .truncatedStream)

end Sys2Proof.Machine
end

