-- ==== Sys2Proof/Machine/Sequencer.lean ====
section
/-! DEFINITION. The sequencer (R21, R196, R200): one engine step runs the stage that STATUS.STAGE names and then
enters the next stage or ends the command. -/

namespace Sys2Proof.Machine

/-- What follows a stage that ended without a fault (R196, R197, R200, R201). -/
def State.advance (i : Instr) (s : State) : State :=
  match i with
  | .compress => s
  | .decompress => s
  | .count => if s.inLen = 0 then s.raise .emptyInput else s.enter 2#4
  | .build =>
    match s.priv.op with
    | .compress => s.enter 3#4
    | .decompress => if s.priv.tree.isEmpty then s.endCommand 0 else s.enter 8#4
  | .derive => s.enter 4#4
  | .encode => s.enter 5#4
  | .pack => s.enter 6#4
  | .serialize => s.endCommand s.priv.clen
  | .parse => s.enter 2#4
  | .unpack => s.enter 9#4
  | .decode => s.endCommand s.priv.dlen

/-- After a stage: a stage that raised a fault has ended the command (BUSY = 0, R222) and nothing follows;
otherwise the sequencer advances. -/
def State.afterStage (i : Instr) (s : State) : State :=
  if s.status.busy then s.advance i else s

/-- One step of the engine: while BUSY = 1, the stage STATUS.STAGE names (R88), run to completion; while
BUSY = 0 "the block is idle and waits for a CMD write" (R41) and nothing changes. -/
def engineStep (s : State) : Host.Outcome State Fault Refusal :=
  if s.status.busy then
    match decodeWord (.stage s.status.stage) with
    | .error _ => .fault .stageCode
    | .ok i =>
      match exec i s.stirHidden with
      | .next s' => .next (s'.afterStage i)
      | .fault r => .fault r
      | .refused r => .refused r
  else .next s

end Sys2Proof.Machine
end

