-- ==== Sys2Proof/Machine/Host.lean ====
section
/-! DEFINITION. The host: what each of its moves does (spec/47_commands.md R203 to R205 and R211,
spec/30_encoding.md R92, spec/70_reset_and_hazards.md R240, R245). -/

namespace Sys2Proof.Machine

/-- A host read delivers a value. -/
def State.deliver (s : State) (v : Len) : State := { s with rdata := v }

/-- A host read that R245 forbids: "a forbidden read returns any value". -/
def State.deliverFree (s : State) : State :=
  { s with rdata := Config.freeRead s.draws, draws := s.draws + 1 }

/-- The stage code a STATUS read returns while a command runs: one of the stages of the command, "which one is
not specified" (R211). -/
def drawnStage (op : Command) (k : Nat) : BitVec 4 :=
  op.stages.getD (Config.freeStage k % op.stages.length) 0

/-- A read of STATUS (R24, R211). -/
def State.readStatus (s : State) : State :=
  if s.status.busy then
    { s with
      rdata := (Status.word { s.status with stage := drawnStage s.priv.op s.draws }).setWidth 40
      draws := s.draws + 1 }
  else s.deliver ((Status.word s.status).setWidth 40)

/-- A write of CMD (R195, R204, R205): the event that starts a command. CMD stores nothing (R23). -/
def writeCmd (w : Word) (s : State) : Host.Outcome State Fault Refusal :=
  match decodeWord (.cmd w) with
  | .ok i => exec i s
  | .error _ => .next s.illegalCommand

/-- A write of IN_LEN (R25, R203). -/
def writeInLen (v : Len) (s : State) : Host.Outcome State Fault Refusal :=
  if s.status.busy then .refused .busyWrite
  else if v.toNat ≤ s.inCap then .next { s with inLen := v.setWidth 32 }
  else .refused .aboveCapacity

/-- A host register write by number (R22): STATUS and OUT_LEN ignore it. The value is 40 bits wide (log 24). -/
def writeReg (n : Nat) (v : Len) (s : State) : Host.Outcome State Fault Refusal :=
  match n with
  | 0 => writeCmd (v.setWidth 32) s
  | 1 => .next s
  | 2 => writeInLen v s
  | 3 => .next s
  | _ => .refused .noSuchRegister

/-- A host register read by number (R22, R203): CMD "reads return 0"; while BUSY = 0 the host "may read OBUF and
OUT_LEN" (R69), so OUT_LEN is 0 before any command has ended (R26, R41). While BUSY = 1 the read is forbidden (R245). -/
def readReg (n : Nat) (s : State) : Host.Outcome State Fault Refusal :=
  match n with
  | 0 => .next (s.deliver 0)
  | 1 => .next s.readStatus
  | 2 => .next (s.deliver (s.inLen.setWidth 40))
  | 3 => .next (if s.status.busy then s.deliverFree else s.deliver s.outLen)
  | _ => .refused .noSuchRegister

/-- A host write of one byte of IBUF (R28, R203). -/
def writeIbuf (a : Nat) (b : Byte) (s : State) : Host.Outcome State Fault Refusal :=
  if s.inCap ≤ a then .refused .offsetRange
  else if s.status.busy then .refused .busyWrite
  else .next { s with ibuf := Memory.write s.ibuf a [b] }

/-- A host read of one byte of IBUF (R203). -/
def readIbuf (a : Nat) (s : State) : Host.Outcome State Fault Refusal :=
  if s.inCap ≤ a then .refused .offsetRange
  else if s.status.busy then .next s.deliverFree
  else .next (s.deliver ((s.ibufByte a).setWidth 40))

/-- A host read of one byte of OBUF (R29, R69, R245): defined while BUSY = 0 and below OUT_LEN. -/
def readObuf (a : Nat) (s : State) : Host.Outcome State Fault Refusal :=
  if s.outCap ≤ a then .refused .offsetRange
  else if s.status.busy ∨ s.outLen.toNat ≤ a then .next s.deliverFree
  else .next (s.deliver ((s.obufByte a).setWidth 40))

/-- The bytes stored in IBUF from offset 0 and IN_LEN set to their number. -/
def State.loadInput (s : State) (bs : List Byte) : State :=
  { s with ibuf := Memory.write s.ibuf 0 bs, inLen := BitVec.ofNat 32 bs.length }

/-- LOAD (R92): "write the listed bytes (two hex digits each) to IBUF from offset 0 and set IN_LEN to their
number". One move: DESIGN CHOICE, log 21. -/
def loadBytes (bs : List Byte) (s : State) : Host.Outcome State Fault Refusal :=
  if s.inCap < bs.length then .refused .aboveCapacity
  else if s.status.busy then .refused .busyWrite
  else .next (s.loadInput bs)

/-- MOVE (R92): "copy OBUF[0 .. OUT_LEN-1] to IBUF[0 .. OUT_LEN-1] and write OUT_LEN to IN_LEN", legal only when
OUT_LEN <= IN_CAP; its reads and writes are admitted while BUSY = 0 (R69). One move: DESIGN CHOICE, log 21. -/
def moveResult (s : State) : Host.Outcome State Fault Refusal :=
  if s.status.busy then .refused .noResult
  else if s.inCap < s.outLen.toNat then .refused .aboveCapacity
  else .next (s.loadInput s.output)

/-- One move of the host, already taken from its script. `wait` ends when DONE = 1 and otherwise leaves the
engine its step and stays in the script; `pass` leaves the engine its step. DESIGN CHOICE, log 9. -/
def hostMove (m : HostMove) (s : State) : Host.Outcome State Fault Refusal :=
  match m with
  | .reset => .next s.assertReset
  | .wrReg n v => writeReg n v s
  | .rdReg n => readReg n s
  | .wrIbuf a b => writeIbuf a b s
  | .rdIbuf a => readIbuf a s
  | .rdObuf a => readObuf a s
  | .load bs => loadBytes bs s
  | .move => moveResult s
  | .wait => if s.status.done then .next s else engineStep { s with host := .wait :: s.host }
  | .pass => engineStep s

/-- One step of the whole: the host's next move, and the engine's step when the script is empty (the host makes
no further move). -/
def stepMachine (s : State) : Host.Outcome State Fault Refusal :=
  match s.host with
  | [] => engineStep s
  | m :: rest => hostMove m { s with host := rest }

/-- The line LOADSTR of the notation: LOAD of the character codes (R92). -/
def loadStr (t : String) : HostMove := .load (t.toList.map fun c => BitVec.ofNat 8 c.toNat)

/-- The line COMPRESS: `WR CMD, 0x00000001` (R92). -/
def scriptCompress : HostMove := .wrReg 0 1#40

/-- The line DECOMPRESS: `WR CMD, 0x00000002` (R92). -/
def scriptDecompress : HostMove := .wrReg 0 2#40

/-- `ROUNDTRIP` = COMPRESS, WAIT, MOVE, DECOMPRESS, WAIT (R92). -/
def scriptRoundTrip : List HostMove := [scriptCompress, .wait, .move, scriptDecompress, .wait]

/-- A state in which the very next step runs the operation of a code: for a command word, the block idle and the
host about to write it to CMD; for a stage code, BUSY = 1 with STAGE that code, the host about to leave the
engine its step, and OP a command the stage is part of. Log 13. -/
def State.placeCode (s : State) (c : CodeWord) : State :=
  match c with
  | .cmd w => { s with status := { s.status with busy := false }, host := .wrReg 0 (w.setWidth 40) :: s.host }
  | .stage k =>
    { s with
      status := Status.started k, host := .pass :: s.host
      priv := { s.priv with op := if k.toNat < 7 then .compress else .decompress } }

/-- The same for a table word; a word no format holds changes nothing. -/
def State.placeTableWord (s : State) (nbits w : Nat) : State :=
  match tableCode nbits w with
  | none => s
  | some c => s.placeCode c

end Sys2Proof.Machine
end

