-- ==== Sys2Proof/Machine/Step.lean ====
section
/-! DEFINITION. One step of the machine, and the state in which the next step runs a given table word. -/

namespace Sys2Proof.Machine

/-- One step: a move of the host or a step of the engine (R15, R208 (b)). -/
def step (s : State) : Host.Outcome State Fault Refusal := stepMachine s

/-- The state s with the operation of a table word placed where the next step takes it from. -/
def State.withFetchWord (s : State) (nbits w : Nat) : State := s.placeTableWord nbits w

end Sys2Proof.Machine
end

