-- ==== Sys2Proof/Machine/Queues.lean ====
section
/-! DEFINITION. The two-queue form of the tree builder (R122, "an equivalent implementation"). No step of the
machine uses it; that it agrees with BUILD is a statement. -/

namespace Sys2Proof.Machine

/-- A node index put into a list sorted by (weight, index). -/
def insertByKey (node : List Node) (i : Nat) : List Nat → List Nat
  | [] => [i]
  | j :: q => if keyLt node i j then i :: j :: q else j :: insertByKey node i q

/-- Q1: "the leaves sorted by (W, index)" (R122). -/
def sortByKey (node : List Node) : List Nat → List Nat
  | [] => []
  | i :: q => insertByKey node i (sortByKey node q)

/-- `minkey` from the two queues (R122): "the head of Q1 if Q2 is empty or head(Q1).W <= head(Q2).W, and the
head of Q2 otherwise", and the queues without it. -/
def popMin (node : List Node) : List Nat → List Nat → Option (Nat × List Nat × List Nat)
  | [], [] => none
  | i :: p, [] => some (i, p, [])
  | [], j :: q => some (j, [], q)
  | i :: p, j :: q =>
    if nodeWeight node i ≤ nodeWeight node j then some (i, p, j :: q) else some (j, i :: p, q)

/-- The merge loop over the queues: the records and the index left at the end, if any. -/
def queueLoop : Nat → List Node → List Nat → List Nat → List Node × Option Nat
  | 0, node, p, q => (node, ((p ++ q).head?))
  | fuel + 1, node, p, q =>
    match popMin node p q with
    | none => (node, none)
    | some (a, p1, q1) =>
      match popMin node p1 q1 with
      | none => (node, some a)
      | some (b, p2, q2) =>
        queueLoop fuel (node ++ [.int (nodeWeight node a + nodeWeight node b) a b]) p2 (q2 ++ [node.length])

/-- The records and the root the two-queue builder makes from a table. -/
def queueBuild (freq : Table Word) : List Node × Option Nat :=
  queueLoop (leafTree freq).nn (leafTree freq).node
    (sortByKey (leafTree freq).node (List.range (leafTree freq).nn)) []

end Sys2Proof.Machine
end

