-- ==== Sys2Proof/Machine/Stream.lean ====
section
/-! DEFINITION. The streaming forms of the BitPacker and the BitReader (R153, R158): the shifters "an
implementation would build", which the spec says have exactly the effect of PACK and UNPACK. No step of the
machine uses them; that they agree with the stages is a statement. -/

namespace Sys2Proof.Machine

/-- The state of the BitPacker (R153): ACC, NACC and the bytes PAY written so far. -/
structure Packer where
  acc  : Byte
  nacc : Nat
  pay  : List Byte
  deriving DecidableEq, Repr

/-- "Start: ACC <- 0, NACC <- 0, PLEN <- 0" (R153). -/
def Packer.start : Packer := { acc := 0, nacc := 0, pay := [] }

/-- `((ACC << 1) | v) & 0xFF` (R153). -/
def shiftIn (acc : Byte) (v : Bool) : Byte := acc <<< 1 ||| (if v then 1 else 0)

/-- One bit into the BitPacker (R153): at eight bits the byte is written and the accumulator cleared. -/
def Packer.push (p : Packer) (v : Bool) : Packer :=
  if p.nacc + 1 = 8 then { acc := 0, nacc := 0, pay := p.pay ++ [shiftIn p.acc v] }
  else { p with acc := shiftIn p.acc v, nacc := p.nacc + 1 }

/-- The end of the sequence (R153): a short group is shifted up by 8 - NACC and PAD <- 8 - NACC; else PAD <- 0. -/
def Packer.finish (p : Packer) : List Byte × BitVec 3 :=
  if p.nacc = 0 then (p.pay, 0) else (p.pay ++ [p.acc <<< (8 - p.nacc)], BitVec.ofNat 3 (8 - p.nacc))

/-- The BitPacker over a whole bit sequence: PAY and PAD. -/
def streamPack (q : Bits) : List Byte × BitVec 3 :=
  (q.foldl Packer.push Packer.start).finish

/-- The BitReader (R158) with REM bits still to deliver, the shift register SHR, the count NREM and the payload
bytes not yet taken: the bit is SHR[7], a new byte is taken when NREM = 0. -/
def streamRead : Nat → Byte → Nat → List Byte → Bits
  | 0, _, _, _ => []
  | _ + 1, _, 0, [] => []
  | rem + 1, _, 0, b :: pay => b.msb :: streamRead rem (b <<< 1) 7 pay
  | rem + 1, shr, n + 1, pay => shr.msb :: streamRead rem (shr <<< 1) n pay

/-- The BitReader over a whole payload: "REM <- 8 x PLEN - PAD" (R158). -/
def streamUnpack (pay : List Byte) (pad : BitVec 3) : Bits :=
  streamRead (8 * pay.length - pad.toNat) 0 0 pay

end Sys2Proof.Machine
end

