-- ==== Sys2Proof/WellFormed.lean ====
section
/-! DEFINITION. What a term must satisfy to be one the spec gives a meaning: an operation, a code, a host move
against the capacities of the machine. Each check is a Bool. -/

namespace Sys2Proof

/-- Every operation is well formed: none has an operand that could be out of range (R86, R87). -/
def Instr.wf : Instr → Bool
  | .compress => true
  | .decompress => true
  | .count => true
  | .build => true
  | .derive => true
  | .encode => true
  | .pack => true
  | .serialize => true
  | .parse => true
  | .unpack => true
  | .decode => true

/-- A code the block assigns, with the reserved bits as the host should write them: CMD with OP 1 or 2 and
CMD[31:4] = 0 (R87), a stage code 1 .. 9 (R88). -/
def CodeWord.wf : CodeWord → Bool
  | .cmd w => w == 1#32 || w == 2#32
  | .stage c => decide (1 ≤ c.toNat) && decide (c.toNat ≤ 9)

/-- The part of the host's duties that does not depend on the moment (R203, R245): a register number 0 .. 3,
an IN_LEN value at most IN_CAP, a buffer offset below the capacity, an input that fits IBUF. -/
def HostMove.wf (c : Caps) : HostMove → Bool
  | .reset => true
  | .wrReg n v => decide (n < 4) && (n != 2 || decide (v.toNat ≤ c.inCap.toNat))
  | .rdReg n => decide (n < 4)
  | .wrIbuf a _ => decide (a < c.inCap.toNat)
  | .rdIbuf a => decide (a < c.inCap.toNat)
  | .rdObuf a => decide (a < c.outCap)
  | .load bs => decide (bs.length ≤ c.inCap.toNat)
  | .move => true
  | .wait => true
  | .pass => true

end Sys2Proof
end

