-- ==== Sys2Proof/Safety.lean ====
section
/-! DEFINITION. What the claims are stated in: a legal STATUS, a tree the walks stay inside, code words as paths,
the container predicates of R84, and the invariants of a state. -/

namespace Sys2Proof.Machine

/-! ### Registers -/

/-- The pairs (ERR, STAGE) a fault can leave, the table of R216. -/
def faultCauses : List (BitVec 3 × BitVec 4) :=
  [(1, 1), (2, 7), (2, 9), (3, 8), (3, 9), (4, 4), (7, 0)]

/-- A legal STATUS (R24, R216): executing a stage of the command OP with no error reported; ended, with no error
and STAGE 0 or with a cause of R216; or idle since reset. BUSY and DONE are never both 1. -/
def Status.Legal (st : Status) (op : Command) : Prop :=
  match st.busy, st.done with
  | true, true => False
  | true, false => st.err = 0 ∧ st.stage ∈ op.stages
  | false, true => (st.err = 0 ∧ st.stage = 0) ∨ (st.err, st.stage) ∈ faultCauses
  | false, false => st.err = 0 ∧ st.stage = 0

/-- The invariant of the registers and the buffers: a legal STATUS, IN_LEN at most IN_CAP (R25), both buffers in
canonical form and listing only offsets that exist (R60). -/
structure State.RegsOk (s : State) : Prop where
  status    : s.status.Legal s.priv.op
  inLen     : s.inLen.toNat ≤ s.inCap
  ibufWf    : Memory.wf s.ibuf
  obufWf    : Memory.wf s.obuf
  ibufBelow : Memory.below s.ibuf s.inCap
  obufBelow : Memory.below s.obuf s.outCap

/-! ### Trees and code words -/

/-- A tree the walks stay inside: NN counts the records, children lie below their parent (R118 (d)), ROOT is a
record. -/
structure Tree.Ok (t : Tree) : Prop where
  count : t.node.length = t.nn
  child : ∀ i w l r, t.node[i]? = some (Node.int w l r) → l < i ∧ r < i
  root  : ∀ r, t.root = some r → r < t.node.length

/-- The node reached from a node by following edge labels, "0/left, 1/right" (R85); none at a leaf that has an
edge to follow. -/
def follow (node : List Node) : Nat → Bits → Option Nat
  | i, [] => some i
  | i, b :: q =>
    match node[i]? with
    | some (.int _ l r) => follow node (if b then r else l) q
    | some (.leaf _ _) => none
    | none => none

/-- The bit sequence q is the path from ROOT to a leaf of byte value b (R85). -/
def Tree.PathTo (t : Tree) (q : Bits) (b : Byte) : Prop :=
  ∃ r j w, t.root = some r ∧ follow t.node r q = some j ∧ t.node[j]? = some (.leaf b w)

/-- The bit sequence q is the concatenation of the root-to-leaf paths of the byte values in order (R180, R185). -/
def Tree.Spells (t : Tree) (q : Bits) (out : List Byte) : Prop :=
  ∃ ws : List (Bits × Byte),
    (∀ p ∈ ws, t.PathTo p.1 p.2) ∧ q = ws.flatMap (fun p => p.1) ∧ out = ws.map (fun p => p.2)

/-- How many byte values have a non-zero counter: k of R110. -/
def leafCount (freq : Table Word) : Nat := freq.toList.countP (fun f => decide (f ≠ 0))

/-- The sum of the 256 counters (R101, R168). -/
def counterSum (freq : Table Word) : Nat := (freq.toList.map BitVec.toNat).sum

/-! ### Containers as byte lists (R80 to R84) -/

/-- The byte of a container at an offset below its length. -/
def Container.byte (c : List Byte) (a : Nat) : Byte := c.getD a 0

/-- The 256 counters of a container (R81). -/
def Container.freq (c : List Byte) : Table Word :=
  Table.tabulate fun k =>
    be32 (Container.byte c (4 * k)) (Container.byte c (4 * k + 1)) (Container.byte c (4 * k + 2))
      (Container.byte c (4 * k + 3))

/-- The padding count of a container (R82). -/
def Container.pad (c : List Byte) : Nat := (Container.byte c 1024).toNat

/-- The logical bit sequence of a container (R83). -/
def Container.bits (c : List Byte) : Bits :=
  unpackBits (c.drop 1025) (8 * (c.length - 1025) - Container.pad c)

/-- "A byte sequence is *parseable* when N >= 1025 and PADB <= 7" (R84). -/
def Container.Parseable (c : List Byte) : Prop := 1025 ≤ c.length ∧ Container.pad c ≤ 7

/-- A decodable container and the bytes it decodes to (R84): the empty output for an empty tree; under a single
leaf, one byte per bit 0 and no bit 1; otherwise a concatenation of code words. -/
def Container.DecodesTo (c : List Byte) (out : List Byte) : Prop :=
  let t := buildTree (Container.freq c)
  if leafCount (Container.freq c) = 0 then out = []
  else Container.pad c ≤ 8 * (c.length - 1025) ∧
    (if leafCount (Container.freq c) = 1 then
      ∃ b w, t.node = [.leaf b w] ∧ Container.bits c = List.replicate out.length false ∧
        out = List.replicate out.length b
    else t.Spells (Container.bits c) out)

/-- "A decodable container is *faithful* when in addition the number of times each byte value is decoded equals
its counter" (R84). -/
def Container.Faithful (c : List Byte) : Prop :=
  Container.Parseable c ∧
    ∃ out, Container.DecodesTo c out ∧ ∀ b, out.count b = ((Container.freq c).at b).toNat

/-! ### The invariant of a run -/

/-- What the stages of a COMPRESS have computed when stage code k is about to run (R43, R196). -/
def State.CompressData (s : State) (k : Nat) : Prop :=
  (2 ≤ k → s.inLen ≠ 0 ∧ s.priv.freq = countBytes s.input) ∧
  (3 ≤ k → s.priv.tree = buildTree s.priv.freq) ∧
  (4 ≤ k → ∃ cs old, treeCodes s.priv.tree = some cs ∧ s.priv.code = cs.foldl recordCode (clearCodes old)) ∧
  (5 ≤ k → encodeBytes s.priv.code s.input = some s.priv.bitseq ∧ s.priv.nbits = s.priv.bitseq.length) ∧
  (6 ≤ k → s.priv.pay = packBytes s.priv.bitseq s.priv.nbits ∧ s.priv.plen = packLen s.priv.nbits ∧
    s.priv.pad = packPad s.priv.nbits)

/-- What the stages of a DECOMPRESS have computed when stage code k is about to run (R43, R200). -/
def State.DecompressData (s : State) (k : Nat) : Prop :=
  (k ≠ 7 → 1025 ≤ s.inLen.toNat ∧ s.priv.plen = s.inLen.toNat - 1025 ∧
    s.priv.pay = s.ibufBytes 1025 s.priv.plen ∧ s.priv.freq = s.counters ∧
    s.priv.pad.toNat = (s.ibufByte 1024).toNat) ∧
  (8 ≤ k → s.priv.tree = buildTree s.priv.freq ∧ s.priv.tree.root ≠ none) ∧
  (9 ≤ k → s.priv.pad.toNat ≤ 8 * s.priv.plen ∧ s.priv.nbits = 8 * s.priv.plen - s.priv.pad.toNat ∧
    s.priv.bitseq = unpackBits s.priv.pay s.priv.nbits)

/-- The invariant of every run whose host keeps the discipline of R245: the registers are legal, a running
command's private state is what its stages computed from its operand, OUT_LEN is a length of OBUF published only
by a successful command (R26), and UnknownByte was not reported (R142). -/
structure State.Inv (s : State) : Prop where
  regs       : s.RegsOk
  compress   : s.status.busy = true → s.priv.op = .compress → s.CompressData s.status.stage.toNat
  decompress : s.status.busy = true → s.priv.op = .decompress → s.DecompressData s.status.stage.toNat
  outLen     : s.outLen.toNat ≤ s.outCap
  published  : s.outLen ≠ 0 → s.status.done = true ∧ s.status.err = 0
  known      : s.status.err ≠ 4

/-! ### Runs -/

/-- n steps of the machine from a state whose host has the given moves pending. -/
def runScript (n : Nat) (ms : List HostMove) (s : State) : Host.Outcome State Fault Refusal :=
  Host.Core.run Sys2Proof.core n { s with host := ms }

/-- The STATUS of a successful end, 0x00000002 (R197, R201). -/
def Status.success : Status := { busy := false, done := true, err := 0, stage := 0 }

/-- The STATUS a fault leaves (R222). -/
def Status.failure (k : ErrorKind) (stage : BitVec 4) : Status :=
  { busy := false, done := true, err := k.code, stage := stage }

end Sys2Proof.Machine
end

