-- ==== Sys2Proof/Certificates/Slice0/Obligations.lean ====
section
/-! DEFINITION. The statements for the provers. Each docstring names the rule of spec/ the statement formalises, or
says that it rests on a choice of the model and names the log entry. -/

open Sys2Proof Sys2Proof.Machine

/-! ### Reset, STATUS, codes -/

/-- R240, R241: asserting reset at any time, BUSY = 1 included, leaves STATUS, IN_LEN and OUT_LEN 0 and every
buffer byte and engine-private item unspecified (a free value). -/
def Obligations.ResetEventLeavesTheResetState : Prop :=
  ∀ (s : State) (rest : List HostMove), s.host = .reset :: rest →
    ∃ t, step s = .next t ∧ t.status = Status.zero ∧ t.status.word = 0 ∧ t.inLen = 0 ∧ t.outLen = 0 ∧
      (∀ a, t.ibufByte a = Config.freeIbuf s.draws a) ∧ (∀ a, t.obufByte a = Config.freeObuf s.draws a) ∧
      t.priv = Config.freePrivate (s.draws + 1) ∧ t.hidden = Config.freeHidden (s.draws + 2) ∧
      t.host = rest ∧ t.caps = s.caps

/-- R41 for the items it gives a value, and that the state after reset meets the invariant. -/
def Obligations.ResetStateMeetsTheInvariant : Prop :=
  State.reset.Inv ∧ State.reset.status.word = 0 ∧ State.reset.inLen = 0 ∧ State.reset.outLen = 0 ∧
    State.reset.host = []

/-- R24: the fields of the word a STATUS read returns, and its reserved bits, which read as 0. -/
def Obligations.StatusWordHoldsItsFields : Prop :=
  ∀ st : Status,
    st.word.getLsbD 0 = st.busy ∧ st.word.getLsbD 1 = st.done ∧ st.word.extractLsb' 2 3 = st.err ∧
      st.word.extractLsb' 5 3 = 0 ∧ st.word.extractLsb' 8 4 = st.stage ∧ st.word.extractLsb' 12 20 = 0

/-- R87, R88: a command word is decoded by its low four bits alone; encoding and decoding agree for every
operation and every value of the reserved field; each stage code has one operation. -/
def Obligations.CodesDecodeToTheirOperations : Prop :=
  (∀ w : Word,
    (decodeCmd w = .ok .compress ↔ w.toNat % 16 = 1) ∧ (decodeCmd w = .ok .decompress ↔ w.toNat % 16 = 2) ∧
    ((∃ e, decodeCmd w = .error e) ↔ w.toNat % 16 ≠ 1 ∧ w.toNat % 16 ≠ 2)) ∧
  (∀ rsv : BitVec 28, decodeCmd (cmdWord rsv 1#4) = .ok .compress ∧ decodeCmd (cmdWord rsv 2#4) = .ok .decompress) ∧
  (∀ i : Instr, decodeWord (encodeWord i) = .ok i) ∧
  (∀ (c : BitVec 4) (i : Instr), decodeStage c = .ok i → encodeWord i = .stage c)

/-- R87, R88, a few words written out: table words decode to the operation of their row, reserved ones to none. -/
def Obligations.SampleTableWordsDecode : Prop :=
  decodeTableWord 32 0x00000001 = some .compress ∧ decodeTableWord 32 0xFFFFFFF2 = some .decompress ∧
    decodeTableWord 32 0x00000005 = none ∧ decodeTableWord 8 0x1 = some .count ∧
    decodeTableWord 8 0x5 = some .pack ∧ decodeTableWord 8 0x9 = some .decode ∧ decodeTableWord 8 0xA = none

/-! ### The step -/

/-- R21, R88, R195, and the model's host moves (log 9): a step is the decoded operation. While BUSY = 1 and the
host has no move pending or passes, the step is exec of the stage STATUS.STAGE names, on the state with the hidden
registers free, followed by the sequencer; a write of a command word to CMD is exec of the command; an idle block
waits. -/
def Obligations.StepRunsTheDecodedOperation : Prop :=
  (∀ (s : State) (i : Instr), s.host = [] → s.status.busy = true → decodeStage s.status.stage = .ok i →
    step s = match exec i s.stirHidden with
      | .next s' => .next (s'.afterStage i)
      | .fault r => .fault r
      | .refused r => .refused r) ∧
  (∀ (s : State) (rest : List HostMove), s.host = .pass :: rest → step s = engineStep { s with host := rest }) ∧
  (∀ (s : State) (v : Len) (rest : List HostMove) (i : Instr), s.host = .wrReg 0 v :: rest →
    decodeCmd (v.setWidth 32) = .ok i → step s = exec i { s with host := rest }) ∧
  (∀ s : State, s.host = [] → s.status.busy = false → step s = .next s)

/-- The model's own placing of a table word (log 12, log 13): the very next step runs the operation the word
decodes to. -/
def Obligations.PlacedTableWordRuns : Prop :=
  ∀ (s : State) (nbits w : Nat) (i : Instr), decodeTableWord nbits w = some i →
    (8 < nbits → step (s.withFetchWord nbits w) = exec i { s.withFetchWord nbits w with host := s.host }) ∧
    (nbits ≤ 8 → (s.withFetchWord nbits w).status.busy = true ∧
      decodeStage (s.withFetchWord nbits w).status.stage = .ok i ∧
      step (s.withFetchWord nbits w) = engineStep { s.withFetchWord nbits w with host := s.host })

/-! ### Host moves -/

/-- R204. -/
def Obligations.CmdWriteWhileBusyIsIgnored : Prop :=
  ∀ (s : State) (v : Len) (rest : List HostMove), s.host = .wrReg 0 v :: rest → s.status.busy = true →
    step s = .next { s with host := rest }

/-- R205. -/
def Obligations.ReservedOpReportsIllegalCommand : Prop :=
  ∀ (s : State) (v : Len) (rest : List HostMove), s.host = .wrReg 0 v :: rest → s.status.busy = false →
    v.toNat % 16 ≠ 1 → v.toNat % 16 ≠ 2 →
    ∃ t, step s = .next t ∧ t.status = { busy := false, done := true, err := 7, stage := 0 } ∧ t.outLen = 0 ∧
      t.inLen = s.inLen ∧ t.ibuf = s.ibuf ∧ t.ibufSeed = s.ibufSeed ∧
      (∀ a, t.obufByte a = Config.freeObuf s.draws a) ∧ t.caps = s.caps ∧ t.host = rest ∧ t.rdata = s.rdata

/-- R195, R204: COMPRESS and DECOMPRESS start when the block is idle, with STATUS and OUT_LEN as R195 says, the
operands as they stand and OBUF unspecified; while BUSY = 1 they change nothing. -/
def Obligations.CommandsStartWhenIdle : Prop :=
  ∀ (s : State) (i : Instr) (op : Command) (c : BitVec 4),
    ((i = .compress ∧ op = .compress ∧ c = 1#4) ∨ (i = .decompress ∧ op = .decompress ∧ c = 7#4)) →
    (s.status.busy = true → exec i s = .next s) ∧
    (s.status.busy = false → ∃ t, exec i s = .next t ∧
      t.status = { busy := true, done := false, err := 0, stage := c } ∧ t.outLen = 0 ∧
      t.priv = { s.priv with op := op } ∧ t.inLen = s.inLen ∧ t.ibuf = s.ibuf ∧ t.ibufSeed = s.ibufSeed ∧
      t.input = s.input ∧ (∀ a, t.obufByte a = Config.freeObuf s.draws a) ∧
      t.caps = s.caps ∧ t.hidden = s.hidden ∧ t.host = s.host ∧ t.rdata = s.rdata)

/-- R22, R23, R203 and, for the reads R245 forbids (OUT_LEN, OBUF and IBUF with BUSY = 1, OBUF at or above OUT_LEN),
the model's choice of log 8, a free value: what the host reads. While BUSY = 0 a read of OUT_LEN delivers its value,
before any command has ended too (R69). A read changes nothing but the
value delivered (and, for a free value, the draw counter); writes of STATUS and OUT_LEN are ignored. -/
def Obligations.HostReadsDeliverTheirValue : Prop :=
  ∀ (s : State) (rest : List HostMove),
    (s.host = .rdReg 0 :: rest → step s = .next { s with host := rest, rdata := 0 }) ∧
    (s.host = .rdReg 1 :: rest → s.status.busy = false →
      step s = .next { s with host := rest, rdata := s.status.word.setWidth 40 }) ∧
    (s.host = .rdReg 2 :: rest → step s = .next { s with host := rest, rdata := s.inLen.setWidth 40 }) ∧
    (s.host = .rdReg 3 :: rest → s.status.busy = false → step s = .next { s with host := rest, rdata := s.outLen }) ∧
    (∀ a, s.host = .rdIbuf a :: rest → a < s.inCap → s.status.busy = false →
      step s = .next { s with host := rest, rdata := (s.ibufByte a).setWidth 40 }) ∧
    (∀ a, s.host = .rdObuf a :: rest → a < s.outCap → s.status.busy = false → a < s.outLen.toNat →
      step s = .next { s with host := rest, rdata := (s.obufByte a).setWidth 40 }) ∧
    (s.host = .rdReg 3 :: rest → s.status.busy = true →
      step s = .next { s with host := rest, rdata := Config.freeRead s.draws, draws := s.draws + 1 }) ∧
    (∀ a, s.host = .rdIbuf a :: rest → a < s.inCap → s.status.busy = true →
      step s = .next { s with host := rest, rdata := Config.freeRead s.draws, draws := s.draws + 1 }) ∧
    (∀ a, s.host = .rdObuf a :: rest → a < s.outCap → s.status.busy = true ∨ s.outLen.toNat ≤ a →
      step s = .next { s with host := rest, rdata := Config.freeRead s.draws, draws := s.draws + 1 }) ∧
    (∀ n v, s.host = .wrReg n v :: rest → n = 1 ∨ n = 3 → step s = .next { s with host := rest })

/-- R211: a STATUS read while a command runs returns BUSY 1, DONE 0, ERR 0 and the code of one of its stages. -/
def Obligations.StatusReadWhileBusyShowsAStage : Prop :=
  ∀ (s : State) (rest : List HostMove), s.RegsOk → s.status.busy = true → s.host = .rdReg 1 :: rest →
    ∃ c : BitVec 4, c ∈ s.priv.op.stages ∧
      step s = .next { s with
        host := rest, rdata := BitVec.ofNat 40 (1 + 256 * c.toNat), draws := s.draws + 1 }

/-- R22, R245 (U6, U7, U9), log 16: which moves are refused, and under which name: a register number above 3; an
IN_LEN value, a LOAD or a MOVE above IN_CAP; a buffer offset at or above its capacity; a write of IBUF or IN_LEN or a
LOAD while BUSY = 1; a MOVE while BUSY = 1. In particular every move that is not well formed is refused. The reads
R245 forbids are not among them: they complete (log 8, `HostReadsDeliverTheirValue`). -/
def Obligations.ListedHostMovesAreRefusedByName : Prop :=
  ∀ (s : State) (rest : List HostMove),
    (∀ n v, s.host = .wrReg n v :: rest → 4 ≤ n → step s = .refused .noSuchRegister) ∧
    (∀ n, s.host = .rdReg n :: rest → 4 ≤ n → step s = .refused .noSuchRegister) ∧
    (∀ v, s.host = .wrReg 2 v :: rest → s.status.busy = true → step s = .refused .busyWrite) ∧
    (∀ v, s.host = .wrReg 2 v :: rest → s.status.busy = false → s.inCap < v.toNat →
      step s = .refused .aboveCapacity) ∧
    (∀ a b, s.host = .wrIbuf a b :: rest → s.inCap ≤ a → step s = .refused .offsetRange) ∧
    (∀ a b, s.host = .wrIbuf a b :: rest → a < s.inCap → s.status.busy = true → step s = .refused .busyWrite) ∧
    (∀ a, s.host = .rdIbuf a :: rest → s.inCap ≤ a → step s = .refused .offsetRange) ∧
    (∀ a, s.host = .rdObuf a :: rest → s.outCap ≤ a → step s = .refused .offsetRange) ∧
    (∀ bs, s.host = .load bs :: rest → s.inCap < bs.length → step s = .refused .aboveCapacity) ∧
    (∀ bs, s.host = .load bs :: rest → bs.length ≤ s.inCap → s.status.busy = true →
      step s = .refused .busyWrite) ∧
    (s.host = .move :: rest → s.status.busy = true → step s = .refused .noResult) ∧
    (s.host = .move :: rest → s.status.busy = false → s.inCap < s.outLen.toNat →
      step s = .refused .aboveCapacity) ∧
    (∀ m, s.host = m :: rest → m.wf s.caps = false → ∃ r, step s = .refused r)

/-- While the block is idle every well-formed move answers a next state: the moves R203 and R69 admit; and, by the model's
choice, the reads of OBUF at or above OUT_LEN (log 8), the moves wait and pass (log 9), and MOVE where the result fits
IBUF (R92, log 21). -/
def Obligations.WellFormedMovesCompleteWhenIdle : Prop :=
  ∀ (s : State) (m : HostMove) (rest : List HostMove), s.host = m :: rest → s.status.busy = false →
    m.wf s.caps = true → (m = .move → s.outLen.toNat ≤ s.inCap) →
    ∃ t, step s = .next t

/-- R25, R203: a host write of IN_LEN while BUSY = 0, of a value at most IN_CAP, stores the value and changes nothing
else. The value a host write carries is 40 bits wide (log 24). -/
def Obligations.InLenWriteStoresItsValue : Prop :=
  ∀ (s : State) (v : Len) (rest : List HostMove), s.host = .wrReg 2 v :: rest → s.status.busy = false →
    v.toNat ≤ s.inCap →
    ∃ w : Word, w.toNat = v.toNat ∧ step s = .next { s with host := rest, inLen := w }

/-- R28, R15: a byte the host writes to IBUF is the byte held there, and every other byte and item stays. -/
def Obligations.IbufWriteStoresItsByte : Prop :=
  ∀ (s : State) (a : Nat) (b : Byte) (rest : List HostMove), s.host = .wrIbuf a b :: rest →
    s.status.busy = false → a < s.inCap →
    ∃ m, step s = .next { s with host := rest, ibuf := m } ∧
      (State.ibufByte { s with ibuf := m } a = b) ∧
      (∀ k, k ≠ a → State.ibufByte { s with ibuf := m } k = s.ibufByte k)

/-- R92: LOAD is the single-byte writes of its bytes from offset 0 and the write of IN_LEN. -/
def Obligations.LoadIsTheWritesOfItsBytes : Prop :=
  ∀ (s : State) (bs : List Byte), s.status.busy = false → Memory.wf s.ibuf → bs.length ≤ s.inCap →
    runScript (bs.length + 1)
        (bs.mapIdx (fun a b => HostMove.wrIbuf a b) ++ [.wrReg 2 (BitVec.ofNat 40 bs.length)]) s
      = runScript 1 [.load bs] s

/-- R92: MOVE makes the last result the next input, byte for byte; before any command has ended the result is the
empty one. -/
def Obligations.MoveMakesTheResultTheInput : Prop :=
  ∀ (s : State) (rest : List HostMove), s.host = .move :: rest → s.status.busy = false → s.outLen.toNat ≤ s.inCap →
    ∃ t, step s = .next t ∧ t.input = s.output ∧ t.inLen.toNat = s.outLen.toNat ∧
      (∀ a, s.outLen.toNat ≤ a → t.ibufByte a = s.ibufByte a) ∧
      t.status = s.status ∧ t.outLen = s.outLen ∧ t.output = s.output ∧ t.priv = s.priv ∧ t.caps = s.caps ∧
      t.host = rest

/-! ### COUNT and BUILD -/

/-- R100 with its frame: COUNT writes FREQ and nothing else, and no counter wraps (R103). -/
def Obligations.CountCountsEveryByteValue : Prop :=
  ∀ s : State, s.inLen.toNat ≤ s.inCap →
    ∃ f, exec .count s = .next { s with priv := { s.priv with freq := f } } ∧
      ∀ b : Byte, (f.at b).toNat = s.input.count b

/-- R101: the counters sum to IN_LEN, are non-zero exactly for the bytes that occur, and do not depend on the tree
or on anything else the engine holds; IBUF and IN_LEN stay. -/
def Obligations.CountedTableMatchesTheInput : Prop :=
  ∀ s t : State, exec .count s = .next t →
    counterSum t.priv.freq = s.inLen.toNat ∧ (∀ b : Byte, t.priv.freq.at b ≠ 0 ↔ b ∈ s.input) ∧
      (∀ p u, exec .count { s with priv := p } = .next u → u.priv.freq = t.priv.freq) ∧
      t.ibuf = s.ibuf ∧ t.ibufSeed = s.ibufSeed ∧ t.inLen = s.inLen

/-- R112: `minkey` is the element with the smallest (weight, index), and there is one in every non-empty set. -/
def Obligations.MinkeyIsTheLeastKey : Prop :=
  ∀ (node : List Node) (live : List Nat),
    (live ≠ [] → ∃ a, minkey node live = some a) ∧
    ∀ a, minkey node live = some a ↔
      a ∈ live ∧ ∀ i ∈ live, i ≠ a →
        nodeWeight node a < nodeWeight node i ∨ (nodeWeight node a = nodeWeight node i ∧ a < i)

/-- R110 with the frame of BUILD: BUILD writes the tree and nothing else; the first k records are the leaves of the
k non-zero counters in ascending order of byte value, and no other record is a leaf. -/
def Obligations.BuildMakesOneLeafPerCounter : Prop :=
  ∀ s : State, ∃ t, exec .build s = .next { s with priv := { s.priv with tree := t } } ∧
    ∃ syms : List Byte, syms.length = leafCount s.priv.freq ∧ syms.length ≤ 256 ∧
      syms.Pairwise (fun a b => a.toNat < b.toNat) ∧ (∀ b, b ∈ syms ↔ s.priv.freq.at b ≠ 0) ∧
      (∀ (i : Nat) (b : Byte), syms[i]? = some b → t.node[i]? = some (.leaf b (s.priv.freq.at b).toNat)) ∧
      (∀ (i : Nat) (n : Node), syms.length ≤ i → t.node[i]? = some n → ∃ (w l r : Nat), n = .int w l r)

/-- R118 for k >= 1 leaves: NN = 2k - 1 <= 511, ROOT = NN - 1, children below their parent and distinct, every
other node the child of exactly one node, every node reachable from ROOT, no leaf deeper than k - 1. -/
def Obligations.BuildMakesAStrictBinaryTree : Prop :=
  ∀ s t : State, exec .build s = .next t → 1 ≤ leafCount s.priv.freq →
    t.priv.tree.nn = 2 * leafCount s.priv.freq - 1 ∧ t.priv.tree.node.length = t.priv.tree.nn ∧
    t.priv.tree.nn ≤ 511 ∧ t.priv.tree.root = some (t.priv.tree.nn - 1) ∧
    t.priv.tree.live = [t.priv.tree.nn - 1] ∧
    (∀ (i w l r : Nat), t.priv.tree.node[i]? = some (Node.int w l r) → l < i ∧ r < i ∧ l ≠ r) ∧
    (∀ i : Nat, i < t.priv.tree.nn - 1 →
      ∃ n : Nat, (∃ (w l r : Nat), t.priv.tree.node[n]? = some (Node.int w l r) ∧ (l = i ∨ r = i)) ∧
        ∀ (m w l r : Nat), t.priv.tree.node[m]? = some (Node.int w l r) → (l = i ∨ r = i) → m = n) ∧
    (∀ i, i < t.priv.tree.nn → ∃ q, follow t.priv.tree.node (t.priv.tree.nn - 1) q = some i) ∧
    (∀ q b, t.priv.tree.PathTo q b → q.length ≤ leafCount s.priv.freq - 1)

/-- R119 (with R111): an internal node weighs the sum of its children, ROOT the sum of all counters, every weight
is at least 1 and below 2^40, and internal nodes are created in non-decreasing weight order. -/
def Obligations.BuildWeightsAddUpAndFit : Prop :=
  ∀ s t : State, exec .build s = .next t →
    (∀ (i w l r : Nat), t.priv.tree.node[i]? = some (Node.int w l r) →
      w = nodeWeight t.priv.tree.node l + nodeWeight t.priv.tree.node r) ∧
    (∀ r, t.priv.tree.root = some r → nodeWeight t.priv.tree.node r = counterSum s.priv.freq) ∧
    (∀ n ∈ t.priv.tree.node, 1 ≤ n.weight ∧ n.weight < 2 ^ 40) ∧
    (∀ (i j w l r w' l' r' : Nat), i < j → t.priv.tree.node[i]? = some (Node.int w l r) →
      t.priv.tree.node[j]? = some (Node.int w' l' r') → w ≤ w')

/-- R114: the left child of every internal node comes before the right child in the order of R112. -/
def Obligations.LeftChildIsTheLowerKey : Prop :=
  ∀ s t : State, exec .build s = .next t →
    ∀ (i w l r : Nat), t.priv.tree.node[i]? = some (Node.int w l r) →
      nodeWeight t.priv.tree.node l < nodeWeight t.priv.tree.node r ∨
        (nodeWeight t.priv.tree.node l = nodeWeight t.priv.tree.node r ∧ l < r)

/-- R115, R116: no counter, no tree; one counter, one leaf and ROOT_IS_LEAF, which holds in this case only. -/
def Obligations.EmptyAndSingleLeafTrees : Prop :=
  ∀ s t : State, exec .build s = .next t →
    (leafCount s.priv.freq = 0 → t.priv.tree.nn = 0 ∧ t.priv.tree.node = [] ∧ t.priv.tree.root = none) ∧
    (leafCount s.priv.freq = 1 → ∃ b, s.priv.freq.at b ≠ 0 ∧ t.priv.tree.nn = 1 ∧
      t.priv.tree.node = [.leaf b (s.priv.freq.at b).toNat] ∧ t.priv.tree.root = some 0) ∧
    (t.priv.tree.rootIsLeaf = true ↔ leafCount s.priv.freq = 1) ∧
    (t.priv.tree.isEmpty = true ↔ leafCount s.priv.freq = 0)

/-- R122: the two-queue builder makes the records and the root BUILD makes, for every table. -/
def Obligations.TwoQueueBuilderAgrees : Prop :=
  ∀ f : Table Word, queueBuild f = ((buildTree f).node, (buildTree f).root)

/-! ### DERIVE and ENCODE -/

/-- R130, R131, R132 with the frame of DERIVE: on every tree the walks stay inside DERIVE completes and writes
CODE alone: no valid entry without a tree, the code `0` for a leaf that is the root, otherwise a code for exactly
the byte values some path leads to, and that code a path to it. -/
def Obligations.DeriveRecordsTheTreePaths : Prop :=
  ∀ s : State, s.priv.tree.Ok →
    ∃ code, exec .derive s = .next { s with priv := { s.priv with code := code } } ∧
      (s.priv.tree.root = none → ∀ b, (code.at b).valid = false) ∧
      (∀ r sym w, s.priv.tree.root = some r → s.priv.tree.node[r]? = some (.leaf sym w) →
        code.at sym = { valid := true, len := 1, bits := [false] } ∧
          ∀ b, b ≠ sym → (code.at b).valid = false) ∧
      (∀ r w x y, s.priv.tree.root = some r → s.priv.tree.node[r]? = some (.int w x y) →
        ∀ b, ((code.at b).valid = true ↔ ∃ q, s.priv.tree.PathTo q b) ∧
          ((code.at b).valid = true →
            (code.at b).len = (code.at b).bits.length ∧ s.priv.tree.PathTo (code.at b).bits b))

/-- R133 (a) to (c): the code of a built tree is valid exactly for the non-zero counters, prefix-free, and for two
or more leaves leads from ROOT to its leaf. -/
def Obligations.DerivedCodeIsUniquelyReadable : Prop :=
  ∀ s : State, s.priv.tree = buildTree s.priv.freq →
    ∃ t, exec .derive s = .next t ∧
      (∀ b, (t.priv.code.at b).valid = true ↔ s.priv.freq.at b ≠ 0) ∧
      (∀ b c, b ≠ c → (t.priv.code.at b).valid = true → (t.priv.code.at c).valid = true →
        ¬ (t.priv.code.at b).word <+: (t.priv.code.at c).word) ∧
      (2 ≤ leafCount s.priv.freq → ∀ b, (t.priv.code.at b).valid = true →
        s.priv.tree.PathTo (t.priv.code.at b).word b)

/-- R133 (d): for two or more leaves the code is complete, the sum over valid entries of 2^(-LEN) is 1. -/
def Obligations.DerivedCodeIsComplete : Prop :=
  ∀ s t : State, s.priv.tree = buildTree s.priv.freq → 2 ≤ leafCount s.priv.freq → exec .derive s = .next t →
    ((t.priv.code.toList.filter (fun e => e.valid)).map (fun e => 2 ^ (255 - e.len))).sum = 2 ^ 255

/-- R134. -/
def Obligations.CodeLengthsAreOneTo255 : Prop :=
  ∀ s t : State, s.priv.tree = buildTree s.priv.freq → exec .derive s = .next t →
    ∀ b, (t.priv.code.at b).valid = true →
      1 ≤ (t.priv.code.at b).len ∧ (t.priv.code.at b).len ≤ 255 ∧
        (t.priv.code.at b).bits.length = (t.priv.code.at b).len

/-- R140, R141 with the frame of ENCODE: BITSEQ is the concatenation of the codes of the input bytes in order and
NBITS its length, nothing else changes; UnknownByte when some byte has no code. -/
def Obligations.EncodeConcatenatesTheCodes : Prop :=
  ∀ s : State, s.inLen.toNat ≤ s.inCap →
    ((∀ b ∈ s.input, (s.priv.code.at b).valid = true) →
      exec .encode s = .next { s with priv := { s.priv with
        bitseq := s.input.flatMap fun b => (s.priv.code.at b).word
        nbits := (s.input.flatMap fun b => (s.priv.code.at b).word).length } }) ∧
    ((∃ b ∈ s.input, (s.priv.code.at b).valid = false) → s.status.stage = 4 →
      ∃ t, exec .encode s = .next t ∧ t.status = { busy := false, done := true, err := 4, stage := 4 } ∧
        t.outLen = 0 ∧ t.inLen = s.inLen ∧ t.ibuf = s.ibuf ∧ t.ibufSeed = s.ibufSeed)

/-- R143, R142: after COUNT, BUILD and DERIVE of a non-empty input ENCODE raises nothing; NBITS is the sum of counter
times code length, at least IN_LEN and at most 255 x IN_LEN (below 2^40); under a single leaf the bits are IN_LEN
zeros; IBUF, FREQ and CODE stay. -/
def Obligations.EncodedLengthIsTheWeightedSum : Prop :=
  ∀ s d : State, s.inLen.toNat ≤ s.inCap → s.inLen ≠ 0 → s.priv.freq = countBytes s.input →
    s.priv.tree = buildTree s.priv.freq → exec .derive s = .next d →
    ∃ t, exec .encode d = .next t ∧ t.status = s.status ∧
      t.priv.nbits = ((List.range 256).map fun k =>
        (s.priv.freq.at (BitVec.ofNat 8 k)).toNat * (d.priv.code.at (BitVec.ofNat 8 k)).len).sum ∧
      s.inLen.toNat ≤ t.priv.nbits ∧ t.priv.nbits ≤ 255 * s.inLen.toNat ∧ t.priv.nbits < 2 ^ 40 ∧
      t.priv.bitseq.length = t.priv.nbits ∧
      (leafCount s.priv.freq = 1 → t.priv.bitseq = List.replicate s.inLen.toNat false) ∧
      t.ibuf = s.ibuf ∧ t.ibufSeed = s.ibufSeed ∧ t.priv.freq = s.priv.freq ∧ t.priv.code = d.priv.code

/-! ### PACK and UNPACK -/

/-- R151, R152, with R150 and the frame of PACK, for an NBITS that is the length of BITSEQ (R35): bit m of the sequence
is bit 7 - m mod 8 of PAY[m div 8], filler bits are 0, and PLEN and PAD are the rule's. -/
def Obligations.PackPutsEachBitInItsPlace : Prop :=
  ∀ s : State, s.priv.nbits = s.priv.bitseq.length → ∃ pay plen pad,
    exec .pack s = .next { s with priv := { s.priv with pay := pay, plen := plen, pad := pad } } ∧
      plen = (s.priv.nbits + 7) / 8 ∧ pad.toNat = (8 - s.priv.nbits % 8) % 8 ∧
      8 * plen - pad.toNat = s.priv.nbits ∧ (pad = 0 ↔ s.priv.nbits % 8 = 0) ∧ pay.length = plen ∧
      ∀ m, m < 8 * plen →
        (pay.getD (m / 8) 0).getLsbD (7 - m % 8) = (decide (m < s.priv.nbits) && s.priv.bitseq.getD m false)

/-- R155, R156 with the frame of UNPACK: NBITS = 8 x PLEN - PAD and bit m is bit 7 - m mod 8 of PAY[m div 8];
TruncatedStream, with STAGE 8, exactly when 8 x PLEN < PAD, which means an empty payload. -/
def Obligations.UnpackExpandsThePayload : Prop :=
  ∀ s : State, s.priv.plen = s.priv.pay.length →
    (s.priv.pad.toNat ≤ 8 * s.priv.plen → ∃ q,
      exec .unpack s = .next { s with priv := { s.priv with
        nbits := 8 * s.priv.plen - s.priv.pad.toNat, bitseq := q } } ∧
      q.length = 8 * s.priv.plen - s.priv.pad.toNat ∧
      ∀ m, m < q.length → q[m]? = some ((s.priv.pay.getD (m / 8) 0).getLsbD (7 - m % 8))) ∧
    (8 * s.priv.plen < s.priv.pad.toNat → s.status.stage = 8 → s.priv.plen = 0 ∧
      ∃ t, exec .unpack s = .next t ∧ t.status = { busy := false, done := true, err := 3, stage := 8 } ∧
        t.outLen = 0 ∧ t.inLen = s.inLen ∧ t.ibuf = s.ibuf ∧ t.ibufSeed = s.ibufSeed)

/-- R157: payloads that agree on all but the filler bits unpack to the same sequence. -/
def Obligations.FillerBitsAreIgnored : Prop :=
  ∀ (s t : State) (pay : List Byte), pay.length = s.priv.pay.length → s.priv.plen = s.priv.pay.length →
    (∀ m, m < 8 * s.priv.plen - s.priv.pad.toNat →
      (pay.getD (m / 8) 0).getLsbD (7 - m % 8) = (s.priv.pay.getD (m / 8) 0).getLsbD (7 - m % 8)) →
    s.priv.pad.toNat ≤ 8 * s.priv.plen → exec .unpack s = .next t →
    ∃ u, exec .unpack { s with priv := { s.priv with pay := pay } } = .next u ∧
      u.priv.bitseq = t.priv.bitseq ∧ u.priv.nbits = t.priv.nbits

/-- R159: UNPACK undoes PACK, and PACK undoes UNPACK but for the filler bits, which become 0. -/
def Obligations.PackAndUnpackAreInverse : Prop :=
  (∀ s : State, s.priv.nbits = s.priv.bitseq.length →
    ∃ t u, exec .pack s = .next t ∧ exec .unpack t = .next u ∧ u.status = s.status ∧
      u.priv.bitseq = s.priv.bitseq ∧ u.priv.nbits = s.priv.nbits) ∧
  (∀ s : State, s.priv.plen = s.priv.pay.length → s.priv.pad.toNat ≤ 8 * s.priv.plen →
    ∃ t u, exec .unpack s = .next t ∧ exec .pack t = .next u ∧ u.priv.plen = s.priv.plen ∧ u.priv.pad = s.priv.pad ∧
      ∀ m, m < 8 * s.priv.plen →
        (u.priv.pay.getD (m / 8) 0).getLsbD (7 - m % 8) =
          (decide (m < 8 * s.priv.plen - s.priv.pad.toNat) &&
            (s.priv.pay.getD (m / 8) 0).getLsbD (7 - m % 8)))

/-- R153, R158: the streaming BitPacker gives exactly the PAY, PLEN and PAD of PACK, the streaming BitReader
exactly the BITSEQ of UNPACK. -/
def Obligations.StreamingFormsAgree : Prop :=
  (∀ s : State, s.priv.nbits = s.priv.bitseq.length →
    exec .pack s = .next { s with priv := { s.priv with
      pay := (streamPack s.priv.bitseq).1
      plen := (streamPack s.priv.bitseq).1.length
      pad := (streamPack s.priv.bitseq).2 } }) ∧
  (∀ s : State, s.priv.plen = s.priv.pay.length → s.priv.pad.toNat ≤ 8 * s.priv.plen →
    exec .unpack s = .next { s with priv := { s.priv with
      nbits := 8 * s.priv.plen - s.priv.pad.toNat
      bitseq := streamUnpack s.priv.pay s.priv.pad } })

/-! ### SERIALIZE and PARSE -/

/-- R165, R166, R62 with the frame of SERIALIZE: counter bytes big-endian at 4s .. 4s+3, the padding count at 1024,
PAY from 1025, CLEN = 1025 + PLEN; every other byte of OBUF as before. -/
def Obligations.SerializeWritesTheContainer : Prop :=
  ∀ s : State, s.priv.plen = s.priv.pay.length → 1025 + s.priv.plen ≤ s.outCap →
    ∃ m, exec .serialize s = .next { s with obuf := m, priv := { s.priv with clen := 1025 + s.priv.plen } } ∧
      (∀ b : Byte,
        (State.obufByte { s with obuf := m } (4 * b.toNat)).toNat = (s.priv.freq.at b).toNat / 2 ^ 24 ∧
        (State.obufByte { s with obuf := m } (4 * b.toNat + 1)).toNat = (s.priv.freq.at b).toNat / 2 ^ 16 % 256 ∧
        (State.obufByte { s with obuf := m } (4 * b.toNat + 2)).toNat = (s.priv.freq.at b).toNat / 2 ^ 8 % 256 ∧
        (State.obufByte { s with obuf := m } (4 * b.toNat + 3)).toNat = (s.priv.freq.at b).toNat % 256) ∧
      (State.obufByte { s with obuf := m } 1024).toNat = s.priv.pad.toNat ∧
      (∀ j, j < s.priv.plen → State.obufByte { s with obuf := m } (1025 + j) = s.priv.pay.getD j 0) ∧
      (∀ a, 1025 + s.priv.plen ≤ a → State.obufByte { s with obuf := m } a = s.obufByte a)

/-- R170, R171 with the frame of PARSE, where no fault is raised: the counters, PAD, PLEN and PAY of the container;
nothing else changes. -/
def Obligations.ParseReadsTheContainer : Prop :=
  ∀ s : State, 1025 ≤ s.inLen.toNat → s.inLen.toNat ≤ s.inCap → (s.ibufByte 1024).toNat ≤ 7 →
    ∃ f pad pay, exec .parse s = .next { s with priv := { s.priv with
        freq := f, pad := pad, plen := s.inLen.toNat - 1025, pay := pay } } ∧
      (∀ b : Byte, (f.at b).toNat =
        (s.ibufByte (4 * b.toNat)).toNat * 2 ^ 24 + (s.ibufByte (4 * b.toNat + 1)).toNat * 2 ^ 16 +
          (s.ibufByte (4 * b.toNat + 2)).toNat * 2 ^ 8 + (s.ibufByte (4 * b.toNat + 3)).toNat) ∧
      pad.toNat = (s.ibufByte 1024).toNat ∧ pay.length = s.inLen.toNat - 1025 ∧
      ∀ j, j < pay.length → pay[j]? = some (s.ibufByte (1025 + j))

/-- R173: the two causes of MalformedContainer in PARSE, the length tested first and without reading IBUF. -/
def Obligations.ParseRaisesMalformedContainer : Prop :=
  ∀ s : State, s.status.stage = 7 →
    (s.inLen.toNat < 1025 ∨ (s.inLen.toNat ≤ s.inCap ∧ 7 < (s.ibufByte 1024).toNat)) →
    ∃ t, exec .parse s = .next t ∧ t.status = { busy := false, done := true, err := 2, stage := 7 } ∧
      t.outLen = 0 ∧ t.inLen = s.inLen ∧ t.ibuf = s.ibuf ∧ t.ibufSeed = s.ibufSeed

/-- R175: PARSE of the container SERIALIZE wrote gives back FREQ, PAD, PAY and PLEN. -/
def Obligations.ParseInvertsSerialize : Prop :=
  ∀ s t u : State, s.priv.plen = s.priv.pay.length → exec .serialize s = .next t →
    u.inLen.toNat = t.priv.clen → u.inLen.toNat ≤ u.inCap →
    (∀ a, a < t.priv.clen → u.ibufByte a = t.obufByte a) →
    ∃ v, exec .parse u = .next v ∧ v.status = u.status ∧ v.priv.freq = s.priv.freq ∧ v.priv.pad = s.priv.pad ∧
      v.priv.pay = s.priv.pay ∧ v.priv.plen = s.priv.plen

/-! ### DECODE -/

/-- R180, R183, R184 with the frame of DECODE, for a tree with an internal root: a bit sequence that is a
concatenation of root-to-leaf paths is decoded to their byte values (the empty one included); any other raises
TruncatedStream and publishes nothing. -/
def Obligations.DecodeFollowsTheTree : Prop :=
  ∀ (s : State) (r w x y : Nat), s.priv.tree.Ok → s.priv.tree.root = some r →
    s.priv.tree.node[r]? = some (.int w x y) → s.priv.nbits = s.priv.bitseq.length → s.priv.nbits ≤ s.outCap →
    (∀ out, s.priv.tree.Spells s.priv.bitseq out →
      ∃ m, exec .decode s = .next { s with
          obuf := m, priv := { s.priv with cur := r, ocnt := out.length, dlen := out.length } } ∧
        out.length ≤ s.priv.nbits ∧
        (∀ j, j < out.length → State.obufByte { s with obuf := m } j = out.getD j 0) ∧
        (∀ a, out.length ≤ a → State.obufByte { s with obuf := m } a = s.obufByte a)) ∧
    ((∀ out, ¬ s.priv.tree.Spells s.priv.bitseq out) → s.status.stage = 9 →
      ∃ t, exec .decode s = .next t ∧ t.status = { busy := false, done := true, err := 3, stage := 9 } ∧
        t.outLen = 0 ∧ t.inLen = s.inLen ∧ t.ibuf = s.ibuf ∧ t.ibufSeed = s.ibufSeed)

/-- R181 with the frame of DECODE, for a tree whose root is a leaf: one copy of its byte value per bit 0; the first
bit 1 raises MalformedContainer. -/
def Obligations.SingleLeafDecodeCountsZeros : Prop :=
  ∀ (s : State) (r w : Nat) (sym : Byte), s.priv.tree.root = some r →
    s.priv.tree.node[r]? = some (.leaf sym w) → s.priv.nbits = s.priv.bitseq.length → s.priv.nbits ≤ s.outCap →
    (true ∉ s.priv.bitseq →
      ∃ m, exec .decode s = .next { s with
          obuf := m, priv := { s.priv with cur := r, ocnt := s.priv.nbits, dlen := s.priv.nbits } } ∧
        (∀ j, j < s.priv.nbits → State.obufByte { s with obuf := m } j = sym) ∧
        (∀ a, s.priv.nbits ≤ a → State.obufByte { s with obuf := m } a = s.obufByte a)) ∧
    (true ∈ s.priv.bitseq → s.status.stage = 9 →
      ∃ t, exec .decode s = .next t ∧ t.status = { busy := false, done := true, err := 2, stage := 9 } ∧
        t.outLen = 0 ∧ t.inLen = s.inLen ∧ t.ibuf = s.ibuf ∧ t.ibufSeed = s.ibufSeed)

/-- R182: DECODE without a tree emits nothing; a DECOMPRESS whose table is all zero ends after BUILD, successfully
and with OUT_LEN 0, whatever the payload and the padding count. -/
def Obligations.EmptyTreeEndsDecompress : Prop :=
  (∀ s : State, s.priv.tree.root = none →
    exec .decode s = .next { s with priv := { s.priv with ocnt := 0, dlen := 0 } }) ∧
  (∀ s : State, s.RegsOk → s.host = [] → s.status.busy = true → s.status.stage = 2 → s.priv.op = .decompress →
    leafCount s.priv.freq = 0 →
    ∃ t, step s = .next t ∧ t.status = Status.success ∧ t.outLen = 0 ∧ t.inLen = s.inLen ∧ t.ibuf = s.ibuf)

/-- R133 (c), R185 (e): DECODE with the tree undoes concatenation of the codes DERIVE makes from the same tree, a
single-leaf tree included. -/
def Obligations.DecodeInvertsEncode : Prop :=
  ∀ (s d : State) (bs : List Byte), s.priv.tree = buildTree s.priv.freq → exec .derive s = .next d →
    (∀ b ∈ bs, s.priv.freq.at b ≠ 0) → s.priv.bitseq = bs.flatMap (fun b => (d.priv.code.at b).word) →
    s.priv.nbits = s.priv.bitseq.length → s.priv.nbits ≤ s.outCap → 1 ≤ leafCount s.priv.freq →
    ∃ t, exec .decode s = .next t ∧ t.status = s.status ∧ t.priv.dlen = bs.length ∧ t.priv.ocnt = bs.length ∧
      ∀ j, j < bs.length → t.obufByte j = bs.getD j 0

/-! ### Faults, the sequencer, frames -/

/-- R222: what `raise K` leaves, for the four kinds of the source. -/
def Obligations.RaiseLeavesOnlyTheReport : Prop :=
  ∀ (s : State) (k : ErrorKind), k ≠ .illegalCommand →
    (s.raise k).status = { busy := false, done := true, err := k.code, stage := s.status.stage } ∧
    (s.raise k).outLen = 0 ∧ (s.raise k).inLen = s.inLen ∧ (∀ a, (s.raise k).ibufByte a = s.ibufByte a) ∧
    (∀ a, (s.raise k).obufByte a = Config.freeObuf s.draws a) ∧
    (s.raise k).priv = Config.freePrivate (s.draws + 1) ∧ (s.raise k).output = [] ∧
    (k = .emptyInput → k.code = 1) ∧ (k = .malformedContainer → k.code = 2) ∧
    (k = .truncatedStream → k.code = 3) ∧ (k = .unknownByte → k.code = 4)

/-- R102: with IN_LEN = 0 COUNT raises nothing and leaves an all-zero table; EmptyInput is raised right after it,
with STAGE the COUNT code. -/
def Obligations.EmptyInputIsReportedAfterCount : Prop :=
  ∀ s : State, s.host = [] → s.status.busy = true → s.status.stage = 1 → s.inLen = 0 →
    (∃ c, exec .count s.stirHidden = .next c ∧ c.status = s.status ∧ ∀ b, c.priv.freq.at b = 0) ∧
    ∃ t, step s = .next t ∧ t.status = { busy := false, done := true, err := 1, stage := 1 } ∧ t.outLen = 0 ∧
      t.ibuf = s.ibuf ∧ t.inLen = 0

/-- R196, R200: a step of a running command that does not end it goes to the next stage of the command's list, and
one that ends it with no error was at the last stage, or at BUILD of a DECOMPRESS with no tree. -/
def Obligations.StagesRunInTheCommandOrder : Prop :=
  ∀ s t : State, s.RegsOk → s.host = [] → s.status.busy = true → step s = .next t →
    (t.status.busy = true → t.priv.op = s.priv.op ∧
      ∃ j : Nat, s.priv.op.stages[j]? = some s.status.stage ∧ s.priv.op.stages[j + 1]? = some t.status.stage) ∧
    (t.status.busy = false → t.status.done = true ∧
      (t.status.err = 0 → t.status.stage = 0 ∧
        (s.priv.op.stages.getLast? = some s.status.stage ∨
          (s.status.stage = 2 ∧ s.priv.op = .decompress ∧ leafCount s.priv.freq = 0))) ∧
      (t.status.err ≠ 0 → t.status.stage = s.status.stage ∧ t.outLen = 0))

/-- R25, R28, R69: no engine step writes IBUF or IN_LEN, nor the capacities, the host's script or what the host
read. -/
def Obligations.EngineNeverWritesHostState : Prop :=
  ∀ s t : State, engineStep s = .next t →
    t.ibuf = s.ibuf ∧ t.ibufSeed = s.ibufSeed ∧ t.inLen = s.inLen ∧ t.caps = s.caps ∧ t.host = s.host ∧
      t.rdata = s.rdata ∧ t.input = s.input

/-- R30 to R37 (the items each stage writes): a stage that raises nothing changes the items of its rule and nothing
else: no stage writes IBUF, IN_LEN, the capacities or anything of the host. SERIALIZE stores the container and DECODE
the OCNT bytes emitted, both from offset 0 of OBUF; no other stage stores. -/
def Obligations.StagesWriteOnlyTheirItems : Prop :=
  ∀ (s t : State) (i : Instr), s.status.busy = true → exec i s = .next t → t.status.busy = true →
    t.status = s.status ∧ t.outLen = s.outLen ∧ t.hidden = s.hidden ∧ t.obufSeed = s.obufSeed ∧ t.draws = s.draws ∧
    t.inLen = s.inLen ∧ t.ibuf = s.ibuf ∧ t.ibufSeed = s.ibufSeed ∧ t.caps = s.caps ∧ t.host = s.host ∧
    t.rdata = s.rdata ∧
    (i = .count → t.priv = { s.priv with freq := t.priv.freq }) ∧
    (i = .build → t.priv = { s.priv with tree := t.priv.tree }) ∧
    (i = .derive → t.priv = { s.priv with code := t.priv.code }) ∧
    (i = .encode → t.priv = { s.priv with bitseq := t.priv.bitseq, nbits := t.priv.nbits }) ∧
    (i = .pack → t.priv = { s.priv with pay := t.priv.pay, plen := t.priv.plen, pad := t.priv.pad }) ∧
    (i = .serialize → t.priv = { s.priv with clen := t.priv.clen }) ∧
    (i = .parse → t.priv =
      { s.priv with freq := t.priv.freq, pad := t.priv.pad, plen := t.priv.plen, pay := t.priv.pay }) ∧
    (i = .unpack → t.priv = { s.priv with bitseq := t.priv.bitseq, nbits := t.priv.nbits }) ∧
    (i = .decode → t.priv =
      { s.priv with cur := t.priv.cur, ocnt := t.priv.ocnt, dlen := t.priv.dlen }) ∧
    (i = .compress ∨ i = .decompress → t = s) ∧
    (i ≠ .serialize → i ≠ .decode → ∀ a, t.obufByte a = s.obufByte a) ∧
    (i = .serialize → ∀ a, (containerBytes s.priv.freq s.priv.pad (s.priv.pay.take s.priv.plen)).length ≤ a →
      t.obufByte a = s.obufByte a) ∧
    (i = .decode → ∀ a, t.priv.ocnt ≤ a → t.obufByte a = s.obufByte a)

/-! ### Whole-machine statements -/

/-- R24, R216, R25, R60 and the canonical form of the buffers: every step, of the host or of the engine, keeps the
register invariant. -/
def Obligations.EveryStepKeepsTheRegistersLegal : Prop :=
  ∀ s t : State, s.RegsOk → step s = .next t → t.RegsOk

/-- R42, R43, R26, R142: every step keeps the whole invariant: what a stage reads is what the stages before it
computed from the operand of the command, and UnknownByte is never reported. -/
def Obligations.EveryStepKeepsTheRunInvariant : Prop :=
  ∀ s t : State, s.Inv → step s = .next t → t.Inv

/-- R67, R206, R207: in a state that meets the invariant no step faults: no access outside a buffer, no walk
outside the tree, no stage code that is none. -/
def Obligations.NoRunReachesAFault : Prop :=
  ∀ (s : State) (r : Fault), s.Inv → step s ≠ .fault r

/-- R207: a running command ends within six engine steps. -/
def Obligations.EveryCommandEnds : Prop :=
  ∀ s : State, s.Inv → s.status.busy = true →
    ∃ t, runScript 6 [] s = .next t ∧ t.status.busy = false ∧ t.status.done = true ∧ t.Inv

/-- R196 to R198: the outcomes of COMPRESS on an idle block: EmptyInput with STAGE 1 for the empty input, otherwise
success and the container of the input, whose bits are the codes of the tree of its counters. -/
def Obligations.CompressProducesTheContainer : Prop :=
  ∀ s : State, s.RegsOk → s.status.busy = false →
    ∃ t, runScript 8 [scriptCompress, .wait] s = .next t ∧ t.host = [] ∧ t.inLen = s.inLen ∧ t.input = s.input ∧
      (s.inLen = 0 → t.status = Status.failure .emptyInput 1 ∧ t.outLen = 0) ∧
      (s.inLen ≠ 0 → t.status = Status.success ∧
        ∃ q : Bits,
          (leafCount (countBytes s.input) = 1 → q = List.replicate s.inLen.toNat false) ∧
          (leafCount (countBytes s.input) ≠ 1 → (buildTree (countBytes s.input)).Spells q s.input) ∧
          t.outLen.toNat = 1025 + (q.length + 7) / 8 ∧
          t.output = containerBytes (countBytes s.input) (packPad q.length) (packBytes q q.length))

/-- R202: the eight outcomes of DECOMPRESS on an idle block, in the order the conditions are tested. -/
def Obligations.DecompressOutcomesAreTheEightRows : Prop :=
  ∀ s : State, s.RegsOk → s.status.busy = false →
    ∃ t, runScript 6 [scriptDecompress, .wait] s = .next t ∧ t.host = [] ∧ t.inLen = s.inLen ∧
      t.input = s.input ∧
      (if s.inLen.toNat < 1025 then t.status = Status.failure .malformedContainer 7 ∧ t.outLen = 0
      else if 7 < Container.pad s.input then t.status = Status.failure .malformedContainer 7 ∧ t.outLen = 0
      else if leafCount (Container.freq s.input) = 0 then t.status = Status.success ∧ t.outLen = 0
      else if s.inLen.toNat = 1025 ∧ 0 < Container.pad s.input then
        t.status = Status.failure .truncatedStream 8 ∧ t.outLen = 0
      else if leafCount (Container.freq s.input) = 1 then
        (if true ∈ Container.bits s.input then t.status = Status.failure .malformedContainer 9 ∧ t.outLen = 0
        else t.status = Status.success ∧
          t.outLen.toNat = 8 * (s.inLen.toNat - 1025) - Container.pad s.input ∧
          ∃ b, (Container.freq s.input).at b ≠ 0 ∧ t.output = List.replicate t.outLen.toNat b)
      else
        (∀ out, (buildTree (Container.freq s.input)).Spells (Container.bits s.input) out →
          t.status = Status.success ∧ t.outLen.toNat = out.length ∧ t.output = out) ∧
        ((∀ out, ¬ (buildTree (Container.freq s.input)).Spells (Container.bits s.input) out) →
          t.status = Status.failure .truncatedStream 9 ∧ t.outLen = 0))

/-- R210: for every non-empty input whose container fits IBUF, COMPRESS, MOVE and DECOMPRESS give the input back, and
the container between them is faithful. -/
def Obligations.RoundTripReturnsTheInput : Prop :=
  ∀ s t : State, s.RegsOk → s.status.busy = false → s.inLen ≠ 0 →
    runScript 8 [scriptCompress, .wait] s = .next t → t.outLen.toNat ≤ s.inCap →
    t.status = Status.success ∧
      ∃ u, runScript 15 scriptRoundTrip s = .next u ∧ u.host = [] ∧ u.status = Status.success ∧
        u.outLen.toNat = s.inLen.toNat ∧ u.output = s.input ∧ Container.Faithful t.output

/-- R168: the container COMPRESS makes has counters that sum to the input length, a padding count 0 .. 7, and is
parseable, decodable and faithful (R84). -/
def Obligations.ProducedContainerIsFaithful : Prop :=
  ∀ s t : State, s.RegsOk → s.status.busy = false → s.inLen ≠ 0 →
    runScript 8 [scriptCompress, .wait] s = .next t →
    counterSum (Container.freq t.output) = s.inLen.toNat ∧ Container.pad t.output ≤ 7 ∧
      Container.Faithful t.output

/-- R209, R120: two instances of the block with the same IN_LEN and input bytes, whatever their capacities, buffers,
private state, earlier results and free values, end any write of CMD with the same STATUS, OUT_LEN and output. -/
def Obligations.OutcomeDependsOnTheOperandAlone : Prop :=
  ∀ (s u : State) (v : Len), s.RegsOk → u.RegsOk → s.status.busy = false → u.status.busy = false →
    s.inLen = u.inLen → s.input = u.input →
    ∃ t w, runScript 8 [.wrReg 0 v, .wait] s = .next t ∧ runScript 8 [.wrReg 0 v, .wait] u = .next w ∧
      t.status = w.status ∧ t.status.done = true ∧ t.outLen = w.outLen ∧ t.output = w.output
end

