-- ==== Sys2Proof/Laws/Build.lean ====
section
/-! SUPPORT. The laws of the tree builder: minkey is the least key of the collection, one merge, and the induction
over the merge loop packaged once; with them, that the tree of every table keeps the walks inside it. -/

namespace Sys2Proof.Machine

/-! ### The order of the collection -/

theorem keyLt_iff (node : List Node) (i j : Nat) :
    keyLt node i j = true ↔
      nodeWeight node i < nodeWeight node j ∨ (nodeWeight node i = nodeWeight node j ∧ i < j) := by
  simp [keyLt]

theorem minkey_mem (node : List Node) (l : List Nat) (a : Nat) (h : minkey node l = some a) : a ∈ l := by
  induction l generalizing a with
  | nil => simp [minkey] at h
  | cons i l ih =>
    simp only [minkey] at h
    split at h
    · simp only [Option.some.injEq] at h; simp [h]
    · next j hj =>
      split at h <;> simp only [Option.some.injEq] at h
      · simp [h]
      · subst h; exact List.mem_cons_of_mem _ (ih _ hj)

/-- No element of the collection has a smaller key than `minkey`. -/
theorem minkey_le (node : List Node) (l : List Nat) (a : Nat) (h : minkey node l = some a) :
    ∀ i ∈ l, keyLt node i a = false := by
  have asymm : ∀ i j, keyLt node i j = true → keyLt node j i = false := by
    intro i j hij
    rw [keyLt_iff] at hij
    rw [← Bool.not_eq_true, keyLt_iff]; omega
  have trans : ∀ i j k, keyLt node i j = true → keyLt node k j = false → keyLt node k i = false := by
    intro i j k hij hkj
    rw [keyLt_iff] at hij
    rw [← Bool.not_eq_true, keyLt_iff] at hkj ⊢; omega
  have irrefl : ∀ i, keyLt node i i = false := by
    intro i
    rw [← Bool.not_eq_true, keyLt_iff]; omega
  induction l generalizing a with
  | nil => simp
  | cons i l ih =>
    simp only [minkey] at h
    split at h
    · next hn =>
      have hl : l = [] := by
        cases l with
        | nil => rfl
        | cons x l => simp only [minkey] at hn; split at hn <;> (try split at hn) <;> simp at hn
      simp only [Option.some.injEq] at h
      subst h hl
      intro x hx
      rw [List.mem_singleton.1 hx]; exact irrefl _
    · next j hj =>
      split at h <;> next hij =>
        simp only [Option.some.injEq] at h
        subst h
        intro x hx
        rcases List.mem_cons.1 hx with rfl | hx
        · first | exact irrefl _ | simpa using hij
        · first | exact trans _ _ _ hij (ih j hj x hx) | exact ih _ hj x hx

theorem minkey_eq_none (node : List Node) (l : List Nat) : minkey node l = none ↔ l = [] := by
  constructor
  · intro h
    cases l with
    | nil => rfl
    | cons x l => simp only [minkey] at h; split at h <;> (try split at h) <;> simp at h
  · rintro rfl; rfl

/-! ### One merge -/

/-- What one merge does: two nodes of LIVE, the least key and the least key of the rest, become the children of
the new node NN. -/
theorem mergeOnce_cases (t t' : Tree) (h : mergeOnce t = some t') :
    ∃ a b, minkey t.node t.live = some a ∧ minkey t.node (t.live.erase a) = some b ∧
      t' = { t with
        node := t.node ++ [.int (nodeWeight t.node a + nodeWeight t.node b) a b]
        live := (t.live.erase a).erase b ++ [t.nn]
        nn := t.nn + 1 } := by
  unfold mergeOnce at h
  split at h
  · simp at h
  · next a ha =>
    split at h
    · simp at h
    · next b hb => exact ⟨a, b, ha, hb, by simpa using h.symm⟩

/-- The merge loop stops exactly when at most one node is live. -/
theorem mergeOnce_eq_none (t : Tree) : mergeOnce t = none ↔ t.live.length ≤ 1 := by
  unfold mergeOnce
  split
  · next h => rw [minkey_eq_none] at h; simp [h]
  · next a ha =>
    have hm := minkey_mem _ _ _ ha
    have hl := List.length_erase_of_mem hm
    have hp := List.length_pos_of_mem hm
    split
    · next h => rw [minkey_eq_none] at h; rw [h] at hl; simp at hl; simp; omega
    · next b hb =>
      have := List.length_pos_of_mem (minkey_mem _ _ _ hb)
      simp; omega

/-- Each merge takes one element from LIVE. -/
theorem mergeOnce_live_length (t t' : Tree) (h : mergeOnce t = some t') :
    t'.live.length + 1 = t.live.length := by
  obtain ⟨a, b, ha, hb, rfl⟩ := mergeOnce_cases t t' h
  have h1 := minkey_mem _ _ _ ha
  have h2 := minkey_mem _ _ _ hb
  have := List.length_pos_of_mem h1
  have := List.length_pos_of_mem h2
  simp only [List.length_append, List.length_erase_of_mem h2, List.length_erase_of_mem h1, List.length_singleton]
  rw [List.length_erase_of_mem h1] at *
  omega

/-! ### The loop -/

/-- A property that every merge keeps holds of the tree the loop leaves, and with enough turns no merge is left. -/
theorem mergeLoop_induct (P : Tree → Prop) (step : ∀ t t', P t → mergeOnce t = some t' → P t') :
    ∀ fuel t, P t → t.live.length ≤ fuel + 1 →
      P (mergeLoop fuel t) ∧ (mergeLoop fuel t).live.length ≤ 1 := by
  intro fuel
  induction fuel with
  | zero => intro t hP hl; exact ⟨hP, by simpa [mergeLoop] using hl⟩
  | succ n ih =>
    intro t hP hl
    rw [mergeLoop]
    split
    · next h => exact ⟨hP, (mergeOnce_eq_none t).1 h⟩
    · next t' h =>
      have := mergeOnce_live_length t t' h
      exact ih t' (step t t' hP h) (by omega)

/-- The induction over BUILD: a property of the leaves that every merge keeps holds of the tree before ROOT is
set, and that tree has at most one live node. -/
theorem buildTree_induct (P : Tree → Prop) (f : Table Word) (leaves : P (leafTree f))
    (step : ∀ t t', P t → mergeOnce t = some t' → P t') :
    ∃ t, P t ∧ t.live.length ≤ 1 ∧ buildTree f = t.setRoot := by
  obtain ⟨h1, h2⟩ := mergeLoop_induct P step _ (leafTree f) leaves (Nat.le_succ _)
  exact ⟨_, h1, h2, rfl⟩

@[simp] theorem Tree.setRoot_node (t : Tree) : t.setRoot.node = t.node := by
  unfold Tree.setRoot; split <;> rfl
@[simp] theorem Tree.setRoot_nn (t : Tree) : t.setRoot.nn = t.nn := by
  unfold Tree.setRoot; split <;> rfl
@[simp] theorem Tree.setRoot_live (t : Tree) : t.setRoot.live = t.live := by
  unfold Tree.setRoot; split <;> rfl

/-- A property of a tree that the leaf scan keeps. -/
theorem scanLeaves_induct (P : Tree → Prop)
    (step : ∀ t s w, P t → P { t with node := t.node ++ [.leaf s w], live := t.live ++ [t.nn], nn := t.nn + 1 }) :
    ∀ fs s t, P t → P (scanLeaves fs s t) := by
  intro fs
  induction fs with
  | nil => intro s t h; exact h
  | cons f fs ih =>
    intro s t h
    rw [scanLeaves]
    split
    · exact ih _ _ h
    · exact ih _ _ (step _ _ _ h)

/-! ### The shape every tree keeps while it is built -/

/-- NN counts the records, children lie below their parent and differ, LIVE is strictly ascending and below NN,
and ROOT is not yet set. -/
structure Tree.Growing (t : Tree) : Prop where
  count : t.node.length = t.nn
  child : ∀ i w l r, t.node[i]? = some (Node.int w l r) → l < i ∧ r < i ∧ l ≠ r
  live  : t.live.Pairwise (· < ·)
  below : ∀ i ∈ t.live, i < t.nn
  root  : t.root = none

theorem leafTree_growing (f : Table Word) : (leafTree f).Growing := by
  refine scanLeaves_induct Tree.Growing (fun t s w h => ?_) _ _ _
    ⟨rfl, by simp [Tree.zero], by simp [Tree.zero], by simp [Tree.zero], rfl⟩
  refine ⟨by simp [h.count], fun i w' l r hi => ?_, ?_, fun i hi => ?_, h.root⟩
  · rw [List.getElem?_append] at hi
    split at hi
    · exact h.child i w' l r hi
    · rw [List.getElem?_singleton] at hi; split at hi <;> simp at hi
  · exact List.pairwise_append.2 ⟨h.live, by simp, by simpa using h.below⟩
  · rcases List.mem_append.1 hi with hi | hi
    · have := h.below i hi; simp; omega
    · have := List.mem_singleton.1 hi; simp; omega

theorem mergeOnce_growing (t t' : Tree) (h : t.Growing) (hm : mergeOnce t = some t') : t'.Growing := by
  obtain ⟨a, b, ha, hb, rfl⟩ := mergeOnce_cases t t' hm
  have hal := minkey_mem _ _ _ ha
  have hbl := minkey_mem _ _ _ hb
  have hnd : t.live.Nodup := h.live.imp (fun h => Nat.ne_of_lt h)
  have hba : b ≠ a := fun e => by subst e; exact (hnd.not_mem_erase) hbl
  have hbl' : b ∈ t.live := List.mem_of_mem_erase hbl
  have hsub : ∀ i ∈ (t.live.erase a).erase b, i ∈ t.live := fun i hi =>
    List.mem_of_mem_erase (List.mem_of_mem_erase hi)
  refine ⟨by simp [h.count], fun i w l r hi => ?_, ?_, fun i hi => ?_, h.root⟩
  · simp only at hi
    rw [List.getElem?_append] at hi
    split at hi
    · exact h.child i w l r hi
    · next hlen =>
      rw [List.getElem?_singleton] at hi
      split at hi
      · simp only [Option.some.injEq, Node.int.injEq] at hi
        obtain ⟨-, rfl, rfl⟩ := hi
        have := h.below _ hal; have := h.below _ hbl'
        have := h.count
        exact ⟨by omega, by omega, fun e => hba e.symm⟩
      · simp at hi
  · refine List.pairwise_append.2 ⟨(h.live.sublist (List.erase_sublist)).sublist (List.erase_sublist), by simp, ?_⟩
    intro i hi j hj
    have := h.below i (hsub i hi)
    rw [List.mem_singleton.1 hj]; exact this
  · rcases List.mem_append.1 hi with hi | hi
    · have := h.below i (hsub i hi); simp only; omega
    · have := List.mem_singleton.1 hi; simp only; omega

/-- The tree of every table is one the walks stay inside. -/
theorem buildTree_ok (f : Table Word) : (buildTree f).Ok := by
  obtain ⟨t, hg, hl, he⟩ := buildTree_induct Tree.Growing f (leafTree_growing f) mergeOnce_growing
  rw [he]
  refine ⟨by simpa using hg.count, fun i w l r hi => ?_, fun r hr => ?_⟩
  · rw [Tree.setRoot_node] at hi
    have := hg.child i w l r hi
    exact ⟨this.1, this.2.1⟩
  · unfold Tree.setRoot at hr
    split at hr
    · next x hx =>
      simp only [Option.some.injEq] at hr
      have := hg.below x (by simp [hx])
      have := hg.count
      rw [Tree.setRoot_node]; omega
    · rw [hg.root] at hr; simp at hr

end Sys2Proof.Machine
end

