-- ==== Sys2Proof/Laws/Operands.lean ====
section
/-! SUPPORT. The laws of operand assembly: big-endian counters both ways, and the bits of bytes and of packed
groups, each as one lemma about one bit. -/

namespace Sys2Proof.Machine

theorem bytesBe32_toNat (v : Word) :
    (bytesBe32 v).map BitVec.toNat =
      [v.toNat / 2 ^ 24 % 256, v.toNat / 2 ^ 16 % 256, v.toNat / 2 ^ 8 % 256, v.toNat % 256] := by
  simp [bytesBe32, BitVec.extractLsb'_toNat, Nat.shiftRight_eq_div_pow]

theorem be32_toNat (a b c d : Byte) :
    (be32 a b c d).toNat = a.toNat * 2 ^ 24 + b.toNat * 2 ^ 16 + c.toNat * 2 ^ 8 + d.toNat := by
  have := a.isLt; have := b.isLt; have := c.isLt; have := d.isLt
  rw [be32, BitVec.toNat_ofNat, Nat.mod_eq_of_lt (by omega)]

/-- A counter written big-endian and read back is the counter. -/
theorem be32_bytesBe32 (v : Word) :
    be32 (v.extractLsb' 24 8) (v.extractLsb' 16 8) (v.extractLsb' 8 8) (v.extractLsb' 0 8) = v := by
  apply BitVec.eq_of_toNat_eq
  have hv := v.isLt
  rw [be32_toNat]
  simp only [BitVec.extractLsb'_toNat, Nat.shiftRight_eq_div_pow]
  omega

@[simp] theorem length_bytesBe32 (v : Word) : (bytesBe32 v).length = 4 := rfl

@[simp] theorem length_byteBits (b : Byte) : (byteBits b).length = 8 := by simp [byteBits]

theorem byteBits_getElem? (b : Byte) (t : Nat) (h : t < 8) : (byteBits b)[t]? = some (b.getLsbD (7 - t)) := by
  simp [byteBits, h]

@[simp] theorem length_flatMap_byteBits (pay : List Byte) : (pay.flatMap byteBits).length = 8 * pay.length := by
  induction pay with
  | nil => rfl
  | cons b pay ih => simp [ih]; omega

/-- Bit m of an expanded payload is bit 7 - m mod 8 of its byte m div 8 (R63). -/
theorem flatMap_byteBits_getElem? (pay : List Byte) (m : Nat) :
    (pay.flatMap byteBits)[m]? = pay[m / 8]?.map (fun b => b.getLsbD (7 - m % 8)) := by
  induction pay generalizing m with
  | nil => simp
  | cons b pay ih =>
    rw [List.flatMap_cons]
    rcases Nat.lt_or_ge m 8 with h | h
    · rw [List.getElem?_append_left (by simpa using h), byteBits_getElem? b m h,
        Nat.div_eq_of_lt h, Nat.mod_eq_of_lt h]
      rfl
    · rw [List.getElem?_append_right (by simpa using h), length_byteBits, ih]
      obtain ⟨k, rfl⟩ := Nat.exists_eq_add_of_le h
      have h1 : (8 + k) / 8 = k / 8 + 1 := by omega
      have h2 : (8 + k) % 8 = k % 8 := by omega
      simp [h1, h2]

theorem bitAt_getLsbD (q : Bits) (n m : Nat) (k : Nat) :
    (bitAt q n m).getLsbD k = (decide (k = 0) && decide (m < n) && q.getD m false) := by
  unfold bitAt
  by_cases h : m < n ∧ q.getD m false = true
  · rw [if_pos h, h.2]; simp only [h.1, decide_true, Bool.and_true]
    rcases k with _ | k
    · rfl
    · simp [BitVec.getLsbD_one]
  · rw [if_neg h]
    by_cases hm : m < n
    · have : q.getD m false = false := by simpa [hm] using h
      rw [this]; simp
    · simp [hm]

/-- Bit t of group j of a sequence, filler 0 beyond its n bits, is bit 7 - t of byte j (R150, R152). -/
theorem packByte_getLsbD (q : Bits) (n j t : Nat) (h : t < 8) :
    (packByte q n j).getLsbD (7 - t) = (decide (8 * j + t < n) && q.getD (8 * j + t) false) := by
  have e : List.range 8 = [0, 1, 2, 3, 4, 5, 6, 7] := rfl
  simp only [packByte, e, List.foldl_cons, List.foldl_nil, BitVec.getLsbD_or, BitVec.getLsbD_shiftLeft,
    bitAt_getLsbD]
  rcases t with _ | _ | _ | _ | _ | _ | _ | _ | t
  all_goals first | omega | simp

@[simp] theorem length_packBytes (q : Bits) (n : Nat) : (packBytes q n).length = packLen n := by
  simp [packBytes]

theorem packBytes_getElem? (q : Bits) (n j : Nat) (h : j < packLen n) :
    (packBytes q n)[j]? = some (packByte q n j) := by
  simp [packBytes, h]

theorem packPad_toNat (n : Nat) : (packPad n).toNat = (8 - n % 8) % 8 := by
  rw [packPad, BitVec.toNat_ofNat, Nat.mod_eq_of_lt (by omega)]

/-- "8 x PLEN - PAD = NBITS always" (R151). -/
theorem packLen_packPad (n : Nat) : 8 * packLen n = n + (packPad n).toNat := by
  rw [packPad_toNat, packLen]; omega

@[simp] theorem length_headerBytes (f : Table Word) : (headerBytes f).length = 1024 := by
  have h : ∀ l : List Word, (l.flatMap bytesBe32).length = 4 * l.length := by
    intro l
    induction l with
    | nil => rfl
    | cons v l ih => simp [ih]; omega
  rw [headerBytes, h]; simp

@[simp] theorem length_containerBytes (f : Table Word) (pad : BitVec 3) (pay : List Byte) :
    (containerBytes f pad pay).length = 1025 + pay.length := by
  simp [containerBytes]; omega

end Sys2Proof.Machine
end

