-- ==== Sys2Proof/Laws/Table.lean ====
section
/-! SUPPORT. The laws of 256-entry tables. -/

namespace Sys2Proof

@[simp] theorem Table.at_tabulate {α : Type} (f : Nat → α) (b : Byte) : (Table.tabulate f).at b = f b.toNat := by
  simp [Table.at, Table.tabulate]

@[simp] theorem Table.at_replicate {α : Type} (v : α) (b : Byte) :
    Table.at (Vector.replicate 256 v) b = v := by
  simp [Table.at]

theorem Table.at_put {α : Type} (t : Table α) (b c : Byte) (v : α) :
    (t.put b v).at c = if b = c then v else t.at c := by
  simp only [Table.at, Table.put, Vector.getElem_set, BitVec.toNat_inj]

@[simp] theorem Table.at_put_self {α : Type} (t : Table α) (b : Byte) (v : α) : (t.put b v).at b = v := by
  simp [Table.at_put]

theorem Table.at_put_of_ne {α : Type} (t : Table α) (b c : Byte) (v : α) (h : b ≠ c) :
    (t.put b v).at c = t.at c := by
  simp [Table.at_put, h]

/-- Tables with equal entries are equal. -/
theorem Table.ext_at {α : Type} (t u : Table α) (h : ∀ b : Byte, t.at b = u.at b) : t = u := by
  apply Vector.ext
  intro i hi
  have := h (BitVec.ofNat 8 i)
  simpa [Table.at, Nat.mod_eq_of_lt hi] using this

/-- The entries of a table as a list, by index. -/
theorem Table.toList_getElem? {α : Type} (t : Table α) (b : Byte) : t.toList[b.toNat]? = some (t.at b) := by
  have h : b.toNat < t.toList.length := by simp [Vector.length_toList, b.isLt]
  rw [List.getElem?_eq_getElem h]
  simp [Table.at]

@[simp] theorem Table.length_toList {α : Type} (t : Table α) : t.toList.length = 256 := by
  simp

end Sys2Proof
end

