-- ==== Sys2Proof/Laws/Container.lean ====
section
/-! SUPPORT. What the fields of a container (R81 to R83) are for the bytes SERIALIZE writes. -/

namespace Sys2Proof.Machine

theorem flatMap_bytesBe32_getElem? (l : List Word) (k j : Nat) (hj : j < 4) :
    (l.flatMap bytesBe32)[4 * k + j]? = l[k]?.bind fun w => (bytesBe32 w)[j]? := by
  induction l generalizing k with
  | nil => simp
  | cons w l ih =>
    rw [List.flatMap_cons]
    cases k with
    | zero => rw [List.getElem?_append_left (by simp; omega)]; simp
    | succ k =>
      rw [List.getElem?_append_right (by simp; omega), length_bytesBe32, show 4 * (k + 1) + j - 4 = 4 * k + j by omega]
      simpa using ih k

/-- Byte j of counter b of a container. -/
theorem Container.byte_header (f : Table Word) (pad : BitVec 3) (pay : List Byte) (b : Byte) (j : Nat) (hj : j < 4) :
    Container.byte (containerBytes f pad pay) (4 * b.toNat + j) = (bytesBe32 (f.at b)).getD j 0 := by
  have hb := b.isLt
  rw [Container.byte, containerBytes, List.getD_eq_getElem?_getD, List.getElem?_append_left (by simp; omega),
    headerBytes, flatMap_bytesBe32_getElem? _ _ _ hj, Table.toList_getElem?]
  simp [List.getD_eq_getElem?_getD]

/-- The counters read back (R81 undoes R62). -/
@[simp] theorem Container.freq_containerBytes (f : Table Word) (pad : BitVec 3) (pay : List Byte) :
    Container.freq (containerBytes f pad pay) = f := by
  apply Table.ext_at
  intro b
  have h := Container.byte_header f pad pay b
  rw [Container.freq, Table.at_tabulate, show 4 * b.toNat = 4 * b.toNat + 0 from rfl, h 0 (by omega), h 1 (by omega),
    h 2 (by omega), h 3 (by omega)]
  exact be32_bytesBe32 (f.at b)

/-- The padding count reads back. -/
@[simp] theorem Container.pad_containerBytes (f : Table Word) (pad : BitVec 3) (pay : List Byte) :
    Container.pad (containerBytes f pad pay) = pad.toNat := by
  have hp := pad.isLt
  rw [Container.pad, Container.byte, containerBytes, List.getD_eq_getElem?_getD,
    List.getElem?_append_right (by simp), length_headerBytes]
  simp only [Nat.sub_self, List.getElem?_cons_zero, Option.getD_some, BitVec.toNat_setWidth]
  omega

/-- The logical bit sequence of a container is the payload without its filler (R83). -/
@[simp] theorem Container.bits_containerBytes (f : Table Word) (pad : BitVec 3) (pay : List Byte) :
    Container.bits (containerBytes f pad pay) = unpackBits pay (8 * pay.length - pad.toNat) := by
  have hd : (containerBytes f pad pay).drop 1025 = pay := by
    rw [containerBytes, List.drop_append, List.drop_eq_nil_of_le (by simp)]; simp
  rw [Container.bits, hd, Container.pad_containerBytes, length_containerBytes, Nat.add_sub_cancel_left]

end Sys2Proof.Machine
end

