-- ==== Sys2Proof/Laws/Derive.lean ====
section
/-! SUPPORT. The laws of the tree walks of DERIVE: on a tree the walks stay inside, `visit` ends, and the codes it
gives are exactly the paths to the leaves. -/

namespace Sys2Proof.Machine

/-- On a tree whose children lie below their parents, the walk from a node ends. -/
theorem visit_isSome (node : List Node)
    (child : ∀ i w l r, node[i]? = some (Node.int w l r) → l < i ∧ r < i) :
    ∀ fuel i path, i < fuel → i < node.length → (visit node fuel i path).isSome := by
  intro fuel
  induction fuel with
  | zero => intro i path h; omega
  | succ n ih =>
    intro i path hf hi
    rw [visit, List.getElem?_eq_getElem hi]
    cases hn : node[i] with
    | leaf s w => rfl
    | int w l r =>
      have hc := child i w l r (by rw [List.getElem?_eq_getElem hi, hn])
      obtain ⟨a, ha⟩ := Option.isSome_iff_exists.1 (ih l (path ++ [false]) (by omega) (by omega))
      obtain ⟨b, hb⟩ := Option.isSome_iff_exists.1 (ih r (path ++ [true]) (by omega) (by omega))
      simp [ha, hb]

/-- What `visit` gives: the leaves below a node, each with the path followed to it. -/
theorem visit_mem (node : List Node) :
    ∀ fuel i path cs, visit node fuel i path = some cs →
      ∀ s p, (s, p) ∈ cs ↔ ∃ q j w, p = path ++ q ∧ follow node i q = some j ∧ node[j]? = some (.leaf s w) := by
  intro fuel
  induction fuel with
  | zero => intro i path cs h; simp [visit] at h
  | succ n ih =>
    intro i path cs h s p
    rw [visit] at h
    split at h
    · simp at h
    · next sym w hn =>
      simp only [Option.some.injEq] at h
      subst h
      constructor
      · intro hm
        simp only [List.mem_singleton, Prod.mk.injEq] at hm
        obtain ⟨rfl, rfl⟩ := hm
        exact ⟨[], i, w, by simp, rfl, hn⟩
      · rintro ⟨q, j, w', rfl, hq, hj⟩
        cases q with
        | nil =>
          simp only [follow, Option.some.injEq] at hq
          subst hq
          rw [hn] at hj
          simp only [Option.some.injEq, Node.leaf.injEq] at hj
          simp [hj.1]
        | cons b q => simp [follow, hn] at hq
    · next w l r hn =>
      split at h
      · next a b ha hb =>
        simp only [Option.some.injEq] at h
        subst h
        rw [List.mem_append, ih _ _ _ ha, ih _ _ _ hb]
        constructor
        · rintro (⟨q, j, w', rfl, hq, hj⟩ | ⟨q, j, w', rfl, hq, hj⟩)
          · exact ⟨false :: q, j, w', by simp, by simpa [follow, hn] using hq, hj⟩
          · exact ⟨true :: q, j, w', by simp, by simpa [follow, hn] using hq, hj⟩
        · rintro ⟨q, j, w', rfl, hq, hj⟩
          cases q with
          | nil => simp only [follow, Option.some.injEq] at hq; subst hq; rw [hn] at hj; simp at hj
          | cons c q =>
            cases c
            · exact .inl ⟨q, j, w', by simp, by simpa [follow, hn] using hq, hj⟩
            · exact .inr ⟨q, j, w', by simp, by simpa [follow, hn] using hq, hj⟩
      · simp at h

/-- DERIVE's walk ends on every tree the walks stay inside. -/
theorem treeCodes_isSome (t : Tree) (h : t.Ok) : (treeCodes t).isSome := by
  unfold treeCodes
  split
  · rfl
  · next r hr =>
    have hlt := h.root r hr
    rw [List.getElem?_eq_getElem hlt]
    cases t.node[r] with
    | leaf s w => rfl
    | int w l r' => exact visit_isSome t.node h.child _ _ _ hlt hlt

end Sys2Proof.Machine
end

