-- ==== Sys2Proof/Laws/Memory.lean ====
section
/-! SUPPORT. The laws of the buffers: a read after a write, the canonical form kept by every write, and equal
reads making equal buffers. -/

namespace Sys2Proof.Machine

@[simp] theorem Memory.read_nil (a : Nat) : Memory.read [] a = none := rfl

@[simp] theorem Memory.read_cons (c : Host.Cell) (m : Memory) (a : Nat) :
    Memory.read (c :: m) a = if c.1 = a then some c.2 else Memory.read m a := by
  cases c; rfl

theorem Memory.read_append (m n : Memory) (a : Nat) :
    Memory.read (m ++ n) a = (Memory.read m a).or (Memory.read n a) := by
  induction m with
  | nil => simp
  | cons c m ih => by_cases h : c.1 = a <;> simp [h, ih]

/-- A filter that keeps an offset keeps what is read there; one that drops it leaves nothing to read. -/
theorem Memory.read_filter (m : Memory) (p : Nat → Bool) (a : Nat) :
    Memory.read (m.filter fun c => p c.1) a = if p a then Memory.read m a else none := by
  induction m with
  | nil => simp
  | cons c m ih =>
    by_cases hc : p c.1 <;> by_cases ha : c.1 = a <;> simp_all

theorem Memory.read_cells (a k : Nat) (bs : List Byte) :
    Memory.read (Memory.cells a bs) k = if a ≤ k then bs[k - a]? else none := by
  induction bs generalizing a with
  | nil => simp [Memory.cells]
  | cons b bs ih =>
    simp only [Memory.cells, Memory.read_cons, ih]
    by_cases h1 : a = k
    · subst h1; simp
    · by_cases h2 : a ≤ k
      · rw [if_neg h1, if_pos h2, if_pos (by omega)]
        rw [show k - a = (k - (a + 1)) + 1 by omega]; simp
      · rw [if_neg h1, if_neg h2, if_neg (by omega)]

/-- A read after a write: the byte written inside the block, what was there before everywhere else. -/
theorem Memory.read_write (m : Memory) (a k : Nat) (bs : List Byte) :
    Memory.read (Memory.write m a bs) k =
      if a ≤ k ∧ k < a + bs.length then bs[k - a]? else Memory.read m k := by
  have h1 := Memory.read_filter m (fun x => decide (x < a)) k
  have h2 := Memory.read_filter m (fun x => decide (a + bs.length ≤ x)) k
  rw [Memory.write, Memory.read_append, Memory.read_append, h1, h2, Memory.read_cells]
  rcases Nat.lt_or_ge k a with ha | ha
  · simp [ha, show ¬ a ≤ k by omega, show ¬ a + bs.length ≤ k by omega]
  · rcases Nat.lt_or_ge k (a + bs.length) with hb | hb
    · obtain ⟨b, hx⟩ : ∃ b, bs[k - a]? = some b := ⟨_, List.getElem?_eq_getElem (by omega)⟩
      simp [ha, hb, hx, show ¬ k < a by omega]
    · have hx : bs[k - a]? = none := List.getElem?_eq_none (by omega)
      simp [ha, hb, hx, show ¬ k < a by omega, show ¬ k < a + bs.length by omega]

theorem Memory.read_write_inside (m : Memory) (a k : Nat) (bs : List Byte) (h : k < bs.length) :
    Memory.read (Memory.write m a bs) (a + k) = some bs[k] := by
  rw [Memory.read_write, if_pos (by omega)]; simp [h]

theorem Memory.read_write_outside (m : Memory) (a k : Nat) (bs : List Byte) (h : k < a ∨ a + bs.length ≤ k) :
    Memory.read (Memory.write m a bs) k = Memory.read m k := by
  rw [Memory.read_write, if_neg (by omega)]

theorem Memory.mem_cells (a : Nat) (bs : List Byte) (c : Host.Cell) (h : c ∈ Memory.cells a bs) :
    a ≤ c.1 ∧ c.1 < a + bs.length := by
  induction bs generalizing a with
  | nil => simp [Memory.cells] at h
  | cons b bs ih =>
    rcases List.mem_cons.1 h with rfl | h
    · simp
    · have := ih _ h; simp only [List.length_cons]; omega

theorem Memory.wf_cells (a : Nat) (bs : List Byte) : Memory.wf (Memory.cells a bs) := by
  induction bs generalizing a with
  | nil => simp [Memory.cells]
  | cons b bs ih =>
    refine List.pairwise_cons.2 ⟨fun c hc => ?_, ih _⟩
    have := Memory.mem_cells _ _ _ hc; omega

/-- Every write keeps the canonical form. -/
theorem Memory.wf_write (m : Memory) (a : Nat) (bs : List Byte) (h : Memory.wf m) :
    Memory.wf (Memory.write m a bs) := by
  refine List.pairwise_append.2 ⟨List.pairwise_append.2 ⟨h.filter _, Memory.wf_cells _ _, ?_⟩, h.filter _, ?_⟩
  · intro c hc d hd
    have h1 := Memory.mem_cells _ _ _ hd
    have h2 := List.of_mem_filter hc
    simp only [decide_eq_true_eq] at h2; omega
  · intro c hc d hd
    have h2 := List.of_mem_filter hd
    simp only [decide_eq_true_eq] at h2
    rcases List.mem_append.1 hc with hc | hc
    · have h1 := List.of_mem_filter hc
      simp only [decide_eq_true_eq] at h1; omega
    · have h1 := Memory.mem_cells _ _ _ hc; omega

/-- A write below a bound keeps the buffer below it. -/
theorem Memory.below_write (m : Memory) (a n : Nat) (bs : List Byte) (h : Memory.below m n)
    (hb : a + bs.length ≤ n) : Memory.below (Memory.write m a bs) n := by
  intro c hc
  rcases List.mem_append.1 hc with hc | hc
  · rcases List.mem_append.1 hc with hc | hc
    · exact h c (List.mem_of_mem_filter hc)
    · have := Memory.mem_cells _ _ _ hc; omega
  · exact h c (List.mem_of_mem_filter hc)

/-- Nothing is read below the first offset of a canonical buffer. -/
theorem Memory.read_eq_none_of_lt (m : Memory) (a : Nat) (h : ∀ c ∈ m, a < c.1) : Memory.read m a = none := by
  induction m with
  | nil => rfl
  | cons c m ih =>
    have hc := h c (by simp)
    rw [Memory.read_cons, if_neg (by omega)]
    exact ih fun d hd => h d (by simp [hd])

/-- Canonical buffers that read the same everywhere are the same list. -/
theorem Memory.eq_of_read_eq (m n : Memory) (hm : Memory.wf m) (hn : Memory.wf n)
    (h : ∀ a, Memory.read m a = Memory.read n a) : m = n := by
  induction m generalizing n with
  | nil =>
    cases n with
    | nil => rfl
    | cons d n => have := h d.1; simp at this
  | cons c m ih =>
    cases n with
    | nil => have := h c.1; simp at this
    | cons d n =>
      obtain ⟨hc, hm⟩ := List.pairwise_cons.1 hm
      obtain ⟨hd, hn⟩ := List.pairwise_cons.1 hn
      have hcd : c.1 = d.1 := by
        rcases Nat.lt_trichotomy c.1 d.1 with hlt | heq | hlt
        · have := h c.1
          rw [Memory.read_cons, if_pos rfl, Memory.read_cons, if_neg (by omega),
            Memory.read_eq_none_of_lt n c.1 fun e he => by have := hd e he; omega] at this
          simp at this
        · exact heq
        · have := h d.1
          rw [Memory.read_cons, if_neg (by omega), Memory.read_cons, if_pos rfl,
            Memory.read_eq_none_of_lt m d.1 fun e he => by have := hc e he; omega] at this
          simp at this
      have hval : c.2 = d.2 := by
        have := h c.1
        simpa [hcd] using this
      have hrest : m = n := by
        refine ih n hm hn fun a => ?_
        by_cases ha : c.1 = a
        · rw [Memory.read_eq_none_of_lt m a fun e he => by have := hc e he; omega,
            Memory.read_eq_none_of_lt n a fun e he => by have := hd e he; omega]
        · have := h a
          rwa [Memory.read_cons, if_neg ha, Memory.read_cons, if_neg (by omega)] at this
      rw [hrest, Prod.ext hcd hval]

end Sys2Proof.Machine
end

