-- ==== Sys2Proof/Laws/PerInstr.lean ====
section
/-! SUPPORT. The facts about the syntax of every operation, one lemma per constructor: it is well formed, and its
code is one the block assigns with the reserved bits 0. -/

namespace Sys2Proof.Laws.AssignedCode

/-- The operation is well formed and its code is an assigned one. -/
def Statement (i : Instr) : Prop := i.wf = true ∧ (encodeWord i).wf = true

theorem compress : Statement .compress := ⟨rfl, rfl⟩
theorem decompress : Statement .decompress := ⟨rfl, rfl⟩
theorem count : Statement .count := ⟨rfl, rfl⟩
theorem build : Statement .build := ⟨rfl, rfl⟩
theorem derive : Statement .derive := ⟨rfl, rfl⟩
theorem encode : Statement .encode := ⟨rfl, rfl⟩
theorem pack : Statement .pack := ⟨rfl, rfl⟩
theorem serialize : Statement .serialize := ⟨rfl, rfl⟩
theorem parse : Statement .parse := ⟨rfl, rfl⟩
theorem unpack : Statement .unpack := ⟨rfl, rfl⟩
theorem decode : Statement .decode := ⟨rfl, rfl⟩

end Sys2Proof.Laws.AssignedCode
end

