-- ==== Sys2Proof/Laws/State.lean ====
section
/-! SUPPORT. One lemma per field per state update, each true by rfl: a later proof reads a field of an updated
state without unfolding the update. -/

namespace Sys2Proof.Machine

/-! ### releasePrivate -/

@[simp] theorem State.releasePrivate_caps (s : State) : (s.releasePrivate).caps = s.caps := rfl
@[simp] theorem State.releasePrivate_status (s : State) : (s.releasePrivate).status = s.status := rfl
@[simp] theorem State.releasePrivate_inLen (s : State) : (s.releasePrivate).inLen = s.inLen := rfl
@[simp] theorem State.releasePrivate_outLen (s : State) : (s.releasePrivate).outLen = s.outLen := rfl
@[simp] theorem State.releasePrivate_ibuf (s : State) : (s.releasePrivate).ibuf = s.ibuf := rfl
@[simp] theorem State.releasePrivate_obuf (s : State) : (s.releasePrivate).obuf = s.obuf := rfl
@[simp] theorem State.releasePrivate_priv (s : State) : (s.releasePrivate).priv = Config.freePrivate s.draws := rfl
@[simp] theorem State.releasePrivate_hidden (s : State) : (s.releasePrivate).hidden = s.hidden := rfl
@[simp] theorem State.releasePrivate_host (s : State) : (s.releasePrivate).host = s.host := rfl
@[simp] theorem State.releasePrivate_rdata (s : State) : (s.releasePrivate).rdata = s.rdata := rfl
@[simp] theorem State.releasePrivate_draws (s : State) : (s.releasePrivate).draws = s.draws + 1 := rfl
@[simp] theorem State.releasePrivate_ibufSeed (s : State) : (s.releasePrivate).ibufSeed = s.ibufSeed := rfl
@[simp] theorem State.releasePrivate_obufSeed (s : State) : (s.releasePrivate).obufSeed = s.obufSeed := rfl

/-! ### releaseObuf -/

@[simp] theorem State.releaseObuf_caps (s : State) : (s.releaseObuf).caps = s.caps := rfl
@[simp] theorem State.releaseObuf_status (s : State) : (s.releaseObuf).status = s.status := rfl
@[simp] theorem State.releaseObuf_inLen (s : State) : (s.releaseObuf).inLen = s.inLen := rfl
@[simp] theorem State.releaseObuf_outLen (s : State) : (s.releaseObuf).outLen = s.outLen := rfl
@[simp] theorem State.releaseObuf_ibuf (s : State) : (s.releaseObuf).ibuf = s.ibuf := rfl
@[simp] theorem State.releaseObuf_obuf (s : State) : (s.releaseObuf).obuf = [] := rfl
@[simp] theorem State.releaseObuf_priv (s : State) : (s.releaseObuf).priv = s.priv := rfl
@[simp] theorem State.releaseObuf_hidden (s : State) : (s.releaseObuf).hidden = s.hidden := rfl
@[simp] theorem State.releaseObuf_host (s : State) : (s.releaseObuf).host = s.host := rfl
@[simp] theorem State.releaseObuf_rdata (s : State) : (s.releaseObuf).rdata = s.rdata := rfl
@[simp] theorem State.releaseObuf_draws (s : State) : (s.releaseObuf).draws = s.draws + 1 := rfl
@[simp] theorem State.releaseObuf_ibufSeed (s : State) : (s.releaseObuf).ibufSeed = s.ibufSeed := rfl
@[simp] theorem State.releaseObuf_obufSeed (s : State) : (s.releaseObuf).obufSeed = s.draws := rfl

/-! ### stirHidden -/

@[simp] theorem State.stirHidden_caps (s : State) : (s.stirHidden).caps = s.caps := rfl
@[simp] theorem State.stirHidden_status (s : State) : (s.stirHidden).status = s.status := rfl
@[simp] theorem State.stirHidden_inLen (s : State) : (s.stirHidden).inLen = s.inLen := rfl
@[simp] theorem State.stirHidden_outLen (s : State) : (s.stirHidden).outLen = s.outLen := rfl
@[simp] theorem State.stirHidden_ibuf (s : State) : (s.stirHidden).ibuf = s.ibuf := rfl
@[simp] theorem State.stirHidden_obuf (s : State) : (s.stirHidden).obuf = s.obuf := rfl
@[simp] theorem State.stirHidden_priv (s : State) : (s.stirHidden).priv = s.priv := rfl
@[simp] theorem State.stirHidden_hidden (s : State) : (s.stirHidden).hidden = Config.freeHidden s.draws := rfl
@[simp] theorem State.stirHidden_host (s : State) : (s.stirHidden).host = s.host := rfl
@[simp] theorem State.stirHidden_rdata (s : State) : (s.stirHidden).rdata = s.rdata := rfl
@[simp] theorem State.stirHidden_draws (s : State) : (s.stirHidden).draws = s.draws + 1 := rfl
@[simp] theorem State.stirHidden_ibufSeed (s : State) : (s.stirHidden).ibufSeed = s.ibufSeed := rfl
@[simp] theorem State.stirHidden_obufSeed (s : State) : (s.stirHidden).obufSeed = s.obufSeed := rfl

/-! ### startCommand -/

@[simp] theorem State.startCommand_caps (s : State) (op : Command) (c : BitVec 4) : (s.startCommand op c).caps = s.caps := rfl
@[simp] theorem State.startCommand_status (s : State) (op : Command) (c : BitVec 4) : (s.startCommand op c).status = Status.started c := rfl
@[simp] theorem State.startCommand_inLen (s : State) (op : Command) (c : BitVec 4) : (s.startCommand op c).inLen = s.inLen := rfl
@[simp] theorem State.startCommand_outLen (s : State) (op : Command) (c : BitVec 4) : (s.startCommand op c).outLen = 0 := rfl
@[simp] theorem State.startCommand_ibuf (s : State) (op : Command) (c : BitVec 4) : (s.startCommand op c).ibuf = s.ibuf := rfl
@[simp] theorem State.startCommand_obuf (s : State) (op : Command) (c : BitVec 4) : (s.startCommand op c).obuf = [] := rfl
@[simp] theorem State.startCommand_priv (s : State) (op : Command) (c : BitVec 4) : (s.startCommand op c).priv = { s.priv with op := op } := rfl
@[simp] theorem State.startCommand_hidden (s : State) (op : Command) (c : BitVec 4) : (s.startCommand op c).hidden = s.hidden := rfl
@[simp] theorem State.startCommand_host (s : State) (op : Command) (c : BitVec 4) : (s.startCommand op c).host = s.host := rfl
@[simp] theorem State.startCommand_rdata (s : State) (op : Command) (c : BitVec 4) : (s.startCommand op c).rdata = s.rdata := rfl
@[simp] theorem State.startCommand_draws (s : State) (op : Command) (c : BitVec 4) : (s.startCommand op c).draws = s.draws + 1 := rfl
@[simp] theorem State.startCommand_ibufSeed (s : State) (op : Command) (c : BitVec 4) : (s.startCommand op c).ibufSeed = s.ibufSeed := rfl
@[simp] theorem State.startCommand_obufSeed (s : State) (op : Command) (c : BitVec 4) : (s.startCommand op c).obufSeed = s.draws := rfl

/-! ### endCommand -/

@[simp] theorem State.endCommand_caps (s : State) (n : Nat) : (s.endCommand n).caps = s.caps := rfl
@[simp] theorem State.endCommand_status (s : State) (n : Nat) : (s.endCommand n).status = s.status.ended := rfl
@[simp] theorem State.endCommand_inLen (s : State) (n : Nat) : (s.endCommand n).inLen = s.inLen := rfl
@[simp] theorem State.endCommand_outLen (s : State) (n : Nat) : (s.endCommand n).outLen = BitVec.ofNat 40 n := rfl
@[simp] theorem State.endCommand_ibuf (s : State) (n : Nat) : (s.endCommand n).ibuf = s.ibuf := rfl
@[simp] theorem State.endCommand_obuf (s : State) (n : Nat) : (s.endCommand n).obuf = s.obuf := rfl
@[simp] theorem State.endCommand_priv (s : State) (n : Nat) : (s.endCommand n).priv = Config.freePrivate s.draws := rfl
@[simp] theorem State.endCommand_hidden (s : State) (n : Nat) : (s.endCommand n).hidden = s.hidden := rfl
@[simp] theorem State.endCommand_host (s : State) (n : Nat) : (s.endCommand n).host = s.host := rfl
@[simp] theorem State.endCommand_rdata (s : State) (n : Nat) : (s.endCommand n).rdata = s.rdata := rfl
@[simp] theorem State.endCommand_draws (s : State) (n : Nat) : (s.endCommand n).draws = s.draws + 1 := rfl
@[simp] theorem State.endCommand_ibufSeed (s : State) (n : Nat) : (s.endCommand n).ibufSeed = s.ibufSeed := rfl
@[simp] theorem State.endCommand_obufSeed (s : State) (n : Nat) : (s.endCommand n).obufSeed = s.obufSeed := rfl

/-! ### raise -/

@[simp] theorem State.raise_caps (s : State) (k : ErrorKind) : (s.raise k).caps = s.caps := rfl
@[simp] theorem State.raise_status (s : State) (k : ErrorKind) : (s.raise k).status = s.status.faulted k := rfl
@[simp] theorem State.raise_inLen (s : State) (k : ErrorKind) : (s.raise k).inLen = s.inLen := rfl
@[simp] theorem State.raise_outLen (s : State) (k : ErrorKind) : (s.raise k).outLen = 0 := rfl
@[simp] theorem State.raise_ibuf (s : State) (k : ErrorKind) : (s.raise k).ibuf = s.ibuf := rfl
@[simp] theorem State.raise_obuf (s : State) (k : ErrorKind) : (s.raise k).obuf = [] := rfl
@[simp] theorem State.raise_priv (s : State) (k : ErrorKind) : (s.raise k).priv = Config.freePrivate (s.draws + 1) := rfl
@[simp] theorem State.raise_hidden (s : State) (k : ErrorKind) : (s.raise k).hidden = s.hidden := rfl
@[simp] theorem State.raise_host (s : State) (k : ErrorKind) : (s.raise k).host = s.host := rfl
@[simp] theorem State.raise_rdata (s : State) (k : ErrorKind) : (s.raise k).rdata = s.rdata := rfl
@[simp] theorem State.raise_draws (s : State) (k : ErrorKind) : (s.raise k).draws = s.draws + 2 := rfl
@[simp] theorem State.raise_ibufSeed (s : State) (k : ErrorKind) : (s.raise k).ibufSeed = s.ibufSeed := rfl
@[simp] theorem State.raise_obufSeed (s : State) (k : ErrorKind) : (s.raise k).obufSeed = s.draws := rfl

/-! ### assertReset -/

@[simp] theorem State.assertReset_caps (s : State) : (s.assertReset).caps = s.caps := rfl
@[simp] theorem State.assertReset_status (s : State) : (s.assertReset).status = Status.zero := rfl
@[simp] theorem State.assertReset_inLen (s : State) : (s.assertReset).inLen = 0 := rfl
@[simp] theorem State.assertReset_outLen (s : State) : (s.assertReset).outLen = 0 := rfl
@[simp] theorem State.assertReset_ibuf (s : State) : (s.assertReset).ibuf = [] := rfl
@[simp] theorem State.assertReset_obuf (s : State) : (s.assertReset).obuf = [] := rfl
@[simp] theorem State.assertReset_priv (s : State) : (s.assertReset).priv = Config.freePrivate (s.draws + 1) := rfl
@[simp] theorem State.assertReset_hidden (s : State) : (s.assertReset).hidden = Config.freeHidden (s.draws + 2) := rfl
@[simp] theorem State.assertReset_host (s : State) : (s.assertReset).host = s.host := rfl
@[simp] theorem State.assertReset_rdata (s : State) : (s.assertReset).rdata = s.rdata := rfl
@[simp] theorem State.assertReset_draws (s : State) : (s.assertReset).draws = s.draws + 3 := rfl
@[simp] theorem State.assertReset_ibufSeed (s : State) : (s.assertReset).ibufSeed = s.draws := rfl
@[simp] theorem State.assertReset_obufSeed (s : State) : (s.assertReset).obufSeed = s.draws := rfl

/-! ### enter -/

@[simp] theorem State.enter_caps (s : State) (c : BitVec 4) : (s.enter c).caps = s.caps := rfl
@[simp] theorem State.enter_status (s : State) (c : BitVec 4) : (s.enter c).status = { s.status with stage := c } := rfl
@[simp] theorem State.enter_inLen (s : State) (c : BitVec 4) : (s.enter c).inLen = s.inLen := rfl
@[simp] theorem State.enter_outLen (s : State) (c : BitVec 4) : (s.enter c).outLen = s.outLen := rfl
@[simp] theorem State.enter_ibuf (s : State) (c : BitVec 4) : (s.enter c).ibuf = s.ibuf := rfl
@[simp] theorem State.enter_obuf (s : State) (c : BitVec 4) : (s.enter c).obuf = s.obuf := rfl
@[simp] theorem State.enter_priv (s : State) (c : BitVec 4) : (s.enter c).priv = s.priv := rfl
@[simp] theorem State.enter_hidden (s : State) (c : BitVec 4) : (s.enter c).hidden = s.hidden := rfl
@[simp] theorem State.enter_host (s : State) (c : BitVec 4) : (s.enter c).host = s.host := rfl
@[simp] theorem State.enter_rdata (s : State) (c : BitVec 4) : (s.enter c).rdata = s.rdata := rfl
@[simp] theorem State.enter_draws (s : State) (c : BitVec 4) : (s.enter c).draws = s.draws := rfl
@[simp] theorem State.enter_ibufSeed (s : State) (c : BitVec 4) : (s.enter c).ibufSeed = s.ibufSeed := rfl
@[simp] theorem State.enter_obufSeed (s : State) (c : BitVec 4) : (s.enter c).obufSeed = s.obufSeed := rfl

/-! ### deliver -/

@[simp] theorem State.deliver_caps (s : State) (v : Len) : (s.deliver v).caps = s.caps := rfl
@[simp] theorem State.deliver_status (s : State) (v : Len) : (s.deliver v).status = s.status := rfl
@[simp] theorem State.deliver_inLen (s : State) (v : Len) : (s.deliver v).inLen = s.inLen := rfl
@[simp] theorem State.deliver_outLen (s : State) (v : Len) : (s.deliver v).outLen = s.outLen := rfl
@[simp] theorem State.deliver_ibuf (s : State) (v : Len) : (s.deliver v).ibuf = s.ibuf := rfl
@[simp] theorem State.deliver_obuf (s : State) (v : Len) : (s.deliver v).obuf = s.obuf := rfl
@[simp] theorem State.deliver_priv (s : State) (v : Len) : (s.deliver v).priv = s.priv := rfl
@[simp] theorem State.deliver_hidden (s : State) (v : Len) : (s.deliver v).hidden = s.hidden := rfl
@[simp] theorem State.deliver_host (s : State) (v : Len) : (s.deliver v).host = s.host := rfl
@[simp] theorem State.deliver_rdata (s : State) (v : Len) : (s.deliver v).rdata = v := rfl
@[simp] theorem State.deliver_draws (s : State) (v : Len) : (s.deliver v).draws = s.draws := rfl
@[simp] theorem State.deliver_ibufSeed (s : State) (v : Len) : (s.deliver v).ibufSeed = s.ibufSeed := rfl
@[simp] theorem State.deliver_obufSeed (s : State) (v : Len) : (s.deliver v).obufSeed = s.obufSeed := rfl

/-! ### deliverFree -/

@[simp] theorem State.deliverFree_caps (s : State) : (s.deliverFree).caps = s.caps := rfl
@[simp] theorem State.deliverFree_status (s : State) : (s.deliverFree).status = s.status := rfl
@[simp] theorem State.deliverFree_inLen (s : State) : (s.deliverFree).inLen = s.inLen := rfl
@[simp] theorem State.deliverFree_outLen (s : State) : (s.deliverFree).outLen = s.outLen := rfl
@[simp] theorem State.deliverFree_ibuf (s : State) : (s.deliverFree).ibuf = s.ibuf := rfl
@[simp] theorem State.deliverFree_obuf (s : State) : (s.deliverFree).obuf = s.obuf := rfl
@[simp] theorem State.deliverFree_priv (s : State) : (s.deliverFree).priv = s.priv := rfl
@[simp] theorem State.deliverFree_hidden (s : State) : (s.deliverFree).hidden = s.hidden := rfl
@[simp] theorem State.deliverFree_host (s : State) : (s.deliverFree).host = s.host := rfl
@[simp] theorem State.deliverFree_rdata (s : State) : (s.deliverFree).rdata = Config.freeRead s.draws := rfl
@[simp] theorem State.deliverFree_draws (s : State) : (s.deliverFree).draws = s.draws + 1 := rfl
@[simp] theorem State.deliverFree_ibufSeed (s : State) : (s.deliverFree).ibufSeed = s.ibufSeed := rfl
@[simp] theorem State.deliverFree_obufSeed (s : State) : (s.deliverFree).obufSeed = s.obufSeed := rfl

/-! ### loadInput -/

@[simp] theorem State.loadInput_caps (s : State) (bs : List Byte) : (s.loadInput bs).caps = s.caps := rfl
@[simp] theorem State.loadInput_status (s : State) (bs : List Byte) : (s.loadInput bs).status = s.status := rfl
@[simp] theorem State.loadInput_inLen (s : State) (bs : List Byte) : (s.loadInput bs).inLen = BitVec.ofNat 32 bs.length := rfl
@[simp] theorem State.loadInput_outLen (s : State) (bs : List Byte) : (s.loadInput bs).outLen = s.outLen := rfl
@[simp] theorem State.loadInput_ibuf (s : State) (bs : List Byte) : (s.loadInput bs).ibuf = Memory.write s.ibuf 0 bs := rfl
@[simp] theorem State.loadInput_obuf (s : State) (bs : List Byte) : (s.loadInput bs).obuf = s.obuf := rfl
@[simp] theorem State.loadInput_priv (s : State) (bs : List Byte) : (s.loadInput bs).priv = s.priv := rfl
@[simp] theorem State.loadInput_hidden (s : State) (bs : List Byte) : (s.loadInput bs).hidden = s.hidden := rfl
@[simp] theorem State.loadInput_host (s : State) (bs : List Byte) : (s.loadInput bs).host = s.host := rfl
@[simp] theorem State.loadInput_rdata (s : State) (bs : List Byte) : (s.loadInput bs).rdata = s.rdata := rfl
@[simp] theorem State.loadInput_draws (s : State) (bs : List Byte) : (s.loadInput bs).draws = s.draws := rfl
@[simp] theorem State.loadInput_ibufSeed (s : State) (bs : List Byte) : (s.loadInput bs).ibufSeed = s.ibufSeed := rfl
@[simp] theorem State.loadInput_obufSeed (s : State) (bs : List Byte) : (s.loadInput bs).obufSeed = s.obufSeed := rfl

/-! ### finishDecode -/

@[simp] theorem State.finishDecode_caps (s : State) (cur : Nat) (out : List Byte) : (s.finishDecode cur out).caps = s.caps := rfl
@[simp] theorem State.finishDecode_status (s : State) (cur : Nat) (out : List Byte) : (s.finishDecode cur out).status = s.status := rfl
@[simp] theorem State.finishDecode_inLen (s : State) (cur : Nat) (out : List Byte) : (s.finishDecode cur out).inLen = s.inLen := rfl
@[simp] theorem State.finishDecode_outLen (s : State) (cur : Nat) (out : List Byte) : (s.finishDecode cur out).outLen = s.outLen := rfl
@[simp] theorem State.finishDecode_ibuf (s : State) (cur : Nat) (out : List Byte) : (s.finishDecode cur out).ibuf = s.ibuf := rfl
@[simp] theorem State.finishDecode_obuf (s : State) (cur : Nat) (out : List Byte) : (s.finishDecode cur out).obuf = s.obuf := rfl
@[simp] theorem State.finishDecode_priv (s : State) (cur : Nat) (out : List Byte) : (s.finishDecode cur out).priv = { s.priv with cur := cur, ocnt := out.length, dlen := out.length } := rfl
@[simp] theorem State.finishDecode_hidden (s : State) (cur : Nat) (out : List Byte) : (s.finishDecode cur out).hidden = s.hidden := rfl
@[simp] theorem State.finishDecode_host (s : State) (cur : Nat) (out : List Byte) : (s.finishDecode cur out).host = s.host := rfl
@[simp] theorem State.finishDecode_rdata (s : State) (cur : Nat) (out : List Byte) : (s.finishDecode cur out).rdata = s.rdata := rfl
@[simp] theorem State.finishDecode_draws (s : State) (cur : Nat) (out : List Byte) : (s.finishDecode cur out).draws = s.draws := rfl
@[simp] theorem State.finishDecode_ibufSeed (s : State) (cur : Nat) (out : List Byte) : (s.finishDecode cur out).ibufSeed = s.ibufSeed := rfl
@[simp] theorem State.finishDecode_obufSeed (s : State) (cur : Nat) (out : List Byte) : (s.finishDecode cur out).obufSeed = s.obufSeed := rfl

/-! ### STATUS -/

@[simp] theorem Status.started_busy (c : BitVec 4) : (Status.started c).busy = true := rfl
@[simp] theorem Status.started_done (c : BitVec 4) : (Status.started c).done = false := rfl
@[simp] theorem Status.started_err (c : BitVec 4) : (Status.started c).err = 0 := rfl
@[simp] theorem Status.started_stage (c : BitVec 4) : (Status.started c).stage = c := rfl
@[simp] theorem Status.ended_busy (st : Status) : st.ended.busy = false := rfl
@[simp] theorem Status.ended_done (st : Status) : st.ended.done = true := rfl
@[simp] theorem Status.ended_err (st : Status) : st.ended.err = st.err := rfl
@[simp] theorem Status.ended_stage (st : Status) : st.ended.stage = 0 := rfl
@[simp] theorem Status.faulted_busy (st : Status) (k : ErrorKind) : (st.faulted k).busy = false := rfl
@[simp] theorem Status.faulted_done (st : Status) (k : ErrorKind) : (st.faulted k).done = true := rfl
@[simp] theorem Status.faulted_err (st : Status) (k : ErrorKind) : (st.faulted k).err = k.code := rfl
@[simp] theorem Status.faulted_stage (st : Status) (k : ErrorKind) : (st.faulted k).stage = st.stage := rfl

/-- A state is its thirteen fields. -/
theorem State.ext_fields (s t : State) (h1 : s.caps = t.caps) (h2 : s.status = t.status) (h3 : s.inLen = t.inLen)
    (h4 : s.outLen = t.outLen) (h5 : s.ibuf = t.ibuf) (h6 : s.obuf = t.obuf) (h7 : s.priv = t.priv)
    (h8 : s.hidden = t.hidden) (h9 : s.host = t.host) (h10 : s.rdata = t.rdata) (h11 : s.draws = t.draws)
    (h12 : s.ibufSeed = t.ibufSeed) (h13 : s.obufSeed = t.obufSeed) : s = t := by
  cases s; cases t; simp_all

end Sys2Proof.Machine
end

