-- ==== Sys2Proof/Laws/Stages.lean ====
section
/-! SUPPORT. One lemma per operation that says everything it can do: the buffer reads and writes, and each meaning
by the next states it can give. -/

namespace Sys2Proof.Machine

/-! ### Buffer operations -/

@[simp] theorem State.length_ibufBytes (s : State) (a n : Nat) : (s.ibufBytes a n).length = n := by
  simp [State.ibufBytes]

theorem State.ibufBytes_getElem? (s : State) (a n j : Nat) (h : j < n) :
    (s.ibufBytes a n)[j]? = some (s.ibufByte (a + j)) := by
  simp [State.ibufBytes, h]

@[simp] theorem State.length_input (s : State) : s.input.length = s.inLen.toNat := by
  simp [State.input]

@[simp] theorem State.length_output (s : State) : s.output.length = s.outLen.toNat := by
  simp [State.output]

theorem State.memReadIbuf_eq_some (s : State) (a n : Nat) (bs : List Byte) :
    s.memReadIbuf a n = some bs ↔ a + n ≤ s.inCap ∧ bs = s.ibufBytes a n := by
  unfold State.memReadIbuf
  split
  · next h => simp [h, eq_comm]
  · next h => simp [h]

theorem State.memWriteObuf_eq_some (s t : State) (a : Nat) (bs : List Byte) :
    s.memWriteObuf a bs = some t ↔
      a + bs.length ≤ s.outCap ∧ t = { s with obuf := Memory.write s.obuf a bs } := by
  unfold State.memWriteObuf
  split
  · next h => simp [h, eq_comm]
  · next h => simp [h]

/-! ### The meanings -/

theorem execCount_next (s t : State) :
    execCount s = .next t ↔
      s.inLen.toNat ≤ s.inCap ∧ t = { s with priv := { s.priv with freq := countBytes s.input } } := by
  unfold execCount State.memReadIbuf
  by_cases h : s.inLen.toNat ≤ s.inCap
  · simp [h, State.input, eq_comm]
  · simp [h]

theorem execBuild_next (s t : State) :
    execBuild s = .next t ↔ t = { s with priv := { s.priv with tree := buildTree s.priv.freq } } := by
  simp [execBuild, eq_comm]

theorem execDerive_next (s t : State) :
    execDerive s = .next t ↔
      ∃ cs, treeCodes s.priv.tree = some cs ∧
        t = { s with priv := { s.priv with code := cs.foldl recordCode (clearCodes s.priv.code) } } := by
  unfold execDerive
  split
  · next h => simp [h]
  · next cs h => simp [h, eq_comm]

theorem execEncode_next (s t : State) :
    execEncode s = .next t ↔
      s.inLen.toNat ≤ s.inCap ∧
        ((encodeBytes s.priv.code s.input = none ∧ t = s.raise .unknownByte) ∨
          ∃ q, encodeBytes s.priv.code s.input = some q ∧
            t = { s with priv := { s.priv with bitseq := q, nbits := q.length } }) := by
  unfold execEncode State.memReadIbuf
  by_cases h : s.inLen.toNat ≤ s.inCap
  · rw [if_pos (by omega)]
    change (match encodeBytes s.priv.code s.input with
      | none => Host.Outcome.next (s.raise .unknownByte)
      | some q => .next { s with priv := { s.priv with bitseq := q, nbits := q.length } }) = .next t ↔ _
    cases encodeBytes s.priv.code s.input <;> simp [h, eq_comm]
  · simp [h]

theorem execPack_next (s t : State) :
    execPack s = .next t ↔
      t = { s with priv := { s.priv with
        pay := packBytes s.priv.bitseq s.priv.nbits
        plen := packLen s.priv.nbits
        pad := packPad s.priv.nbits } } := by
  simp [execPack, eq_comm]

theorem execUnpack_next (s t : State) :
    execUnpack s = .next t ↔
      (8 * s.priv.plen < s.priv.pad.toNat ∧ t = s.raise .truncatedStream) ∨
      (s.priv.pad.toNat ≤ 8 * s.priv.plen ∧
        t = { s with priv := { s.priv with
          nbits := 8 * s.priv.plen - s.priv.pad.toNat
          bitseq := unpackBits (s.priv.pay.take s.priv.plen) (8 * s.priv.plen - s.priv.pad.toNat) } }) := by
  unfold execUnpack
  by_cases h : 8 * s.priv.plen < s.priv.pad.toNat
  · simp [h, eq_comm, show ¬ s.priv.pad.toNat ≤ 8 * s.priv.plen by omega]
  · simp [h, eq_comm, show s.priv.pad.toNat ≤ 8 * s.priv.plen by omega]

theorem execSerialize_next (s t : State) :
    execSerialize s = .next t ↔
      1025 + min s.priv.plen s.priv.pay.length ≤ s.outCap ∧
        t = { s with
          obuf := Memory.write s.obuf 0
            (containerBytes s.priv.freq s.priv.pad (s.priv.pay.take s.priv.plen))
          priv := { s.priv with clen := 1025 + s.priv.plen } } := by
  have hl : (containerBytes s.priv.freq s.priv.pad (s.priv.pay.take s.priv.plen)).length
      = 1025 + min s.priv.plen s.priv.pay.length := by
    have hh : ∀ l : List Word, (l.flatMap bytesBe32).length = 4 * l.length := by
      intro l
      induction l with
      | nil => rfl
      | cons v l ih => simp [ih, bytesBe32]; omega
    simp [containerBytes, headerBytes, hh]; omega
  unfold execSerialize State.memWriteObuf
  rw [hl]
  by_cases h : 0 + (1025 + min s.priv.plen s.priv.pay.length) ≤ s.outCap
  · rw [if_pos h]; simp only [Host.Outcome.next.injEq]
    exact ⟨fun e => ⟨by omega, by rw [← e]; rfl⟩, fun e => by rw [e.2]; rfl⟩
  · rw [if_neg h]; simp; omega

theorem execParse_next (s t : State) :
    execParse s = .next t ↔
      (s.inLen.toNat < 1025 ∧ t = s.raise .malformedContainer) ∨
      (1025 ≤ s.inLen.toNat ∧ s.inLen.toNat ≤ s.inCap ∧ 7 < (s.ibufByte 1024).toNat ∧
        t = s.raise .malformedContainer) ∨
      (1025 ≤ s.inLen.toNat ∧ s.inLen.toNat ≤ s.inCap ∧ (s.ibufByte 1024).toNat ≤ 7 ∧
        t = { s with priv := { s.priv with
          freq := s.counters
          pad := (s.ibufByte 1024).setWidth 3
          plen := s.inLen.toNat - 1025
          pay := s.ibufBytes 1025 (s.inLen.toNat - 1025) } }) := by
  have key : ∀ r : State, (Host.Outcome.next r : Host.Outcome State Fault Refusal) = .next t ↔ t = r := by
    intro r; simp [eq_comm]
  unfold execParse State.memReadIbuf Config.minContainer Config.payloadOffset Config.padOffset
  rcases Nat.lt_or_ge s.inLen.toNat 1025 with h1 | h1
  · rw [if_pos h1, key]
    exact ⟨fun e => .inl ⟨h1, e⟩, by rintro (e | e | e) <;> first | exact e.2 | omega⟩
  · rw [if_neg (by omega)]
    rcases Nat.lt_or_ge s.inCap s.inLen.toNat with h2 | h2
    · rw [if_neg (by omega)]
      exact ⟨fun e => by simp at e, by rintro (e | e | e) <;> omega⟩
    · rw [if_pos (by omega)]
      rcases Nat.lt_or_ge 7 (s.ibufByte 1024).toNat with h3 | h3
      · simp only
        rw [if_pos h3, key]
        exact ⟨fun e => .inr (.inl ⟨h1, h2, h3, e⟩), by
          rintro (e | e | e) <;> first | exact e.2.2.2 | omega⟩
      · simp only
        rw [if_neg (by omega), key]
        exact ⟨fun e => .inr (.inr ⟨h1, h2, h3, e⟩), by
          rintro (e | e | e) <;> first | exact e.2.2.2 | omega⟩

/-- What DECODE can do, by how its walk ends. -/
theorem execDecode_next (s t : State) :
    execDecode s = .next t ↔
      (s.priv.tree.root = none ∧ t = { s with priv := { s.priv with ocnt := 0, dlen := 0 } }) ∨
      ∃ root, s.priv.tree.root = some root ∧
        ((∃ out, walkBits s.priv.tree root (s.priv.bitseq.take s.priv.nbits) = .oneBit out ∧
            out.length ≤ s.outCap ∧ t = State.raise { s with obuf := Memory.write s.obuf 0 out } .malformedContainer) ∨
          ∃ cur out, walkBits s.priv.tree root (s.priv.bitseq.take s.priv.nbits) = .ended cur out ∧
            out.length ≤ s.outCap ∧
            ((cur = root ∧ t = State.finishDecode { s with obuf := Memory.write s.obuf 0 out } cur out) ∨
              (cur ≠ root ∧ t = State.raise { s with obuf := Memory.write s.obuf 0 out } .truncatedStream))) := by
  unfold execDecode
  cases hr : s.priv.tree.root with
  | none => simp [eq_comm]
  | some root =>
    simp only
    cases hw : walkBits s.priv.tree root (s.priv.bitseq.take s.priv.nbits) with
    | lost => simp [hw]
    | oneBit out =>
      unfold State.memWriteObuf
      by_cases h : 0 + out.length ≤ s.outCap
      · have h' : out.length ≤ s.outCap := by omega
        simp [hw, h', eq_comm]
      · have h' : ¬ out.length ≤ s.outCap := by omega
        simp [hw, h']
    | ended cur out =>
      unfold State.memWriteObuf
      by_cases h : 0 + out.length ≤ s.outCap
      · have h' : out.length ≤ s.outCap := by omega
        by_cases hc : cur = root
        · subst hc; simp [hw, h', eq_comm]
        · simp [hw, h', hc, Ne.symm hc, eq_comm]
      · have h' : ¬ out.length ≤ s.outCap := by omega
        simp [hw, h']

theorem execCompress_next (s t : State) :
    execCompress s = .next t ↔
      (s.status.busy = true ∧ t = s) ∨ (s.status.busy = false ∧ t = s.startCommand .compress 1#4) := by
  unfold execCompress; cases s.status.busy <;> simp [eq_comm]

theorem execDecompress_next (s t : State) :
    execDecompress s = .next t ↔
      (s.status.busy = true ∧ t = s) ∨ (s.status.busy = false ∧ t = s.startCommand .decompress 7#4) := by
  unfold execDecompress; cases s.status.busy <;> simp [eq_comm]

/-! ### The sequencer -/

/-- What follows a stage never touches what belongs to the host: IBUF, IN_LEN, the capacities, the script, the
value read. -/
theorem State.afterStage_host (s : State) (i : Instr) :
    (s.afterStage i).ibuf = s.ibuf ∧ (s.afterStage i).ibufSeed = s.ibufSeed ∧ (s.afterStage i).inLen = s.inLen ∧
      (s.afterStage i).caps = s.caps ∧ (s.afterStage i).host = s.host ∧ (s.afterStage i).rdata = s.rdata := by
  unfold State.afterStage
  split
  · cases i <;> simp only [State.advance] <;> (repeat' split) <;> simp
  · simp

/-- After a stage that ended the command nothing follows. -/
theorem State.afterStage_ended (s : State) (i : Instr) (h : s.status.busy = false) : s.afterStage i = s := by
  simp [State.afterStage, h]

theorem State.afterStage_running (s : State) (i : Instr) (h : s.status.busy = true) :
    s.afterStage i = s.advance i := by
  simp [State.afterStage, h]

/-! ### The engine step -/

/-- What an engine step can do while a command runs: the stage of STAGE, decoded, and what follows it. -/
theorem engineStep_busy (s t : State) (h : s.status.busy = true) :
    engineStep s = .next t ↔
      ∃ i s', decodeStage s.status.stage = .ok i ∧ exec i s.stirHidden = .next s' ∧ t = s'.afterStage i := by
  unfold engineStep
  rw [if_pos h]
  simp only [decodeWord]
  cases decodeStage s.status.stage with
  | error e => simp
  | ok i =>
    simp only [Except.ok.injEq]
    cases he : exec i s.stirHidden with
    | next s' =>
      simp only [Host.Outcome.next.injEq]
      constructor
      · intro e; exact ⟨i, s', rfl, he, e.symm⟩
      · rintro ⟨i', s'', rfl, he', rfl⟩
        rw [he] at he'; simp only [Host.Outcome.next.injEq] at he'; rw [he']
    | fault r =>
      simp only [reduceCtorEq, false_iff]
      rintro ⟨i', s'', rfl, he', -⟩
      rw [he] at he'; simp at he'
    | refused r =>
      simp only [reduceCtorEq, false_iff]
      rintro ⟨i', s'', rfl, he', -⟩
      rw [he] at he'; simp at he'

theorem engineStep_idle (s : State) (h : s.status.busy = false) : engineStep s = .next s := by
  simp [engineStep, h]

end Sys2Proof.Machine
end

