-- ==== Sys2Proof/Tests/Slice0.lean ====
section
/-! SUPPORT. The model's own tests: well-formedness refuses an ill-formed term per check; codes written out from
R87 and R88 decode; one step of each operation against a vector of spec/95_test_vectors.md; and a state that meets
the hypotheses of each statement that has some. -/

namespace Sys2Proof.Tests

open Sys2Proof Sys2Proof.Machine

/-! ### Small states -/

/-- The state after reset with input bytes loaded. -/
def loaded (bs : List Byte) : State :=
  { State.reset with ibuf := Memory.cells 0 bs, inLen := BitVec.ofNat 32 bs.length }

/-- A state with a stage running. -/
def running (op : Command) (c : BitVec 4) (s : State) : State :=
  { s with status := Status.started c, priv := { s.priv with op := op } }

/-- The table with the given counters. -/
def counts (l : List (Byte × Word)) : Table Word := l.foldl (fun t p => t.put p.1 p.2) (Vector.replicate 256 0)

/-- A code table with the given codes. -/
def codes (l : List (Byte × Bits)) : Table CodeEntry := l.foldl recordCode Private.zero.code

/-- A property of the next state; false at a fault or a refusal. -/
def nextIs (o : Host.Outcome State Fault Refusal) (p : State → Bool) : Bool :=
  match o with
  | .next t => p t
  | .fault _ => false
  | .refused _ => false

/-- A refusal for the given reason. -/
def refusedFor (o : Host.Outcome State Fault Refusal) (r : Refusal) : Bool :=
  match o with
  | .next _ => false
  | .fault _ => false
  | .refused x => decide (x = r)

theorem exists_of_nextIs {o : Host.Outcome State Fault Refusal} {p : State → Bool} (h : nextIs o p = true) :
    ∃ t, o = .next t ∧ p t = true := by
  cases o with
  | next t => exact ⟨t, rfl, h⟩
  | fault r => simp [nextIs] at h
  | refused r => simp [nextIs] at h

/-- The tree of "aaabbc" (V41-1). -/
def treeABC : Tree :=
  { node := [.leaf 0x61 3, .leaf 0x62 2, .leaf 0x63 1, .int 3 2 1, .int 6 0 3], nn := 5, live := [4], root := some 4 }

/-- The tree of one leaf 0x41 (V41-3). -/
def treeA : Tree := { node := [.leaf 0x41 10], nn := 1, live := [0], root := some 0 }

/-- The bits 000111110 (V43-1). -/
def bitsABC : Bits := [false, false, false, true, true, true, true, true, false]

/-! ### Well-formedness: one ill-formed term per check -/

theorem test_wf_cmd_op_reserved : (CodeWord.cmd 3#32).wf = false := by decide
theorem test_wf_cmd_rsv_set : (CodeWord.cmd 0xFFFFFFF1#32).wf = false := by decide
theorem test_wf_stage_idle : (CodeWord.stage 0#4).wf = false := by decide
theorem test_wf_stage_above_nine : (CodeWord.stage 10#4).wf = false := by decide
theorem test_wf_register_four : (HostMove.wrReg 4 0).wf State.reset.caps = false := by decide
theorem test_wf_read_register_four : (HostMove.rdReg 4).wf State.reset.caps = false := by decide
theorem test_wf_in_len_above_cap : (HostMove.wrReg 2 5).wf { inCap := 4, outExtra := 0 } = false := by decide
theorem test_wf_ibuf_write_at_cap : (HostMove.wrIbuf 4 0).wf { inCap := 4, outExtra := 0 } = false := by decide
theorem test_wf_ibuf_read_at_cap : (HostMove.rdIbuf 4).wf { inCap := 4, outExtra := 0 } = false := by decide
theorem test_wf_obuf_read_at_cap : (HostMove.rdObuf 1153).wf { inCap := 4, outExtra := 0 } = false := by decide
theorem test_wf_load_too_long : (HostMove.load [0, 0, 0, 0, 0]).wf { inCap := 4, outExtra := 0 } = false := by decide

/-! ### Decoding: words written out from R87 and R88 -/

theorem test_decode_compress : decodeWord (.cmd 0b00000000000000000000000000000001#32) = .ok .compress := by decide
theorem test_decode_compress_rsv_ignored :
    decodeWord (.cmd 0b11111111111111111111111111110001#32) = .ok .compress := by decide
theorem test_decode_decompress : decodeWord (.cmd 0b00000000000000000000000000000010#32) = .ok .decompress := by decide
theorem test_decode_reserved_op : decodeWord (.cmd 0x00000005#32) = .error (.reservedOp 5) := by decide
theorem test_decode_zero_op : decodeWord (.cmd 0#32) = .error (.reservedOp 0) := by decide
theorem test_decode_count : decodeWord (.stage 0b0001#4) = .ok .count := by decide
theorem test_decode_build : decodeWord (.stage 0b0010#4) = .ok .build := by decide
theorem test_decode_derive : decodeWord (.stage 0b0011#4) = .ok .derive := by decide
theorem test_decode_encode : decodeWord (.stage 0b0100#4) = .ok .encode := by decide
theorem test_decode_pack : decodeWord (.stage 0b0101#4) = .ok .pack := by decide
theorem test_decode_serialize : decodeWord (.stage 0b0110#4) = .ok .serialize := by decide
theorem test_decode_parse : decodeWord (.stage 0b0111#4) = .ok .parse := by decide
theorem test_decode_unpack : decodeWord (.stage 0b1000#4) = .ok .unpack := by decide
theorem test_decode_decode : decodeWord (.stage 0b1001#4) = .ok .decode := by decide
theorem test_decode_idle : decodeWord (.stage 0b0000#4) = .error .idle := by decide
theorem test_decode_stage_ten : decodeWord (.stage 0b1010#4) = .error (.reservedStage 10) := by decide

/-! ### One step of each operation -/

/-- V40-4: IBUF = 00 FF 00 FF 01. -/
theorem test_count_v40_4 :
    nextIs (exec .count (loaded [0x00, 0xFF, 0x00, 0xFF, 0x01])) (fun t =>
      [t.priv.freq.at 0x00, t.priv.freq.at 0x01, t.priv.freq.at 0xFF, t.priv.freq.at 0x02] == [2, 1, 2, 0])
      = true := by decide +kernel

/-- V41-1: the tie of leaf a:3 with node 3 of weight 3 goes to the leaf. -/
theorem test_build_v41_1 :
    nextIs (exec .build { State.reset with
        priv := { Private.zero with freq := counts [(0x61, 3), (0x62, 2), (0x63, 1)] } })
      (fun t => t.priv.tree == treeABC) = true := by decide +kernel

/-- V41-9: the lighter leaf is removed first although its byte value is higher. -/
theorem test_build_v41_9 :
    nextIs (exec .build { State.reset with
        priv := { Private.zero with freq := counts [(0x00, 2), (0x01, 1), (0xFF, 2)] } })
      (fun t => t.priv.tree.node.drop 3 == [.int 3 1 0, .int 5 2 3] && t.priv.tree.root == some 4)
      = true := by decide +kernel

/-- V42-1: a `0`, c `10`, b `11`, nothing else valid (byte 0x64 looked at). -/
theorem test_derive_v42_1 :
    nextIs (exec .derive { State.reset with priv := { Private.zero with tree := treeABC } }) (fun t =>
      [(t.priv.code.at 0x61).word, (t.priv.code.at 0x63).word, (t.priv.code.at 0x62).word]
        == [[false], [true, false], [true, true]] && !(t.priv.code.at 0x64).valid) = true := by decide +kernel

/-- V42-4: the single leaf has the one-bit code `0`. -/
theorem test_derive_v42_4 :
    nextIs (exec .derive { State.reset with priv := { Private.zero with tree := treeA } }) (fun t =>
      (t.priv.code.at 0x41).word == [false] && (t.priv.code.at 0x41).len == 1) = true := by decide +kernel

/-- V43-1: "aaabbc" gives 000111110. -/
theorem test_encode_v43_1 :
    nextIs (exec .encode { loaded [0x61, 0x61, 0x61, 0x62, 0x62, 0x63] with
        priv := { Private.zero with code := codes [(0x61, [false]), (0x63, [true, false]), (0x62, [true, true])] } })
      (fun t => t.priv.bitseq == bitsABC && t.priv.nbits == 9) = true := by decide +kernel

/-- V43-15: "abd" with the code of V42-1: UnknownByte, STATUS = 0x00000412. -/
theorem test_encode_v43_15 :
    nextIs (exec .encode { loaded [0x61, 0x62, 0x64] with
        status := Status.started 4#4
        priv := { Private.zero with code := codes [(0x61, [false]), (0x63, [true, false]), (0x62, [true, true])] } })
      (fun t => t.status.word == 0x00000412#32 && t.outLen == 0) = true := by decide +kernel

/-- V44-1: 000111110 packs to 1F 00 with PAD 7. -/
theorem test_pack_v44_1 :
    nextIs (exec .pack { State.reset with priv := { Private.zero with bitseq := bitsABC, nbits := 9 } })
      (fun t => t.priv.pay == [0x1F, 0x00] && t.priv.plen == 2 && t.priv.pad == 7) = true := by decide +kernel

/-- V44-2: 00011011 packs to 1B with PAD 0, "never 8". -/
theorem test_pack_v44_2 :
    nextIs (exec .pack { State.reset with priv := { Private.zero with
        bitseq := [false, false, false, true, true, false, true, true], nbits := 8 } })
      (fun t => t.priv.pay == [0x1B] && t.priv.plen == 1 && t.priv.pad == 0) = true := by decide +kernel

/-- V44-14: B3 with PAD 2 unpacks to 101100, the filler 11 ignored. -/
theorem test_unpack_v44_14 :
    nextIs (exec .unpack { State.reset with priv := { Private.zero with pay := [0xB3], plen := 1, pad := 2 } })
      (fun t => t.priv.bitseq == [true, false, true, true, false, false] && t.priv.nbits == 6)
      = true := by decide +kernel

/-- V44-12: an empty payload with PAD 4: TruncatedStream, STATUS = 0x0000080E. -/
theorem test_unpack_v44_12 :
    nextIs (exec .unpack { State.reset with
        status := Status.started 8#4, priv := { Private.zero with pad := 4 } })
      (fun t => t.status.word == 0x0000080E#32) = true := by decide +kernel

/-- V45-9: FREQ[0] = 0x12345678 is written 12 34 56 78. -/
theorem test_serialize_v45_9 :
    nextIs (exec .serialize { State.reset with priv := { Private.zero with
        freq := counts [(0x00, 0x12345678)], pay := [0x00], plen := 1 } })
      (fun t => [t.obufByte 0, t.obufByte 1, t.obufByte 2, t.obufByte 3] == [0x12, 0x34, 0x56, 0x78] &&
        t.priv.clen == 1026) = true := by decide +kernel

/-- V45-3: IN_LEN = 1024: MalformedContainer, STATUS = 0x0000070A. -/
theorem test_parse_v45_3 :
    nextIs (exec .parse { State.reset with status := Status.started 7#4, inLen := 1024 })
      (fun t => t.status.word == 0x0000070A#32 && t.inLen == 1024) = true := by decide +kernel

/-- The container of V45-8: FREQ[0] = 0x01020304, FREQ[255] = 0xFFFFFFFF, PADB 03, payload AA 55. -/
def containerV458 : List Byte :=
  [0x01, 0x02, 0x03, 0x04] ++ List.replicate 1016 0 ++ [0xFF, 0xFF, 0xFF, 0xFF, 0x03, 0xAA, 0x55]

/-- V45-8. -/
theorem test_parse_v45_8 :
    nextIs (exec .parse (loaded containerV458)) (fun t =>
      t.priv.freq.at 0x00 == 0x01020304#32 && t.priv.freq.at 0xFF == 0xFFFFFFFF#32 &&
        t.priv.pad == 3 && t.priv.plen == 2 && t.priv.pay == [0xAA, 0x55]) = true := by decide +kernel

/-- V46-1: 000111110 decodes to "aaabbc". -/
theorem test_decode_v46_1 :
    nextIs (exec .decode { State.reset with
        priv := { Private.zero with tree := treeABC, bitseq := bitsABC, nbits := 9 } })
      (fun t => t.obuf == Memory.cells 0 [0x61, 0x61, 0x61, 0x62, 0x62, 0x63] && t.priv.ocnt == 6)
      = true := by decide +kernel

/-- V46-9: 0001 under the single leaf 0x41: MalformedContainer, STATUS = 0x0000090A. -/
theorem test_decode_v46_9 :
    nextIs (exec .decode { State.reset with
        status := Status.started 9#4
        priv := { Private.zero with tree := treeA, bitseq := [false, false, false, true], nbits := 4 } })
      (fun t => t.status.word == 0x0000090A#32 && t.outLen == 0) = true := by decide +kernel

/-- V47-37: CMD = 0xFFFFFFF1 starts COMPRESS; R195: BUSY, STAGE 1. -/
theorem test_compress_starts :
    nextIs (step { loaded [0x61] with host := [.wrReg 0 0xFFFFFFF1] })
      (fun t => t.status.word == 0x00000101#32 && t.host == []) = true := by decide +kernel

/-- R195: CMD = 2 starts DECOMPRESS at STAGE 7; OUT_LEN is cleared. -/
theorem test_decompress_starts :
    nextIs (step { loaded [0x61] with outLen := 5, host := [.wrReg 0 2] })
      (fun t => t.status.word == 0x00000701#32 && t.outLen == 0) = true := by decide +kernel

/-- V47-35: CMD = 5 while idle: STATUS = 0x0000001E, OUT_LEN = 0. -/
theorem test_illegal_command :
    nextIs (step { State.reset with host := [.wrReg 0 5] })
      (fun t => t.status.word == 0x0000001E#32 && t.outLen == 0) = true := by decide +kernel

/-- V47-2, the step after COUNT with IN_LEN = 0: STATUS = 0x00000106. -/
theorem test_empty_input :
    nextIs (step (running .compress 1#4 State.reset)) (fun t => t.status.word == 0x00000106#32)
      = true := by decide +kernel

/-- R92: the line LOADSTR is the character codes (a 61, b 62). -/
theorem test_load_str : loadStr "ab" = .load [0x61, 0x62] := by decide +kernel

/-- R69, R41: after reset, before any command has ended, a read of OUT_LEN delivers 0. -/
theorem test_read_out_len_after_reset :
    nextIs (step { State.reset with rdata := 5, host := [.rdReg 3] }) (fun t => t.rdata == 0 && t.draws == 1)
      = true := by decide +kernel

/-! ### Witnesses: a state that meets the hypotheses of each statement that has some -/

/-- What the register invariant asks, as one computable check. -/
theorem regsOk_of (s : State) (h1 : s.status = Status.zero ∨
      ((s.status = Status.started 1 ∨ s.status = Status.started 2) ∧ s.priv.op = .compress) ∨
      (s.status = Status.started 2 ∧ s.priv.op = .decompress))
    (h2 : s.inLen.toNat ≤ s.inCap) (h3 : Memory.wf s.ibuf) (h4 : s.obuf = [])
    (h5 : Memory.below s.ibuf s.inCap) : s.RegsOk := by
  refine ⟨?_, h2, h3, by simp [h4], h5, by simp [h4]⟩
  rcases h1 with h | ⟨h | h, ho⟩ | ⟨h, ho⟩ <;>
    simp_all [Status.Legal, Status.zero, Status.started, Command.stages]

/-- "ab" loaded, the block idle. -/
def idleAb : State := loaded [0x61, 0x62]

theorem idleAb_regsOk : idleAb.RegsOk :=
  regsOk_of _ (.inl rfl) (by decide +kernel) (by decide +kernel) rfl (by decide +kernel)

/-- "ab" loaded, COMPRESS at COUNT. -/
def countingAb : State := running .compress 1#4 idleAb

theorem countingAb_regsOk : countingAb.RegsOk :=
  regsOk_of _ (.inr (.inl ⟨.inl rfl, rfl⟩)) (by decide +kernel) (by decide +kernel) rfl (by decide +kernel)

theorem countingAb_inv : countingAb.Inv := by
  refine ⟨countingAb_regsOk, ?_, ?_, by decide +kernel, ?_, by decide +kernel⟩
  · intro _ _; simp [countingAb, running, Status.started, State.CompressData]
  · intro _ h; simp [countingAb, running] at h
  · intro h; exact absurd rfl h

/-- The state after a COMPRESS of "ab" (its script empty). -/
theorem compressAb_ends :
    nextIs (runScript 8 [scriptCompress, .wait] idleAb)
      (fun t => decide (t.outLen.toNat ≤ idleAb.inCap) && t.status.word == 2#32 && t.outLen == 1026#40)
      = true := by decide +kernel

theorem witness_ResetEventLeavesTheResetState :
    ∃ (s : State) (rest : List HostMove), s.host = .reset :: rest ∧ s.status.busy = true :=
  ⟨{ countingAb with host := [.reset, .wait] }, [.wait], rfl, rfl⟩

theorem witness_CodesDecodeToTheirOperations : ∃ (c : BitVec 4) (i : Instr), decodeStage c = .ok i :=
  ⟨9#4, .decode, by decide⟩

theorem witness_StepRunsTheDecodedOperation_stage : ∃ (s : State) (i : Instr),
    s.host = [] ∧ s.status.busy = true ∧ decodeStage s.status.stage = .ok i :=
  ⟨countingAb, .count, rfl, rfl, by decide⟩

theorem witness_StepRunsTheDecodedOperation_pass :
    ∃ (s : State) (rest : List HostMove), s.host = .pass :: rest ∧ s.status.busy = true :=
  ⟨{ countingAb with host := [.pass] }, [], rfl, rfl⟩

theorem witness_StepRunsTheDecodedOperation_cmd : ∃ (s : State) (v : Len) (rest : List HostMove) (i : Instr),
    s.host = .wrReg 0 v :: rest ∧ decodeCmd (v.setWidth 32) = .ok i :=
  ⟨{ idleAb with host := [.wrReg 0 0xFFFFFFF2] }, 0xFFFFFFF2, [], .decompress, rfl, by decide⟩

theorem witness_StepRunsTheDecodedOperation_idle : ∃ s : State, s.host = [] ∧ s.status.busy = false :=
  ⟨idleAb, rfl, rfl⟩

theorem witness_PlacedTableWordRuns :
    decodeTableWord 32 2 = some .decompress ∧ decodeTableWord 8 9 = some .decode ∧ decodeTableWord 8 1 = some .count := by
  decide

theorem witness_CmdWriteWhileBusyIsIgnored : ∃ (s : State) (v : Len) (rest : List HostMove),
    s.host = .wrReg 0 v :: rest ∧ s.status.busy = true :=
  ⟨{ countingAb with host := [.wrReg 0 2] }, 2, [], rfl, rfl⟩

theorem witness_ReservedOpReportsIllegalCommand : ∀ v ∈ ([0, 3, 15, 0xFFFFFFF0] : List Len),
    ∃ (s : State) (rest : List HostMove), s.host = .wrReg 0 v :: rest ∧ s.status.busy = false ∧
      v.toNat % 16 ≠ 1 ∧ v.toNat % 16 ≠ 2 := by
  intro v hv
  refine ⟨{ idleAb with host := [.wrReg 0 v] }, [], rfl, rfl, ?_⟩
  simp only [List.mem_cons, List.not_mem_nil, or_false] at hv
  rcases hv with rfl | rfl | rfl | rfl <;> decide

theorem witness_CommandsStartWhenIdle : idleAb.status.busy = false ∧ countingAb.status.busy = true := ⟨rfl, rfl⟩

/-- A state whose result is two bytes, DONE = 1. -/
def doneTwo : State :=
  { idleAb with status := Status.success, outLen := 2, obuf := Memory.cells 0 [0x41, 0x42] }

theorem witness_HostReadsDeliverTheirValue :
    (∀ m ∈ ([.rdReg 0, .rdReg 1, .rdReg 2, .rdReg 3, .rdIbuf 0, .rdObuf 1, .rdObuf 2, .wrReg 1 7, .wrReg 3 7] :
      List HostMove), ∃ (s : State) (rest : List HostMove), s.host = m :: rest ∧ s.status.busy = false ∧
        s.status.done = true ∧ s.outLen.toNat = 2 ∧ 2 < s.outCap ∧ 0 < s.inCap) ∧
    (∀ m ∈ ([.rdReg 3, .rdIbuf 0, .rdIbuf 0xFFFFFFFE, .rdObuf 0] : List HostMove), ∃ (s : State)
      (rest : List HostMove), s.host = m :: rest ∧ s.status.busy = true ∧
        0 < s.outCap ∧ 0xFFFFFFFE < s.inCap) := by
  refine ⟨fun m _ => ⟨{ doneTwo with host := [m] }, [], rfl, rfl, rfl, rfl, ?_, ?_⟩,
    fun m _ => ⟨{ countingAb with host := [m] }, [], rfl, rfl, ?_, ?_⟩⟩
  · show 2 < Caps.outCap doneTwo.caps; decide +kernel
  · show 0 < doneTwo.caps.inCap.toNat; decide +kernel
  · show 0 < Caps.outCap countingAb.caps; decide +kernel
  · show 0xFFFFFFFE < countingAb.caps.inCap.toNat; decide +kernel

theorem witness_StatusReadWhileBusyShowsAStage : ∃ (s : State) (rest : List HostMove),
    s.RegsOk ∧ s.status.busy = true ∧ s.host = .rdReg 1 :: rest :=
  ⟨{ countingAb with host := [.rdReg 1] }, [], regsOk_of _ (.inr (.inl ⟨.inl rfl, rfl⟩))
    (by decide +kernel) (by decide +kernel) rfl (by decide +kernel), rfl, rfl⟩

/-- A block whose result is longer than its IBUF: IN_CAP = 1, OUT_LEN = 2. -/
def resultTooLong : State := { doneTwo with caps := { inCap := 1, outExtra := 0 } }

theorem witness_ListedHostMovesAreRefusedByName :
    ((HostMove.wrReg 4 0).wf idleAb.caps = false ∧ (HostMove.rdReg 4).wf idleAb.caps = false ∧
      (HostMove.wrReg 2 0x100000000).wf idleAb.caps = false ∧ idleAb.inCap < (0x100000000 : Len).toNat ∧
      (HostMove.wrIbuf idleAb.inCap 0).wf idleAb.caps = false ∧
      (HostMove.rdIbuf idleAb.inCap).wf idleAb.caps = false ∧
      (HostMove.rdObuf idleAb.outCap).wf idleAb.caps = false) ∧
    (countingAb.status.busy = true ∧ 0xFFFFFFFE < countingAb.inCap ∧ [0].length ≤ countingAb.inCap) ∧
    (resultTooLong.inCap < [0, 0].length ∧ resultTooLong.status.busy = false ∧
      resultTooLong.inCap < resultTooLong.outLen.toNat) ∧
    idleAb.status.busy = false := by
  decide +kernel

theorem witness_WellFormedMovesCompleteWhenIdle :
    (∀ m ∈ ([.reset, .wrReg 0 5, .wrReg 2 0xFFFFFFFF, .rdReg 3, .wrIbuf 0xFFFFFFFE 1, .rdIbuf 0, .rdObuf 0,
      .load [1], .wait, .pass] : List HostMove), m.wf idleAb.caps = true ∧ m ≠ .move) ∧
    idleAb.status.busy = false ∧ doneTwo.status.busy = false ∧ doneTwo.status.done = true ∧
      doneTwo.outLen.toNat ≤ doneTwo.inCap := by decide +kernel

theorem witness_InLenWriteStoresItsValue : ∀ v ∈ ([0, 0xFFFFFFFF] : List Len), ∃ (s : State) (rest : List HostMove),
    s.host = .wrReg 2 v :: rest ∧ s.status.busy = false ∧ v.toNat ≤ s.inCap := by
  intro v hv
  refine ⟨{ idleAb with host := [.wrReg 2 v] }, [], rfl, rfl, ?_⟩
  show v.toNat ≤ idleAb.caps.inCap.toNat
  simp only [List.mem_cons, List.not_mem_nil, or_false] at hv
  rcases hv with rfl | rfl <;> decide +kernel

theorem witness_IbufWriteStoresItsByte : ∃ (s : State) (a : Nat) (b : Byte) (rest : List HostMove),
    s.host = .wrIbuf a b :: rest ∧ s.status.busy = false ∧ a < s.inCap :=
  ⟨{ idleAb with host := [.wrIbuf 0xFFFFFFFE 7] }, 0xFFFFFFFE, 7, [], rfl, rfl, by
    show 0xFFFFFFFE < idleAb.caps.inCap.toNat; decide +kernel⟩

theorem witness_LoadIsTheWritesOfItsBytes : ∃ (s : State) (bs : List Byte),
    s.status.busy = false ∧ Memory.wf s.ibuf ∧ bs.length ≤ s.inCap ∧ bs ≠ [] :=
  ⟨idleAb, [1, 2, 3], rfl, by decide +kernel, by decide +kernel, by decide⟩

theorem witness_MoveMakesTheResultTheInput : ∃ (s : State) (rest : List HostMove),
    s.host = .move :: rest ∧ s.status.busy = false ∧ s.outLen.toNat ≤ s.inCap ∧ s.outLen ≠ 0 :=
  ⟨{ doneTwo with host := [.move] }, [], rfl, rfl, by
    show doneTwo.outLen.toNat ≤ doneTwo.caps.inCap.toNat; decide +kernel, by
    show doneTwo.outLen ≠ 0; decide⟩

theorem witness_CountCountsEveryByteValue : idleAb.inLen.toNat ≤ idleAb.inCap := idleAb_regsOk.inLen

theorem witness_CountedTableMatchesTheInput : ∃ t, exec .count idleAb = .next t :=
  ⟨_, (execCount_next _ _).2 ⟨idleAb_regsOk.inLen, rfl⟩⟩

/-- A state with the counters of "aaabbc" (three leaves) and the tree BUILD makes of them. -/
def builtABC : State :=
  { State.reset with priv := { Private.zero with
      freq := counts [(0x61, 3), (0x62, 2), (0x63, 1)]
      tree := buildTree (counts [(0x61, 3), (0x62, 2), (0x63, 1)]) } }

theorem builtABC_tree : builtABC.priv.tree = buildTree builtABC.priv.freq := by
  simp only [builtABC]

theorem builtABC_leafCount : leafCount builtABC.priv.freq = 3 := by decide +kernel

/-- The same with one counter, of byte value 0x41. -/
def builtA : State :=
  { State.reset with priv := { Private.zero with
      freq := counts [(0x41, 10)], tree := buildTree (counts [(0x41, 10)]) } }

theorem witness_MinkeyIsTheLeastKey :
    ([2, 1] : List Nat) ≠ [] ∧ minkey treeABC.node [0, 1, 2] = some 2 ∧ minkey treeABC.node [0, 3] = some 0 := by
  decide

theorem witness_BuildMakesAStrictBinaryTree :
    ∃ s t : State, exec .build s = .next t ∧ 1 ≤ leafCount s.priv.freq :=
  ⟨builtABC, _, rfl, by rw [builtABC_leafCount]; decide⟩

theorem witness_BuildStatements :
    (∃ s t : State, exec .build s = .next t ∧ leafCount s.priv.freq = 0) ∧
    (∃ s t : State, exec .build s = .next t ∧ leafCount s.priv.freq = 1) ∧
    (∃ s t : State, exec .build s = .next t ∧ (t.priv.tree.node[3]? = some (Node.int 3 2 1) ∧
      t.priv.tree.node[4]? = some (Node.int 6 0 3) ∧ t.priv.tree.root = some 4)) :=
  ⟨⟨State.reset, _, rfl, by decide +kernel⟩, ⟨builtA, _, rfl, by decide +kernel⟩,
    ⟨builtABC, _, rfl, by decide +kernel⟩⟩

theorem treeABC_ok : treeABC.Ok := by
  have h : buildTree (counts [(0x61, 3), (0x62, 2), (0x63, 1)]) = treeABC := by decide +kernel
  rw [← h]; exact buildTree_ok _

theorem witness_DeriveRecordsTheTreePaths :
    treeABC.Ok ∧ Tree.zero.root = none ∧ treeA.node[0]? = some (.leaf 0x41 10) ∧
      treeABC.node[4]? = some (.int 6 0 3) ∧ treeABC.PathTo [true, false] 0x63 :=
  ⟨treeABC_ok, rfl, rfl, rfl, 4, 2, 1, rfl, by decide, rfl⟩

theorem witness_DerivedCodeStatements :
    ∃ s t : State, s.priv.tree = buildTree s.priv.freq ∧ 2 ≤ leafCount s.priv.freq ∧ exec .derive s = .next t ∧
      (t.priv.code.at 0x61).valid = true := by
  obtain ⟨t, ht, hv⟩ := exists_of_nextIs (o := exec .derive builtABC)
    (p := fun t => (t.priv.code.at 0x61).valid) (by decide +kernel)
  exact ⟨builtABC, t, builtABC_tree, by rw [builtABC_leafCount]; decide, ht, hv⟩

theorem witness_EncodeConcatenatesTheCodes :
    (∃ s : State, s.inLen.toNat ≤ s.inCap ∧ s.input ≠ [] ∧ ∀ b ∈ s.input, (s.priv.code.at b).valid = true) ∧
    (∃ s : State, s.inLen.toNat ≤ s.inCap ∧ s.status.stage = 4 ∧
      ∃ b ∈ s.input, (s.priv.code.at b).valid = false) :=
  ⟨⟨{ idleAb with priv := { Private.zero with code := codes [(0x61, [false]), (0x62, [true])] } },
      idleAb_regsOk.inLen, by decide +kernel, by decide +kernel⟩,
    ⟨{ idleAb with status := Status.started 4 }, idleAb_regsOk.inLen, rfl, by decide +kernel⟩⟩

/-- "ab" counted and its tree built. -/
def builtAb : State :=
  { idleAb with priv := { Private.zero with
      freq := countBytes idleAb.input, tree := buildTree (countBytes idleAb.input) } }

theorem witness_EncodedLengthIsTheWeightedSum : ∃ s d : State, s.inLen.toNat ≤ s.inCap ∧ s.inLen ≠ 0 ∧
    s.priv.freq = countBytes s.input ∧ s.priv.tree = buildTree s.priv.freq ∧ exec .derive s = .next d := by
  obtain ⟨d, hd, -⟩ := exists_of_nextIs (o := exec .derive builtAb) (p := fun _ => true) (by decide +kernel)
  refine ⟨builtAb, d, by decide +kernel, by decide +kernel, ?_, ?_, hd⟩
  · show countBytes idleAb.input = _
    rfl
  · simp only [builtAb]

/-- A state whose payload is 1F 00 with padding 7, and one with no payload and padding 1. -/
def payloadABC : State := { State.reset with priv := { Private.zero with pay := [0x1F, 0x00], plen := 2, pad := 7 } }
def payloadNone : State :=
  { State.reset with status := Status.started 8, priv := { Private.zero with pad := 1 } }

theorem witness_UnpackStatements :
    (payloadABC.priv.plen = payloadABC.priv.pay.length ∧ payloadABC.priv.pad.toNat ≤ 8 * payloadABC.priv.plen) ∧
    (payloadNone.priv.plen = payloadNone.priv.pay.length ∧
      8 * payloadNone.priv.plen < payloadNone.priv.pad.toNat ∧ payloadNone.status.stage = 8) ∧
    (State.reset.priv.plen = State.reset.priv.pay.length ∧ State.reset.priv.plen = 0 ∧ State.reset.priv.pad = 0 ∧
      State.reset.priv.pad.toNat ≤ 8 * State.reset.priv.plen) := by
  decide +kernel

theorem witness_FillerBitsAreIgnored : ∃ (s t : State) (pay : List Byte),
    pay.length = s.priv.pay.length ∧ s.priv.plen = s.priv.pay.length ∧ pay ≠ s.priv.pay ∧
    (∀ m, m < 8 * s.priv.plen - s.priv.pad.toNat →
      (pay.getD (m / 8) 0).getLsbD (7 - m % 8) = (s.priv.pay.getD (m / 8) 0).getLsbD (7 - m % 8)) ∧
    s.priv.pad.toNat ≤ 8 * s.priv.plen ∧ exec .unpack s = .next t :=
  ⟨payloadABC, _, [0x1F, 0x7F], rfl, rfl, by decide, by decide +kernel, by decide +kernel,
    (execUnpack_next _ _).2 (.inr ⟨by decide +kernel, rfl⟩)⟩

/-- A state with the bits 000111110. -/
def bitsState : State := { State.reset with priv := { Private.zero with bitseq := bitsABC, nbits := 9 } }

theorem witness_PackAndUnpackAreInverse : bitsState.priv.nbits = bitsState.priv.bitseq.length := rfl

/-- A state ready for SERIALIZE, with one payload byte and one counter. -/
def serialState : State :=
  { State.reset with priv := { Private.zero with freq := counts [(0, 5)], pay := [0x28], plen := 1, pad := 3 } }

theorem witness_SerializeWritesTheContainer :
    serialState.priv.plen = serialState.priv.pay.length ∧ 1025 + serialState.priv.plen ≤ serialState.outCap := by
  decide +kernel

/-- A container of 1025 zero bytes but for the padding byte. -/
def headerOnly (p : Byte) : State := loaded (List.replicate 1024 0 ++ [p])

theorem witness_ParseReadsTheContainer : 1025 ≤ (headerOnly 7).inLen.toNat ∧
    (headerOnly 7).inLen.toNat ≤ (headerOnly 7).inCap ∧ ((headerOnly 7).ibufByte 1024).toNat ≤ 7 := by
  decide +kernel

theorem witness_ParseRaisesMalformedContainer :
    (∃ s : State, s.status.stage = 7 ∧ s.inLen.toNat = 1024) ∧
    (∃ s : State, s.status.stage = 7 ∧ s.inLen.toNat = 1025 ∧ s.inLen.toNat ≤ s.inCap ∧
      (s.ibufByte 1024).toNat = 8) :=
  ⟨⟨{ State.reset with status := Status.started 7, inLen := 1024 }, rfl, rfl⟩,
    ⟨{ headerOnly 8 with status := Status.started 7 }, rfl, by decide +kernel, by decide +kernel,
      by decide +kernel⟩⟩

/-- The state after SERIALIZE of `serialState`. -/
def serialDone : State :=
  { serialState with
    obuf := Memory.write serialState.obuf 0
      (containerBytes serialState.priv.freq serialState.priv.pad (serialState.priv.pay.take serialState.priv.plen))
    priv := { serialState.priv with clen := 1025 + serialState.priv.plen } }

theorem witness_ParseInvertsSerialize : ∃ s t u : State, s.priv.plen = s.priv.pay.length ∧
    exec .serialize s = .next t ∧ u.inLen.toNat = t.priv.clen ∧ u.inLen.toNat ≤ u.inCap ∧
    ∀ a, a < t.priv.clen → u.ibufByte a = t.obufByte a := by
  have hs : exec .serialize serialState = .next serialDone := by
    show execSerialize serialState = _
    rw [execSerialize_next]
    exact ⟨by decide +kernel, by rw [serialDone]⟩
  refine ⟨serialState, serialDone, { serialDone with ibuf := serialDone.obuf, inLen := 1026 },
    rfl, hs, by decide +kernel, by decide +kernel, fun a ha => ?_⟩
  obtain ⟨b, hb⟩ : ∃ b, Memory.read serialDone.obuf a = some b := by
    have hlt : a < (containerBytes serialState.priv.freq serialState.priv.pad
        (serialState.priv.pay.take serialState.priv.plen)).length := by
      rw [length_containerBytes]; exact ha
    have := Memory.read_write_inside serialState.obuf 0 a _ hlt
    exact ⟨_, by simpa [serialDone] using this⟩
  simp [State.ibufByte, State.obufByte, hb]

/-- A state ready for DECODE with the tree of "aaabbc" and the given bits. -/
def decodeState (q : Bits) : State :=
  { State.reset with
    status := Status.started 9, priv := { Private.zero with tree := treeABC, bitseq := q, nbits := q.length } }

theorem witness_DecodeFollowsTheTree :
    treeABC.Ok ∧ treeABC.root = some 4 ∧ treeABC.node[4]? = some (.int 6 0 3) ∧
    (decodeState [false, true, false]).priv.nbits ≤ (decodeState [false, true, false]).outCap ∧
    treeABC.Spells [false, true, false] [0x61, 0x63] ∧ treeABC.Spells [] [] ∧
    (∀ out, ¬ treeABC.Spells [true] out) := by
  refine ⟨treeABC_ok, rfl, rfl, by decide +kernel,
    ⟨[([false], 0x61), ([true, false], 0x63)], ?_, rfl, rfl⟩, ⟨[], by simp, rfl, rfl⟩, ?_⟩
  · intro p hp
    simp only [List.mem_cons, List.not_mem_nil, or_false] at hp
    rcases hp with rfl | rfl
    · exact ⟨4, 0, 3, rfl, by decide, rfl⟩
    · exact ⟨4, 2, 1, rfl, by decide, rfl⟩
  · rintro out ⟨ws, hp, hq, -⟩
    cases ws with
    | nil => simp at hq
    | cons p ws =>
      obtain ⟨r, j, w, hr, hf, hj⟩ := hp p (by simp)
      obtain rfl : 4 = r := by simpa [treeABC] using hr
      rcases hc : p.1 with _ | ⟨b, q⟩
      · rw [hc] at hf
        simp only [follow, Option.some.injEq] at hf
        subst hf; simp [treeABC] at hj
      · rw [List.flatMap_cons, hc] at hq
        simp only [List.cons_append, List.cons.injEq] at hq
        obtain ⟨rfl, hq⟩ := hq
        have : q = [] := (List.append_eq_nil_iff.1 hq.symm).1
        subst this
        rw [hc] at hf
        simp only [follow, treeABC, List.getElem?_cons_succ, List.getElem?_cons_zero, if_true,
          Option.some.injEq] at hf
        subst hf; simp [treeABC] at hj

theorem witness_SingleLeafDecodeCountsZeros :
    treeA.root = some 0 ∧ treeA.node[0]? = some (.leaf 0x41 10) ∧ true ∉ ([false, false] : Bits) ∧
      true ∈ ([false, true] : Bits) ∧ 2 ≤ State.reset.outCap := by decide +kernel

theorem witness_EmptyTreeEndsDecompress : ∃ s : State, s.RegsOk ∧ s.host = [] ∧ s.status.busy = true ∧
    s.status.stage = 2 ∧ s.priv.op = .decompress ∧ leafCount s.priv.freq = 0 ∧ s.priv.tree.root = none :=
  ⟨running .decompress 2#4 State.reset, regsOk_of _ (.inr (.inr ⟨rfl, rfl⟩))
    (by decide +kernel) (by decide +kernel) rfl (by decide +kernel), rfl, rfl, rfl, rfl, by decide +kernel, rfl⟩

/-- The tree of "aaabbc" beside the bits 010 ("ac"). -/
def codedAC : State :=
  { builtABC with priv := { builtABC.priv with bitseq := [false, true, false], nbits := 3 } }

theorem codedAC_tree : codedAC.priv.tree = buildTree codedAC.priv.freq := by
  simp only [codedAC, builtABC]

theorem witness_DecodeInvertsEncode : ∃ (s d : State) (bs : List Byte), s.priv.tree = buildTree s.priv.freq ∧
    exec .derive s = .next d ∧ (∀ b ∈ bs, s.priv.freq.at b ≠ 0) ∧
    s.priv.bitseq = bs.flatMap (fun b => (d.priv.code.at b).word) ∧ s.priv.nbits = s.priv.bitseq.length ∧
    s.priv.nbits ≤ s.outCap ∧ 1 ≤ leafCount s.priv.freq ∧ bs ≠ [] := by
  obtain ⟨d, hd, hw⟩ := exists_of_nextIs
    (o := exec .derive codedAC)
    (p := fun d => ([0x61, 0x63] : List Byte).flatMap (fun b => (d.priv.code.at b).word) == [false, true, false])
    (by decide +kernel)
  refine ⟨codedAC, d, [0x61, 0x63], codedAC_tree, hd, by decide +kernel, ?_, rfl, by decide +kernel,
    by decide +kernel, by simp⟩
  exact (beq_iff_eq.1 hw).symm

theorem witness_RaiseLeavesOnlyTheReport : ErrorKind.unknownByte ≠ .illegalCommand := by decide

theorem witness_EmptyInputIsReportedAfterCount : ∃ s : State,
    s.host = [] ∧ s.status.busy = true ∧ s.status.stage = 1 ∧ s.inLen = 0 :=
  ⟨running .compress 1#4 State.reset, rfl, rfl, rfl, rfl⟩

theorem witness_StagesRunInTheCommandOrder : ∃ s t : State,
    s.RegsOk ∧ s.host = [] ∧ s.status.busy = true ∧ step s = .next t := by
  obtain ⟨t, ht, -⟩ := exists_of_nextIs (o := step countingAb) (p := fun _ => true) (by decide +kernel)
  exact ⟨countingAb, t, countingAb_regsOk, rfl, rfl, ht⟩

theorem witness_EngineNeverWritesHostState : ∃ s t : State, engineStep s = .next t ∧ s.status.busy = true := by
  obtain ⟨t, ht, -⟩ := exists_of_nextIs (o := engineStep countingAb) (p := fun _ => true) (by decide +kernel)
  exact ⟨countingAb, t, ht, rfl⟩

/-- A busy state from which the meaning of an operation completes. -/
def busyFor : Instr → State
  | .compress => countingAb
  | .decompress => countingAb
  | .count => countingAb
  | .build => running .compress 2#4 builtABC
  | .derive => running .compress 3#4 builtABC
  | .encode => running .compress 4#4
      { idleAb with priv := { Private.zero with code := codes [(0x61, [false]), (0x62, [true])] } }
  | .pack => running .compress 5#4 bitsState
  | .serialize => running .compress 6#4 serialState
  | .parse => running .decompress 7#4 (headerOnly 7)
  | .unpack => running .decompress 8#4 payloadABC
  | .decode => decodeState [false, true, false]

theorem witness_StagesWriteOnlyTheirItems : ∀ i : Instr, ∃ s t : State,
    s.status.busy = true ∧ exec i s = .next t ∧ t.status.busy = true := by
  intro i
  obtain ⟨t, ht, hb⟩ := exists_of_nextIs (o := exec i (busyFor i)) (p := fun t => t.status.busy)
    (by cases i <;> decide +kernel)
  exact ⟨busyFor i, t, by cases i <;> rfl, ht, hb⟩

theorem witness_InvariantStatements : ∃ s t : State, s.Inv ∧ s.RegsOk ∧ s.status.busy = true ∧ step s = .next t := by
  obtain ⟨t, ht, -⟩ := exists_of_nextIs (o := step countingAb) (p := fun _ => true) (by decide +kernel)
  exact ⟨countingAb, t, countingAb_inv, countingAb_regsOk, rfl, ht⟩

theorem witness_WholeCommandStatements : idleAb.RegsOk ∧ idleAb.status.busy = false ∧ idleAb.inLen ≠ 0 ∧
    ∃ t, runScript 8 [scriptCompress, .wait] idleAb = .next t ∧ t.outLen.toNat ≤ idleAb.inCap := by
  obtain ⟨t, ht, hp⟩ := exists_of_nextIs compressAb_ends
  simp only [Bool.and_eq_true, decide_eq_true_eq] at hp
  exact ⟨idleAb_regsOk, rfl, by decide +kernel, t, ht, hp.1.1⟩

/-! The rows of R202 at their boundaries. -/

theorem loaded_input (bs : List Byte) (h : bs.length < 2 ^ 32) : (loaded bs).input = bs := by
  have hl : (loaded bs).inLen.toNat = bs.length := by
    simp only [loaded, BitVec.toNat_ofNat]; exact Nat.mod_eq_of_lt h
  apply List.ext_getElem?
  intro j
  rcases Nat.lt_or_ge j bs.length with hj | hj
  · rw [State.input, State.ibufBytes_getElem? _ _ _ _ (by omega)]
    simp [State.ibufByte, loaded, Memory.read_cells, hj]
  · rw [List.getElem?_eq_none hj, List.getElem?_eq_none (by simp [hl, hj])]

theorem loaded_regsOk (bs : List Byte) (h : bs.length < 2 ^ 32) : (loaded bs).RegsOk := by
  have hl : (loaded bs).inLen.toNat = bs.length := by
    simp only [loaded, BitVec.toNat_ofNat]; exact Nat.mod_eq_of_lt h
  have hc : (loaded bs).inCap = 2 ^ 32 - 1 := by simp [loaded, State.inCap, State.reset]
  refine regsOk_of _ (.inl rfl) (by omega) (Memory.wf_cells 0 bs) rfl ?_
  intro c hm
  have := Memory.mem_cells 0 bs c hm
  omega

/-- Every such container is the operand of an idle state with legal registers. -/
theorem witness_DecompressOutcomes_operand (c : List Byte) (h : c.length < 2 ^ 32) : ∃ s : State,
    s.RegsOk ∧ s.status.busy = false ∧ s.inLen.toNat = c.length ∧ s.input = c :=
  ⟨loaded c, loaded_regsOk c h, rfl, by
    simp only [loaded, BitVec.toNat_ofNat]; exact Nat.mod_eq_of_lt h, loaded_input c h⟩

/-- The row of R202 whose condition is the first to hold, 7 standing for the rows 7 and 8. -/
def outcomeRow (c : List Byte) : Nat :=
  if c.length < 1025 then 1
  else if 7 < Container.pad c then 2
  else if leafCount (Container.freq c) = 0 then 3
  else if c.length = 1025 ∧ 0 < Container.pad c then 4
  else if leafCount (Container.freq c) = 1 then (if true ∈ Container.bits c then 5 else 6)
  else 7

/-- The row of a container with PADB at most 7, from its counters, its padding count and its payload. -/
theorem outcomeRow_containerBytes (f : Table Word) (pad : BitVec 3) (pay : List Byte) :
    outcomeRow (containerBytes f pad pay) =
      if leafCount f = 0 then 3
      else if pay.length = 0 ∧ 0 < pad.toNat then 4
      else if leafCount f = 1 then (if true ∈ unpackBits pay (8 * pay.length - pad.toNat) then 5 else 6)
      else 7 := by
  have hp := pad.isLt
  simp only [outcomeRow, length_containerBytes, Container.pad_containerBytes, Container.freq_containerBytes,
    Container.bits_containerBytes, if_neg (show ¬ 1025 + pay.length < 1025 by omega),
    if_neg (show ¬ 7 < pad.toNat by omega), show 1025 + pay.length = 1025 ↔ pay.length = 0 by omega]

/-- The counters of "aaabbc". -/
def countsABC : Table Word := counts [(0x61, 3), (0x62, 2), (0x63, 1)]

theorem buildTree_countsABC : buildTree countsABC = treeABC := by decide +kernel

/-- IN_LEN 1024 is row 1; IN_LEN 1025 is row 2 with PADB 8. -/
theorem witness_DecompressOutcomes_rows_1_2 :
    [List.replicate 1024 0, List.replicate 1024 0 ++ [8]].map outcomeRow = [1, 2] := by decide +kernel

/-- IN_LEN 1025 and PADB 7 with no counter: row 3. With one counter: row 4 for PLEN 0 and PAD 1 or 7, row 6 for
PLEN 0 and PAD 0, and rows 5 and 6 for one payload bit. With three counters: rows 7 and 8. -/
theorem witness_DecompressOutcomes_rows_3_to_8 :
    ([(counts [], 7, []), (counts [(0, 9)], 1, []), (counts [(0, 9)], 7, []), (counts [(0, 9)], 0, []),
      (counts [(0, 9)], 7, [0x80]), (counts [(0, 9)], 7, [0x7F]), (countsABC, 7, [0x80]), (countsABC, 0, [])] :
      List (Table Word × BitVec 3 × List Byte)).map (fun x => outcomeRow (containerBytes x.1 x.2.1 x.2.2))
      = [3, 4, 4, 6, 5, 6, 7, 7] := by
  simp only [outcomeRow_containerBytes]
  decide +kernel

/-- Row 7: the bit 1 ends inside a code word. Row 8: no bits at all, PLEN 0 and PAD 0. -/
theorem witness_DecompressOutcomes_rows_7_8 :
    (∀ out, ¬ (buildTree (Container.freq (containerBytes countsABC 7 [0x80]))).Spells
      (Container.bits (containerBytes countsABC 7 [0x80])) out) ∧
    (buildTree (Container.freq (containerBytes countsABC 0 []))).Spells
      (Container.bits (containerBytes countsABC 0 [])) [] := by
  have h7 : Container.bits (containerBytes countsABC 7 [0x80]) = [true] := by
    rw [Container.bits_containerBytes]; decide
  have h8 : Container.bits (containerBytes countsABC 0 []) = [] := by
    rw [Container.bits_containerBytes]; decide
  rw [Container.freq_containerBytes, Container.freq_containerBytes, buildTree_countsABC, h7, h8]
  exact ⟨witness_DecodeFollowsTheTree.2.2.2.2.2.2, witness_DecodeFollowsTheTree.2.2.2.2.2.1⟩

theorem witness_OutcomeDependsOnTheOperandAlone : ∃ s u : State, s.RegsOk ∧ u.RegsOk ∧ s.status.busy = false ∧
    u.status.busy = false ∧ s.inLen = u.inLen ∧ s.input = u.input ∧ s.caps ≠ u.caps := by
  refine ⟨idleAb, { idleAb with caps := { inCap := 2, outExtra := 9 } }, idleAb_regsOk,
    regsOk_of _ (.inl rfl) (by decide +kernel) (by decide +kernel) rfl (by decide +kernel),
    rfl, rfl, rfl, rfl, by decide +kernel⟩

end Sys2Proof.Tests
end

section
/-! PROOFS. The step by what it can do: the one move of the host at the head of the script, or one stage of the
engine and what the sequencer does after it. -/

namespace Sys2Proof.Machine

/-! ### Which move a step makes -/

theorem step_of_host_nil (s : State) (h : s.host = []) : step s = engineStep s := by
  simp [step, stepMachine, h]

theorem step_of_host_cons (s : State) (m : HostMove) (rest : List HostMove) (h : s.host = m :: rest) :
    step s = hostMove m { s with host := rest } := by
  simp [step, stepMachine, h]

/-! ### What a host move can do -/

/-- The effect of a host move that leaves the engine no step: nothing, a read, a change of the operand while idle, a
command start while idle, the report of a reserved OP while idle, or a reset. -/
inductive HostEffect (s : State) : State → Prop
  | nothing : HostEffect s s
  | reads (v : Len) (n : Nat) : HostEffect s { s with rdata := v, draws := n }
  | setsInLen (v : Word) (idle : s.status.busy = false) (fits : v.toNat ≤ s.inCap) :
      HostEffect s { s with inLen := v }
  | writesByte (a : Nat) (b : Byte) (idle : s.status.busy = false) (fits : a < s.inCap) :
      HostEffect s { s with ibuf := Memory.write s.ibuf a [b] }
  | loads (bs : List Byte) (idle : s.status.busy = false) (fits : bs.length ≤ s.inCap) :
      HostEffect s (s.loadInput bs)
  | starts (op : Command) (c : BitVec 4) (idle : s.status.busy = false) (first : op.stages.head? = some c) :
      HostEffect s (s.startCommand op c)
  | illegal (idle : s.status.busy = false) :
      HostEffect s (State.raise { s with status := { s.status with stage := 0 } } .illegalCommand)
  | resets : HostEffect s s.assertReset

/-- A CMD write decodes to one of the two host commands or is reserved (R87). -/
theorem decodeCmd_cases (w : Word) :
    decodeCmd w = .ok .compress ∨ decodeCmd w = .ok .decompress ∨ ∃ e, decodeCmd w = .error e := by
  unfold decodeCmd
  split
  · exact .inl rfl
  · split
    · exact .inr (.inl rfl)
    · exact .inr (.inr ⟨_, rfl⟩)

theorem writeCmd_effect (w : Word) (s t : State) (h : writeCmd w s = .next t) : HostEffect s t := by
  unfold writeCmd at h
  rcases decodeCmd_cases w with hd | hd | ⟨e, hd⟩ <;> simp only [decodeWord, hd] at h
  · rcases (execCompress_next s t).1 h with ⟨-, rfl⟩ | ⟨hb, rfl⟩
    · exact .nothing
    · exact .starts _ _ hb rfl
  · rcases (execDecompress_next s t).1 h with ⟨-, rfl⟩ | ⟨hb, rfl⟩
    · exact .nothing
    · exact .starts _ _ hb rfl
  · obtain rfl : s.illegalCommand = t := Host.Outcome.next.inj h
    unfold State.illegalCommand
    split
    · exact .nothing
    · next hb => exact .illegal (by simpa using hb)

/-- A host value that is at most IN_CAP fits the 32 bits of IN_LEN. -/
theorem State.toNat_setWidth_of_le_inCap (s : State) (v : Len) (h : v.toNat ≤ s.inCap) :
    (v.setWidth 32).toNat = v.toNat := by
  have hc : s.inCap < 2 ^ 32 := s.caps.inCap.isLt
  rw [BitVec.toNat_setWidth, Nat.mod_eq_of_lt (by omega)]

theorem writeInLen_effect (v : Len) (s t : State) (h : writeInLen v s = .next t) : HostEffect s t := by
  unfold writeInLen at h
  split at h
  · simp at h
  · next hb =>
    split at h
    · next hv =>
      obtain rfl := Host.Outcome.next.inj h
      exact .setsInLen _ (by simpa using hb) (by rwa [s.toNat_setWidth_of_le_inCap v hv])
    · simp at h

theorem writeReg_effect (n : Nat) (v : Len) (s t : State) (h : writeReg n v s = .next t) : HostEffect s t := by
  unfold writeReg at h
  split at h
  · exact writeCmd_effect _ s t h
  · obtain rfl := Host.Outcome.next.inj h; exact .nothing
  · exact writeInLen_effect v s t h
  · obtain rfl := Host.Outcome.next.inj h; exact .nothing
  · simp at h

theorem State.deliver_effect (s : State) (v : Len) : HostEffect s (s.deliver v) := .reads v s.draws

theorem State.deliverFree_effect (s : State) : HostEffect s s.deliverFree := .reads _ _

theorem readReg_effect (n : Nat) (s t : State) (h : readReg n s = .next t) : HostEffect s t := by
  unfold readReg at h
  split at h
  · obtain rfl := Host.Outcome.next.inj h; exact s.deliver_effect _
  · obtain rfl := Host.Outcome.next.inj h
    unfold State.readStatus
    split
    · exact .reads _ _
    · exact s.deliver_effect _
  · obtain rfl := Host.Outcome.next.inj h; exact s.deliver_effect _
  · obtain rfl := Host.Outcome.next.inj h
    split
    · exact s.deliverFree_effect
    · exact s.deliver_effect _
  · simp at h

theorem writeIbuf_effect (a : Nat) (b : Byte) (s t : State) (h : writeIbuf a b s = .next t) : HostEffect s t := by
  unfold writeIbuf at h
  split at h
  · simp at h
  · next ha =>
    split at h
    · simp at h
    · next hb =>
      obtain rfl := Host.Outcome.next.inj h
      exact .writesByte a b (by simpa using hb) (by omega)

theorem readIbuf_effect (a : Nat) (s t : State) (h : readIbuf a s = .next t) : HostEffect s t := by
  unfold readIbuf at h
  split at h
  · simp at h
  · split at h <;> obtain rfl := Host.Outcome.next.inj h
    · exact s.deliverFree_effect
    · exact s.deliver_effect _

theorem readObuf_effect (a : Nat) (s t : State) (h : readObuf a s = .next t) : HostEffect s t := by
  unfold readObuf at h
  split at h
  · simp at h
  · split at h <;> obtain rfl := Host.Outcome.next.inj h
    · exact s.deliverFree_effect
    · exact s.deliver_effect _

theorem loadBytes_effect (bs : List Byte) (s t : State) (h : loadBytes bs s = .next t) : HostEffect s t := by
  unfold loadBytes at h
  split at h
  · simp at h
  · next hl =>
    split at h
    · simp at h
    · next hb =>
      obtain rfl := Host.Outcome.next.inj h
      exact .loads bs (by simpa using hb) (by omega)

theorem moveResult_effect (s t : State) (h : moveResult s = .next t) : HostEffect s t := by
  unfold moveResult at h
  split at h
  · simp at h
  · next hb =>
    split at h
    · simp at h
    · next hl =>
      obtain rfl := Host.Outcome.next.inj h
      exact .loads _ (by simpa using hb) (by simpa using hl)

/-- What a host move can do: its own effect, or the engine's step with the script as the move leaves it. -/
theorem hostMove_cases (m : HostMove) (s t : State) (h : hostMove m s = .next t) :
    HostEffect s t ∨ ∃ ms, engineStep { s with host := ms } = .next t := by
  cases m with
  | reset => obtain rfl := Host.Outcome.next.inj h; exact .inl .resets
  | wrReg n v => exact .inl (writeReg_effect n v s t h)
  | rdReg n => exact .inl (readReg_effect n s t h)
  | wrIbuf a b => exact .inl (writeIbuf_effect a b s t h)
  | rdIbuf a => exact .inl (readIbuf_effect a s t h)
  | rdObuf a => exact .inl (readObuf_effect a s t h)
  | load bs => exact .inl (loadBytes_effect bs s t h)
  | move => exact .inl (moveResult_effect s t h)
  | wait =>
    simp only [hostMove] at h
    split at h
    · obtain rfl := Host.Outcome.next.inj h; exact .inl .nothing
    · exact .inr ⟨_, h⟩
  | pass => exact .inr ⟨s.host, h⟩

/-- What a step can do, the script aside. -/
theorem step_cases (s t : State) (h : step s = .next t) :
    ∃ ms, HostEffect { s with host := ms } t ∨ engineStep { s with host := ms } = .next t := by
  cases hh : s.host with
  | nil => exact ⟨s.host, .inr (step_of_host_nil s hh ▸ h)⟩
  | cons m rest =>
    rw [step_of_host_cons s m rest hh] at h
    rcases hostMove_cases m _ t h with he | ⟨ms, he⟩
    · exact ⟨rest, .inl he⟩
    · exact ⟨ms, .inr he⟩

/-! ### What an engine step can do -/

/-- The stage code that decodes to an operation is the one the encoder writes (R88). -/
theorem encodeWord_of_decodeStage (c : BitVec 4) (i : Instr) (h : decodeStage c = .ok i) :
    encodeWord i = .stage c := by
  revert c
  cases i <;> decide

/-- Decoding undoes encoding (R87, R88). -/
theorem decodeWord_encodeWord (i : Instr) : decodeWord (encodeWord i) = .ok i := by cases i <;> rfl

/-! What the sequencer does after COUNT and BUILD, the two stages after which it has a choice (R102, R196, R200). -/

theorem State.advance_count_of_empty (s : State) (h : s.inLen = 0) : s.advance .count = s.raise .emptyInput :=
  if_pos h

theorem State.advance_count_of_ne (s : State) (h : s.inLen ≠ 0) : s.advance .count = s.enter 2#4 :=
  if_neg h

theorem State.advance_build_of_compress (s : State) (h : s.priv.op = .compress) :
    s.advance .build = s.enter 3#4 := by
  simp [State.advance, h]

theorem State.advance_build_of_no_tree (s : State) (h : s.priv.op = .decompress) (ht : s.priv.tree.root = none) :
    s.advance .build = s.endCommand 0 := by
  simp [State.advance, h, Tree.isEmpty, ht]

theorem State.advance_build_of_tree (s : State) (h : s.priv.op = .decompress) (ht : s.priv.tree.root ≠ none) :
    s.advance .build = s.enter 8#4 := by
  simp [State.advance, h, Tree.isEmpty, ht]

/-- A property is kept by every engine step when it does not look at the hidden registers and every stage of a
running command, with what follows it, keeps it. -/
theorem engineStep_keeps (P : State → Prop)
    (hidden : ∀ s, P s → P s.stirHidden)
    (stage : ∀ s s' i, P s → s.status.busy = true → encodeWord i = .stage s.status.stage →
      exec i s = .next s' → P (s'.afterStage i))
    (s t : State) (hs : P s) (h : engineStep s = .next t) : P t := by
  cases hb : s.status.busy with
  | false =>
    rw [engineStep_idle s hb] at h
    exact Host.Outcome.next.inj h ▸ hs
  | true =>
    obtain ⟨i, s', hd, hx, rfl⟩ := (engineStep_busy s t hb).1 h
    exact stage s.stirHidden s' i (hidden s hs) hb (encodeWord_of_decodeStage _ i hd) hx

/-- The induction over steps, once: a property that does not look at the script is kept by every step when every
host effect and every engine step keeps it. -/
theorem step_keeps (P : State → Prop)
    (script : ∀ s ms, P s → P { s with host := ms })
    (host : ∀ s t, P s → HostEffect s t → P t)
    (engine : ∀ s t, P s → engineStep s = .next t → P t)
    (s t : State) (hs : P s) (h : step s = .next t) : P t := by
  obtain ⟨ms, he | he⟩ := step_cases s t h
  · exact host _ t (script s ms hs) he
  · exact engine _ t (script s ms hs) he

end Sys2Proof.Machine
end

section
/-! PROOFS. The registers: how each state update keeps a legal STATUS and buffers in range, and the step invariant
assembled from it. -/

namespace Sys2Proof.Machine

/-! ### A legal STATUS, by BUSY -/

theorem Status.legal_of_busy (st : Status) (op : Command) (h : st.busy = true) :
    st.Legal op ↔ st.done = false ∧ st.err = 0 ∧ st.stage ∈ op.stages := by
  unfold Status.Legal
  cases hd : st.done <;> simp [h]

theorem Status.ended_legal (st : Status) (op : Command) (h : st.err = 0) : st.ended.Legal op := by
  simp [Status.Legal, Status.ended, h]

theorem Status.faulted_legal (st : Status) (op : Command) (k : ErrorKind) (h : (k.code, st.stage) ∈ faultCauses) :
    (st.faulted k).Legal op := .inr h

/-- UnknownByte is a cause at ENCODE only (R216). -/
theorem stage_eq_four_of_unknownByte (c : BitVec 4) (h : (ErrorKind.unknownByte.code, c) ∈ faultCauses) : c = 4 := by
  revert c; decide

theorem Status.started_legal (op : Command) (c : BitVec 4) (h : c ∈ op.stages) : (Status.started c).Legal op :=
  ⟨rfl, h⟩

/-! ### The register invariant under each state update -/

namespace State.RegsOk

variable {s : State}

/-- What the register invariant says of a running command. -/
theorem busy_status (h : s.RegsOk) (hb : s.status.busy = true) :
    s.status.done = false ∧ s.status.err = 0 ∧ s.status.stage ∈ s.priv.op.stages :=
  (s.status.legal_of_busy _ hb).1 h.status

/-- The register invariant looks at STATUS, OP, IN_LEN, the buffers and the capacities only. -/
theorem congr (h : s.RegsOk) (t : State) (status : t.status = s.status) (op : t.priv.op = s.priv.op)
    (inLen : t.inLen = s.inLen) (caps : t.caps = s.caps) (ibuf : t.ibuf = s.ibuf) (obuf : t.obuf = s.obuf) :
    t.RegsOk := by
  obtain ⟨h1, h2, h3, h4, h5, h6⟩ := h
  constructor
  · rwa [status, op]
  · rwa [inLen, State.inCap, caps]
  · rwa [ibuf]
  · rwa [obuf]
  · rwa [ibuf, State.inCap, caps]
  · rwa [obuf, State.outCap, caps]

/-- A stage may write every item of the engine but OP. -/
theorem withPriv (h : s.RegsOk) (p : Private) (op : p.op = s.priv.op) : State.RegsOk { s with priv := p } :=
  h.congr _ rfl op rfl rfl rfl rfl

/-- A store to OBUF within OUT_CAP. -/
theorem withObuf (h : s.RegsOk) (bs : List Byte) (fits : bs.length ≤ s.outCap) :
    State.RegsOk { s with obuf := Memory.write s.obuf 0 bs } :=
  ⟨h.status, h.inLen, h.ibufWf, Memory.wf_write _ _ _ h.obufWf, h.ibufBelow,
    Memory.below_write _ _ s.outCap _ h.obufBelow (by omega)⟩

/-- A store to IBUF within IN_CAP. -/
theorem withIbuf (h : s.RegsOk) (a : Nat) (bs : List Byte) (fits : a + bs.length ≤ s.inCap) :
    State.RegsOk { s with ibuf := Memory.write s.ibuf a bs } :=
  ⟨h.status, h.inLen, Memory.wf_write _ _ _ h.ibufWf, h.obufWf, Memory.below_write _ _ _ _ h.ibufBelow fits,
    h.obufBelow⟩

theorem withInLen (h : s.RegsOk) (v : Word) (fits : v.toNat ≤ s.inCap) : State.RegsOk { s with inLen := v } :=
  ⟨h.status, fits, h.ibufWf, h.obufWf, h.ibufBelow, h.obufBelow⟩

theorem loadInput (h : s.RegsOk) (bs : List Byte) (fits : bs.length ≤ s.inCap) : (s.loadInput bs).RegsOk :=
  (h.withIbuf 0 bs (by omega)).withInLen _ (Nat.le_trans (by simpa using Nat.mod_le _ _) fits)

theorem startCommand (h : s.RegsOk) (op : Command) (c : BitVec 4) (first : c ∈ op.stages) :
    (s.startCommand op c).RegsOk :=
  ⟨Status.started_legal op c first, h.inLen, h.ibufWf, List.Pairwise.nil, h.ibufBelow, by simp⟩

theorem raise (h : s.RegsOk) (k : ErrorKind) (cause : (k.code, s.status.stage) ∈ faultCauses) : (s.raise k).RegsOk :=
  ⟨s.status.faulted_legal _ k cause, h.inLen, h.ibufWf, List.Pairwise.nil, h.ibufBelow, by simp⟩

theorem endCommand (h : s.RegsOk) (n : Nat) (noError : s.status.err = 0) : (s.endCommand n).RegsOk :=
  ⟨s.status.ended_legal _ noError, h.inLen, h.ibufWf, h.obufWf, h.ibufBelow, h.obufBelow⟩

theorem enter (h : s.RegsOk) (c : BitVec 4) (hb : s.status.busy = true) (next : c ∈ s.priv.op.stages) :
    (s.enter c).RegsOk := by
  obtain ⟨hd, he, -⟩ := h.busy_status hb
  exact ⟨(Status.legal_of_busy (s.enter c).status _ hb).2 ⟨hd, he, next⟩, h.inLen, h.ibufWf, h.obufWf,
    h.ibufBelow, h.obufBelow⟩

theorem assertReset (s : State) : s.assertReset.RegsOk :=
  ⟨⟨rfl, rfl⟩, Nat.zero_le _, List.Pairwise.nil, List.Pairwise.nil, by simp, by simp⟩

/-- The report of a reserved OP, STAGE 0 (R205, R222). -/
theorem illegalCommand (h : s.RegsOk) :
    (State.raise { s with status := { s.status with stage := 0 } } .illegalCommand).RegsOk :=
  ⟨Status.faulted_legal _ _ _ (by simp [ErrorKind.code, faultCauses]), h.inLen, h.ibufWf, List.Pairwise.nil,
    h.ibufBelow, by simp⟩

/-- Every effect of a host move keeps the register invariant. -/
theorem hostEffect (h : s.RegsOk) (t : State) (he : HostEffect s t) : t.RegsOk := by
  cases he with
  | nothing => exact h
  | reads v n => exact h.congr _ rfl rfl rfl rfl rfl rfl
  | setsInLen v _ fits => exact h.withInLen v fits
  | writesByte a b _ fits => exact h.withIbuf a [b] (by simpa using fits)
  | loads bs _ fits => exact h.loadInput bs fits
  | starts op c _ first => exact h.startCommand op c (List.mem_of_head? first)
  | illegal _ => exact h.illegalCommand
  | resets => exact assertReset s

end State.RegsOk

/-! ### The stages -/

/-- What a stage can leave, the sequencer's part aside, as far as the registers go: a fault it may report at its
STAGE, or a state that still runs, with STATUS and OP as they were. -/
theorem exec_stage_regs (s s' : State) (i : Instr) (h : s.RegsOk) (hc : encodeWord i = .stage s.status.stage)
    (hx : exec i s = .next s') :
    (∃ k, s' = s.raise k ∧ (k.code, s.status.stage) ∈ faultCauses) ∨
      (s'.RegsOk ∧ s'.status = s.status ∧ s'.priv.op = s.priv.op) := by
  have obufGone : ∀ (m : Memory) (k : ErrorKind), State.raise { s with obuf := m } k = s.raise k := fun _ _ => rfl
  have cause : ∀ (k : ErrorKind) (c : BitVec 4), encodeWord i = .stage c → (k.code, c) ∈ faultCauses →
      (k.code, s.status.stage) ∈ faultCauses := fun k c hi hm => CodeWord.stage.inj (hi.symm.trans hc) ▸ hm
  cases i with
  | compress => simp [encodeWord] at hc
  | decompress => simp [encodeWord] at hc
  | count =>
    obtain ⟨-, rfl⟩ := (execCount_next s s').1 hx
    exact .inr ⟨h.withPriv _ rfl, rfl, rfl⟩
  | build =>
    obtain rfl := (execBuild_next s s').1 hx
    exact .inr ⟨h.withPriv _ rfl, rfl, rfl⟩
  | derive =>
    obtain ⟨cs, -, rfl⟩ := (execDerive_next s s').1 hx
    exact .inr ⟨h.withPriv _ rfl, rfl, rfl⟩
  | encode =>
    obtain ⟨-, ⟨-, rfl⟩ | ⟨q, -, rfl⟩⟩ := (execEncode_next s s').1 hx
    · exact .inl ⟨_, rfl, cause _ _ rfl (by decide)⟩
    · exact .inr ⟨h.withPriv _ rfl, rfl, rfl⟩
  | pack =>
    obtain rfl := (execPack_next s s').1 hx
    exact .inr ⟨h.withPriv _ rfl, rfl, rfl⟩
  | serialize =>
    obtain ⟨fits, rfl⟩ := (execSerialize_next s s').1 hx
    exact .inr ⟨(h.withObuf _ (by simpa [Nat.add_comm] using fits)).withPriv _ rfl, rfl, rfl⟩
  | parse =>
    rcases (execParse_next s s').1 hx with ⟨-, rfl⟩ | ⟨-, -, -, rfl⟩ | ⟨-, -, -, rfl⟩
    · exact .inl ⟨_, rfl, cause _ _ rfl (by decide)⟩
    · exact .inl ⟨_, rfl, cause _ _ rfl (by decide)⟩
    · exact .inr ⟨h.withPriv _ rfl, rfl, rfl⟩
  | unpack =>
    rcases (execUnpack_next s s').1 hx with ⟨-, rfl⟩ | ⟨-, rfl⟩
    · exact .inl ⟨_, rfl, cause _ _ rfl (by decide)⟩
    · exact .inr ⟨h.withPriv _ rfl, rfl, rfl⟩
  | decode =>
    rcases (execDecode_next s s').1 hx with
      ⟨-, rfl⟩ | ⟨root, -, ⟨out, -, -, rfl⟩ | ⟨cur, out, -, fits, ⟨-, rfl⟩ | ⟨-, rfl⟩⟩⟩
    · exact .inr ⟨h.withPriv _ rfl, rfl, rfl⟩
    · exact .inl ⟨_, obufGone _ _, cause _ _ rfl (by decide)⟩
    · exact .inr ⟨(h.withObuf out fits).withPriv _ rfl, rfl, rfl⟩
    · exact .inl ⟨_, obufGone _ _, cause _ _ rfl (by decide)⟩

/-- The sequencer keeps the register invariant: the stage it enters is one of the command, the error it raises one of
the stage, and it ends a command that has no error to report. -/
theorem State.RegsOk.advance {s : State} (h : s.RegsOk) (hb : s.status.busy = true) (i : Instr)
    (hc : encodeWord i = .stage s.status.stage) : (s.advance i).RegsOk := by
  obtain ⟨-, he, hm⟩ := h.busy_status hb
  cases i <;> simp only [encodeWord, CodeWord.stage.injEq, reduceCtorEq] at hc <;> rw [← hc] at hm
  case count =>
    by_cases hz : s.inLen = 0
    · rw [s.advance_count_of_empty hz]
      exact h.raise _ (by rw [← hc]; decide)
    · rw [s.advance_count_of_ne hz]
      exact h.enter _ hb (by cases s.priv.op <;> decide)
  case build =>
    cases hop : s.priv.op with
    | compress =>
      rw [s.advance_build_of_compress hop]
      exact h.enter _ hb (by rw [hop]; decide)
    | decompress =>
      by_cases ht : s.priv.tree.root = none
      · rw [s.advance_build_of_no_tree hop ht]
        exact h.endCommand _ he
      · rw [s.advance_build_of_tree hop ht]
        exact h.enter _ hb (by rw [hop]; decide)
  case serialize => exact h.endCommand _ he
  case decode => exact h.endCommand _ he
  all_goals
    refine h.enter _ hb ?_
    revert hm
    cases s.priv.op <;> decide

/-- A stage with what follows it keeps the register invariant. -/
theorem State.RegsOk.afterStage {s : State} (h : s.RegsOk) (s' : State) (i : Instr) (hb : s.status.busy = true)
    (hc : encodeWord i = .stage s.status.stage) (hx : exec i s = .next s') : (s'.afterStage i).RegsOk := by
  rcases exec_stage_regs s s' i h hc hx with ⟨k, rfl, cause⟩ | ⟨h', hst, -⟩
  · rw [State.afterStage_ended _ _ rfl]
    exact h.raise k cause
  · have hb' : s'.status.busy = true := by rw [hst, hb]
    rw [State.afterStage_running _ _ hb']
    exact h'.advance hb' i (by rw [hst, hc])

theorem engineStep_keeps_regsOk (s t : State) (h : s.RegsOk) (he : engineStep s = .next t) : t.RegsOk :=
  engineStep_keeps State.RegsOk (fun _ h => h.congr _ rfl rfl rfl rfl rfl rfl)
    (fun _ s' i h hb hc hx => h.afterStage s' i hb hc hx) s t h he

/-- Settles O52: every effect of the host and every stage with what follows it keeps the registers legal. -/
theorem everyStepKeepsTheRegistersLegal : Obligations.EveryStepKeepsTheRegistersLegal :=
  step_keeps State.RegsOk (fun _ _ h => h.congr _ rfl rfl rfl rfl rfl rfl) (fun _ t h he => h.hostEffect t he)
    engineStep_keeps_regsOk

end Sys2Proof.Machine
end

section
/-! PROOFS. BUILD covers the table: every byte value with a non-zero counter has a leaf, every record hangs below
ROOT, and so DERIVE gives each of these byte values a code. -/

namespace Sys2Proof.Machine

/-! ### Walks on a growing arena -/

theorem follow_nil (node : List Node) (i : Nat) : follow node i [] = some i := rfl

theorem follow_cons_of_int (node : List Node) (i w l r : Nat) (b : Bool) (q : Bits)
    (h : node[i]? = some (.int w l r)) : follow node i (b :: q) = follow node (if b then r else l) q := by
  simp [follow, h]

/-- A walk that succeeds stays the same walk when records are appended. -/
theorem follow_append (node more : List Node) (q : Bits) (i j : Nat) (h : follow node i q = some j) :
    follow (node ++ more) i q = some j := by
  induction q generalizing i with
  | nil => exact h
  | cons b q ih =>
    cases hn : node[i]? with
    | none => simp [follow, hn] at h
    | some n =>
      have hn' : (node ++ more)[i]? = some n := by
        rw [List.getElem?_append_left (List.getElem?_eq_some_iff.1 hn).1, hn]
      cases n with
      | leaf sym w => simp [follow, hn] at h
      | int w l r =>
        rw [follow_cons_of_int _ _ _ _ _ _ _ hn] at h
        rw [follow_cons_of_int _ _ _ _ _ _ _ hn']
        exact ih _ h

/-! ### Every record hangs below a live node -/

/-- NN counts the records, and every record is reached from some element of LIVE. -/
structure Tree.Covered (t : Tree) : Prop where
  count : t.node.length = t.nn
  reach : ∀ j, j < t.node.length → ∃ i ∈ t.live, ∃ q, follow t.node i q = some j

/-- Appending a record that is live keeps what was reached, if each element taken out of LIVE is reached from the
new record. -/
theorem Tree.Covered.append {t : Tree} (h : t.Covered) (n : Node) (live : List Nat)
    (reached : ∀ i ∈ t.live, ∃ k ∈ live ++ [t.nn], ∃ q, ∀ j p,
      follow (t.node ++ [n]) i p = some j → follow (t.node ++ [n]) k (q ++ p) = some j) :
    Tree.Covered { t with node := t.node ++ [n], live := live ++ [t.nn], nn := t.nn + 1 } := by
  refine ⟨by simp [h.count], fun j hj => ?_⟩
  rcases Nat.lt_or_ge j t.node.length with hlt | hge
  · obtain ⟨i, hi, p, hp⟩ := h.reach j hlt
    obtain ⟨k, hk, q, hq⟩ := reached i hi
    exact ⟨k, hk, q ++ p, hq j p (follow_append _ _ _ _ _ hp)⟩
  · have hj' : j = t.nn := by simp at hj; have := h.count; omega
    exact ⟨t.nn, by simp, [], by rw [hj', follow_nil]⟩

theorem leafTree_covered (f : Table Word) : (leafTree f).Covered := by
  refine scanLeaves_induct Tree.Covered (fun t s w h => ?_) _ _ _ ⟨rfl, by simp [Tree.zero]⟩
  exact h.append _ _ fun i hi => ⟨i, by simp [hi], [], fun _ _ hp => hp⟩

/-- One merge keeps every record reached: what hung below the two nodes taken from LIVE hangs below the new one. -/
theorem mergeOnce_covered (t t' : Tree) (h : t.Covered) (hm : mergeOnce t = some t') : t'.Covered := by
  obtain ⟨a, b, -, -, rfl⟩ := mergeOnce_cases t t' hm
  have new : (t.node ++ [Node.int (nodeWeight t.node a + nodeWeight t.node b) a b])[t.nn]? =
      some (Node.int (nodeWeight t.node a + nodeWeight t.node b) a b) := by
    rw [← h.count]; simp
  refine h.append _ _ fun i hi => ?_
  by_cases ha : i = a
  · subst ha
    exact ⟨t.nn, by simp, [false], fun j p hp => (follow_cons_of_int _ _ _ _ _ _ _ new).trans hp⟩
  · by_cases hb : i = b
    · subst hb
      exact ⟨t.nn, by simp, [true], fun j p hp => (follow_cons_of_int _ _ _ _ _ _ _ new).trans hp⟩
    · have hi' : i ∈ (t.live.erase a).erase b :=
        (List.mem_erase_of_ne hb).2 ((List.mem_erase_of_ne ha).2 hi)
      exact ⟨i, by simp [hi'], [], fun _ _ hp => hp⟩

/-! ### A leaf for every non-zero counter -/

theorem scanLeaves_keeps_record (n : Node) (fs : List Word) (s : Nat) (t : Tree) (h : n ∈ t.node) :
    n ∈ (scanLeaves fs s t).node :=
  scanLeaves_induct (fun t => n ∈ t.node) (fun _ _ _ h => List.mem_append_left _ h) fs s t h

/-- The scan makes the leaf of every non-zero counter (R110). -/
theorem leaf_mem_scanLeaves (fs : List Word) (s k : Nat) (t : Tree) (f : Word) (hk : fs[k]? = some f) (hf : f ≠ 0) :
    Node.leaf (BitVec.ofNat 8 (s + k)) f.toNat ∈ (scanLeaves fs s t).node := by
  induction fs generalizing s k t with
  | nil => simp at hk
  | cons g fs ih =>
    rw [scanLeaves]
    cases k with
    | zero =>
      obtain rfl : g = f := by simpa using hk
      rw [if_neg hf]
      exact scanLeaves_keeps_record _ _ _ _ (by simp)
    | succ k =>
      rw [show s + (k + 1) = s + 1 + k by omega]
      split <;> exact ih (s + 1) k _ (by simpa using hk)

theorem leaf_mem_leafTree (f : Table Word) (b : Byte) (h : f.at b ≠ 0) :
    Node.leaf b (f.at b).toNat ∈ (leafTree f).node := by
  have := leaf_mem_scanLeaves f.toList 0 b.toNat Tree.zero (f.at b) (Table.toList_getElem? f b) h
  rwa [Nat.zero_add, BitVec.ofNat_toNat, BitVec.setWidth_eq] at this

theorem mergeOnce_keeps_record (n : Node) (t t' : Tree) (h : n ∈ t.node) (hm : mergeOnce t = some t') :
    n ∈ t'.node := by
  obtain ⟨a, b, -, -, rfl⟩ := mergeOnce_cases t t' hm
  exact List.mem_append_left _ h

/-- Every byte value with a non-zero counter is the end of a path from ROOT (R118 (e)). -/
theorem buildTree_pathTo (f : Table Word) (b : Byte) (h : f.at b ≠ 0) : ∃ q, (buildTree f).PathTo q b := by
  obtain ⟨t, ⟨hcov, hleaf⟩, hlive, he⟩ :=
    buildTree_induct (fun t => t.Covered ∧ Node.leaf b (f.at b).toNat ∈ t.node) f
      ⟨leafTree_covered f, leaf_mem_leafTree f b h⟩
      (fun t t' h hm => ⟨mergeOnce_covered t t' h.1 hm, mergeOnce_keeps_record _ t t' h.2 hm⟩)
  obtain ⟨j, hj⟩ := List.mem_iff_getElem?.1 hleaf
  obtain ⟨i, hi, q, hq⟩ := hcov.reach j (List.getElem?_eq_some_iff.1 hj).1
  have hone : t.live = [i] := by
    match hl : t.live, hi, hlive with
    | [x], hi, _ => rw [List.mem_singleton.1 hi]
  have hroot : t.setRoot.root = some i := by simp [Tree.setRoot, hone]
  exact ⟨q, i, j, _, by rw [he, hroot], by rwa [he, Tree.setRoot_node], by rwa [he, Tree.setRoot_node]⟩

/-! ### A code for every non-zero counter -/

/-- DERIVE's walk records every byte value that ends a path from ROOT. -/
theorem mem_treeCodes_of_pathTo (t : Tree) (cs : List (Byte × Bits)) (q : Bits) (b : Byte)
    (hc : treeCodes t = some cs) (hp : t.PathTo q b) : ∃ p, (b, p) ∈ cs := by
  obtain ⟨r, j, w, hr, hf, hj⟩ := hp
  simp only [treeCodes, hr] at hc
  cases hn : t.node[r]? with
  | none => simp [hn] at hc
  | some n =>
    cases n with
    | leaf sym w' =>
      obtain rfl : [(sym, [false])] = cs := by simpa [hn] using hc
      cases q with
      | nil =>
        obtain rfl : r = j := Option.some.inj hf
        obtain ⟨rfl, -⟩ := Node.leaf.inj (Option.some.inj (hn.symm.trans hj))
        exact ⟨[false], by simp⟩
      | cons x q => simp [follow, hn] at hf
    | int w' l r' =>
      have hv : visit t.node t.node.length r [] = some cs := by simpa [hn] using hc
      exact ⟨q, (visit_mem _ _ _ _ _ hv b q).2 ⟨q, j, w, by simp, hf, hj⟩⟩

theorem recordCode_valid (code : Table CodeEntry) (c : Byte × Bits) (b : Byte) :
    ((recordCode code c).at b).valid = (decide (c.1 = b) || (code.at b).valid) := by
  rw [recordCode, Table.at_put]
  by_cases h : c.1 = b <;> simp [h]

/-- A byte value is valid after DERIVE's records when one of them is its own. -/
theorem foldl_recordCode_valid (cs : List (Byte × Bits)) (code : Table CodeEntry) (b : Byte)
    (h : (code.at b).valid = true ∨ ∃ p, (b, p) ∈ cs) : ((cs.foldl recordCode code).at b).valid = true := by
  induction cs generalizing code with
  | nil => simpa using h
  | cons c cs ih =>
    refine ih _ ?_
    rw [recordCode_valid]
    rcases h with h | ⟨p, hp⟩
    · exact .inl (by simp [h])
    · rcases List.mem_cons.1 hp with rfl | hp
      · exact .inl (by simp)
      · exact .inr ⟨p, hp⟩

/-! ### ENCODE meets no unknown byte -/

theorem encodeBytes_isSome (code : Table CodeEntry) (bs : List Byte) (h : ∀ b ∈ bs, (code.at b).valid = true) :
    ∃ q, encodeBytes code bs = some q := by
  induction bs with
  | nil => exact ⟨[], rfl⟩
  | cons b bs ih =>
    obtain ⟨q, hq⟩ := ih fun x hx => h x (List.mem_cons_of_mem _ hx)
    exact ⟨(code.at b).word ++ q, by simp [encodeBytes, h b (by simp), hq]⟩

/-- COUNT adds the occurrences of a byte value to its counter, in 32 bits. -/
theorem foldl_bumpCount_at (bs : List Byte) (f : Table Word) (b : Byte) :
    (bs.foldl bumpCount f).at b = f.at b + BitVec.ofNat 32 (bs.count b) := by
  induction bs generalizing f with
  | nil => simp
  | cons c bs ih =>
    rw [List.foldl_cons, ih, bumpCount, Table.at_put, List.count_cons]
    by_cases h : c = b
    · subst h
      rw [if_pos rfl, if_pos (by simp), Nat.add_comm, BitVec.ofNat_add, BitVec.add_assoc]
      rfl
    · simp [h]

/-- Below 2^32 bytes no counter wraps (R103). -/
theorem countBytes_at_toNat (bs : List Byte) (b : Byte) (h : bs.length < 2 ^ 32) :
    ((countBytes bs).at b).toNat = bs.count b := by
  have := List.count_le_length (a := b) (l := bs)
  rw [countBytes, foldl_bumpCount_at, Table.at_replicate, zero_add, BitVec.toNat_ofNat,
    Nat.mod_eq_of_lt (by omega)]

/-- With the codes of the tree of its own counters every input is encoded (R142). -/
theorem encodeBytes_of_own_codes (bs : List Byte) (cs : List (Byte × Bits)) (old : Table CodeEntry)
    (h : bs.length < 2 ^ 32) (hc : treeCodes (buildTree (countBytes bs)) = some cs) :
    ∃ q, encodeBytes (cs.foldl recordCode (clearCodes old)) bs = some q := by
  refine encodeBytes_isSome _ _ fun b hb => foldl_recordCode_valid _ _ _ (.inr ?_)
  have hpos : (countBytes bs).at b ≠ 0 := fun hz => by
    have h1 := countBytes_at_toNat bs b h
    have h2 := List.count_pos_iff.2 hb
    rw [hz] at h1
    simp at h1; omega
  obtain ⟨q, hq⟩ := buildTree_pathTo _ _ hpos
  exact mem_treeCodes_of_pathTo _ _ _ _ hc hq

end Sys2Proof.Machine
end

section
/-! PROOFS. The invariant of a run: what a stage leaves for the ones after it, the host effects, and the step
invariant assembled from them. -/

namespace Sys2Proof.Machine

/-! ### The stages that raised nothing -/

theorem execEncode_running (s t : State) (h : execEncode s = .next t) (hb : t.status.busy = true) :
    ∃ q, encodeBytes s.priv.code s.input = some q ∧
      t = { s with priv := { s.priv with bitseq := q, nbits := q.length } } := by
  obtain ⟨-, ⟨-, rfl⟩ | hq⟩ := (execEncode_next s t).1 h
  · simp at hb
  · exact hq

theorem execParse_running (s t : State) (h : execParse s = .next t) (hb : t.status.busy = true) :
    1025 ≤ s.inLen.toNat ∧ (s.ibufByte 1024).toNat ≤ 7 ∧
      t = { s with priv := { s.priv with
        freq := s.counters
        pad := (s.ibufByte 1024).setWidth 3
        plen := s.inLen.toNat - 1025
        pay := s.ibufBytes 1025 (s.inLen.toNat - 1025) } } := by
  rcases (execParse_next s t).1 h with ⟨-, rfl⟩ | ⟨-, -, -, rfl⟩ | ⟨hl, -, hp, ht⟩
  · simp at hb
  · simp at hb
  · exact ⟨hl, hp, ht⟩

theorem execUnpack_running (s t : State) (h : execUnpack s = .next t) (hb : t.status.busy = true) :
    s.priv.pad.toNat ≤ 8 * s.priv.plen ∧
      t = { s with priv := { s.priv with
        nbits := 8 * s.priv.plen - s.priv.pad.toNat
        bitseq := unpackBits (s.priv.pay.take s.priv.plen) (8 * s.priv.plen - s.priv.pad.toNat) } } := by
  rcases (execUnpack_next s t).1 h with ⟨-, rfl⟩ | ht
  · simp at hb
  · exact ht

theorem execDecode_running (s t : State) (h : execDecode s = .next t) (hb : t.status.busy = true) :
    t = { s with priv := { s.priv with ocnt := 0, dlen := 0 } } ∨
      ∃ cur out, out.length ≤ s.outCap ∧
        t = State.finishDecode { s with obuf := Memory.write s.obuf 0 out } cur out := by
  rcases (execDecode_next s t).1 h with
    ⟨-, rfl⟩ | ⟨root, -, ⟨out, -, -, rfl⟩ | ⟨cur, out, -, fits, ⟨-, rfl⟩ | ⟨-, rfl⟩⟩⟩
  · exact .inl rfl
  · simp at hb
  · exact .inr ⟨cur, out, fits, rfl⟩
  · simp at hb

/-! ### The data of a running command, stage by stage -/

namespace State

variable (s : State)

/-- What COUNT leaves when the input is not empty. -/
def Counted : Prop := s.inLen ≠ 0 ∧ s.priv.freq = countBytes s.input

/-- What BUILD leaves. -/
def Built : Prop := s.priv.tree = buildTree s.priv.freq

/-- What DERIVE leaves. -/
def Derived : Prop :=
  ∃ cs old, treeCodes s.priv.tree = some cs ∧ s.priv.code = cs.foldl recordCode (clearCodes old)

/-- What ENCODE leaves. -/
def Encoded : Prop :=
  encodeBytes s.priv.code s.input = some s.priv.bitseq ∧ s.priv.nbits = s.priv.bitseq.length

/-- What PACK leaves. -/
def Packed : Prop :=
  s.priv.pay = packBytes s.priv.bitseq s.priv.nbits ∧ s.priv.plen = packLen s.priv.nbits ∧
    s.priv.pad = packPad s.priv.nbits

/-- What PARSE leaves. -/
def Parsed : Prop :=
  1025 ≤ s.inLen.toNat ∧ s.priv.plen = s.inLen.toNat - 1025 ∧ s.priv.pay = s.ibufBytes 1025 s.priv.plen ∧
    s.priv.freq = s.counters ∧ s.priv.pad.toNat = (s.ibufByte 1024).toNat

/-- What UNPACK leaves. -/
def Unpacked : Prop :=
  s.priv.pad.toNat ≤ 8 * s.priv.plen ∧ s.priv.nbits = 8 * s.priv.plen - s.priv.pad.toNat ∧
    s.priv.bitseq = unpackBits s.priv.pay s.priv.nbits

/-! The items of the engine play no part in what IBUF holds. -/

@[simp] theorem ibufByte_withPriv (p : Private) (a : Nat) :
    State.ibufByte { s with priv := p } a = s.ibufByte a := rfl

@[simp] theorem ibufBytes_withPriv (p : Private) (a n : Nat) :
    State.ibufBytes { s with priv := p } a n = s.ibufBytes a n := rfl

@[simp] theorem counters_withPriv (p : Private) : State.counters { s with priv := p } = s.counters := rfl

theorem compressData_iff (k : Nat) : s.CompressData k ↔
    (2 ≤ k → s.Counted) ∧ (3 ≤ k → s.Built) ∧ (4 ≤ k → s.Derived) ∧ (5 ≤ k → s.Encoded) ∧ (6 ≤ k → s.Packed) :=
  Iff.rfl

theorem decompressData_iff (k : Nat) : s.DecompressData k ↔
    (k ≠ 7 → s.Parsed) ∧ (8 ≤ k → s.Built ∧ s.priv.tree.root ≠ none) ∧ (9 ≤ k → s.Unpacked) :=
  Iff.rfl

theorem compressData_one : s.CompressData 1 := by simp [compressData_iff]

theorem compressData_two : s.CompressData 2 ↔ s.Counted := by simp [compressData_iff]

theorem compressData_three : s.CompressData 3 ↔ s.Counted ∧ s.Built := by simp [compressData_iff]

theorem compressData_four : s.CompressData 4 ↔ s.Counted ∧ s.Built ∧ s.Derived := by simp [compressData_iff]

theorem compressData_five : s.CompressData 5 ↔ s.Counted ∧ s.Built ∧ s.Derived ∧ s.Encoded := by
  simp [compressData_iff]

theorem compressData_six : s.CompressData 6 ↔ s.Counted ∧ s.Built ∧ s.Derived ∧ s.Encoded ∧ s.Packed := by
  simp [compressData_iff]

theorem decompressData_seven : s.DecompressData 7 := by simp [decompressData_iff]

theorem decompressData_two : s.DecompressData 2 ↔ s.Parsed := by simp [decompressData_iff]

theorem decompressData_eight : s.DecompressData 8 ↔ s.Parsed ∧ s.Built ∧ s.priv.tree.root ≠ none := by
  simp [decompressData_iff]

theorem decompressData_nine : s.DecompressData 9 ↔
    s.Parsed ∧ (s.Built ∧ s.priv.tree.root ≠ none) ∧ s.Unpacked := by
  simp [decompressData_iff]

end State

/-- Every stage code but BUILD's belongs to one command (R88). -/
theorem Command.eq_of_mem_stages (op : Command) (c : BitVec 4) (hm : c ∈ op.stages) (notBuild : c ≠ 2) :
    op = if c.toNat < 7 then .compress else .decompress := by
  revert c
  cases op <;> decide

/-- UnknownByte has its own code (R89). -/
theorem ErrorKind.code_eq_four (k : ErrorKind) : k.code = 4 ↔ k = .unknownByte := by
  cases k <;> decide

namespace State.Inv

variable {s s' : State}

/-! ### How the invariant is met -/

/-- OUT_LEN is 0 while a command runs (R26). -/
theorem outLen_eq_zero (h : s.Inv) (hb : s.status.busy = true) : s.outLen = 0 := by
  by_contra hne
  have hd := (h.regs.busy_status hb).1
  rw [(h.published hne).1] at hd
  simp at hd

/-- An idle block meets the invariant when its report is in order. -/
theorem of_idle (regs : s.RegsOk) (idle : s.status.busy = false) (outLen : s.outLen.toNat ≤ s.outCap)
    (published : s.outLen ≠ 0 → s.status.done = true ∧ s.status.err = 0) (known : s.status.err ≠ 4) : s.Inv :=
  ⟨regs, by simp [idle], by simp [idle], outLen, published, known⟩

/-- A running command meets the invariant when the data of its stage is there. -/
theorem of_busy (regs : s.RegsOk) (busy : s.status.busy = true) (outLen : s.outLen = 0)
    (compress : s.priv.op = .compress → s.CompressData s.status.stage.toNat)
    (decompress : s.priv.op = .decompress → s.DecompressData s.status.stage.toNat) : s.Inv := by
  refine ⟨regs, fun _ => compress, fun _ => decompress, by simp [outLen], fun h => absurd outLen h, ?_⟩
  rw [(regs.busy_status busy).2.1]; decide

/-- The invariant does not look at the hidden registers, the script, the value read and the draws. -/
theorem withUnseen (h : s.Inv) (hidden : Hidden) (host : List HostMove) (rdata : Len) (draws : Nat) :
    State.Inv { s with hidden := hidden, host := host, rdata := rdata, draws := draws } :=
  ⟨h.regs.congr _ rfl rfl rfl rfl rfl rfl, h.compress, h.decompress, h.outLen, h.published, h.known⟩

/-- The host may change the operand of an idle block. -/
theorem withOperand (h : s.Inv) (idle : s.status.busy = false) (ibuf : Memory) (inLen : Word)
    (regs : State.RegsOk { s with ibuf := ibuf, inLen := inLen }) :
    State.Inv { s with ibuf := ibuf, inLen := inLen } :=
  of_idle regs idle h.outLen h.published h.known

theorem raise (k : ErrorKind) (regs : (s.raise k).RegsOk) (known : k ≠ .unknownByte) : (s.raise k).Inv :=
  of_idle regs rfl (Nat.zero_le _) (fun h => absurd rfl h) (mt k.code_eq_four.1 known)

theorem endCommand (n : Nat) (regs : (s.endCommand n).RegsOk) (fits : n ≤ s.outCap) (noError : s.status.err = 0) :
    (s.endCommand n).Inv :=
  of_idle regs rfl (Nat.le_trans (by simpa using Nat.mod_le _ _) fits) (fun _ => ⟨rfl, noError⟩)
    (by rw [State.endCommand_status, Status.ended_err, noError]; decide)

/-- The sequencer enters a stage of COMPRESS whose data is there. -/
theorem enterCompress (c : BitVec 4) (regs : (s.enter c).RegsOk) (busy : s.status.busy = true) (outLen : s.outLen = 0)
    (op : s.priv.op = .compress) (data : s.CompressData c.toNat) : (s.enter c).Inv :=
  of_busy regs busy outLen (fun _ => data) fun hd => by
    rw [State.enter_priv, op] at hd; cases hd

/-- The sequencer enters a stage of DECOMPRESS whose data is there. -/
theorem enterDecompress (c : BitVec 4) (regs : (s.enter c).RegsOk) (busy : s.status.busy = true)
    (outLen : s.outLen = 0) (op : s.priv.op = .decompress) (data : s.DecompressData c.toNat) : (s.enter c).Inv :=
  of_busy regs busy outLen (fun hc => by rw [State.enter_priv, op] at hc; cases hc) fun _ => data

/-- A command starts with nothing computed yet (R195). -/
theorem startCommand (h : s.Inv) (op : Command) (c : BitVec 4) (first : op.stages.head? = some c) :
    (s.startCommand op c).Inv := by
  refine of_busy (h.regs.startCommand op c (List.mem_of_head? first)) rfl rfl ?_ ?_ <;> rintro rfl <;>
    obtain rfl := Option.some.inj first
  · exact compressData_one _
  · exact decompressData_seven _

/-- Every effect of a host move keeps the invariant. -/
theorem hostEffect (h : s.Inv) (t : State) (he : HostEffect s t) : t.Inv := by
  have regs := h.regs.hostEffect t he
  cases he with
  | nothing => exact h
  | reads v n => exact h.withUnseen _ _ v n
  | setsInLen v idle _ => exact h.withOperand idle _ v regs
  | writesByte a b idle _ => exact h.withOperand idle _ _ regs
  | loads bs idle _ => exact h.withOperand idle _ _ regs
  | starts op c _ first => exact h.startCommand op c first
  | illegal _ => exact raise _ regs (by decide)
  | resets => exact of_idle regs rfl (Nat.zero_le _) (fun h => absurd rfl h) (by simp [Status.zero])

/-! ### The command and its data at a stage -/

/-- While a stage other than BUILD runs, its code tells the command. -/
theorem op_eq (h : s.Inv) (hb : s.status.busy = true) (c : BitVec 4) (hst : s.status.stage = c) (notBuild : c ≠ 2) :
    s.priv.op = if c.toNat < 7 then .compress else .decompress := by
  obtain ⟨-, -, hm⟩ := h.regs.busy_status hb
  exact s.priv.op.eq_of_mem_stages c (hst ▸ hm) notBuild

/-- The data of the stage code of a running COMPRESS. -/
theorem compressData (h : s.Inv) (hb : s.status.busy = true) (hop : s.priv.op = .compress) (c : BitVec 4)
    (hst : s.status.stage = c) : s.CompressData c.toNat := hst ▸ h.compress hb hop

/-- The data of the stage code of a running DECOMPRESS. -/
theorem decompressData (h : s.Inv) (hb : s.status.busy = true) (hop : s.priv.op = .decompress) (c : BitVec 4)
    (hst : s.status.stage = c) : s.DecompressData c.toNat := hst ▸ h.decompress hb hop

/-- UnknownByte is not raised: ENCODE works with the codes of the tree of its own input (R142). -/
theorem execEncode_ne_raise (h : s.Inv) (hb : s.status.busy = true) (hst : s.status.stage = 4) :
    execEncode s ≠ .next (s.raise .unknownByte) := by
  intro hx
  have hop : s.priv.op = .compress := h.op_eq hb _ hst (by decide)
  obtain ⟨⟨-, hfreq⟩, htree, cs, old, hcs, hcode⟩ := (compressData_four s).1 (h.compressData hb hop _ hst)
  rw [htree, hfreq] at hcs
  obtain ⟨q, hq⟩ := encodeBytes_of_own_codes s.input cs old (by simpa using s.inLen.isLt) hcs
  rcases (execEncode_next s _).1 hx with ⟨-, ⟨hn, -⟩ | ⟨_, -, ht⟩⟩
  · rw [hcode, hq] at hn; simp at hn
  · have := congrArg (fun u : State => u.status.busy) ht
    simp [hb] at this

/-! ### What each stage leaves for the next

Each lemma is about a stage that raised nothing. -/

section stages

variable (h : s.Inv) (hb : s.status.busy = true)
include h hb

theorem after_count (hst : s.status.stage = 1) (hx : execCount s = .next s') (regs : (s'.advance .count).RegsOk) :
    (s'.advance .count).Inv := by
  have hop : s.priv.op = .compress := h.op_eq hb _ hst (by decide)
  obtain ⟨-, hs'⟩ := (execCount_next s s').1 hx
  by_cases hz : s'.inLen = 0
  · rw [s'.advance_count_of_empty hz] at regs ⊢
    exact raise _ regs (by decide)
  · rw [s'.advance_count_of_ne hz] at regs ⊢
    subst hs'
    exact enterCompress _ regs hb (h.outLen_eq_zero hb) hop ((compressData_two _).2 ⟨hz, rfl⟩)

theorem after_build (hst : s.status.stage = 2) (hx : execBuild s = .next s') (regs : (s'.advance .build).RegsOk) :
    (s'.advance .build).Inv := by
  have hs' := (execBuild_next s s').1 hx
  have hop' : s'.priv.op = s.priv.op := by rw [hs']
  cases hop : s.priv.op with
  | compress =>
    rw [s'.advance_build_of_compress (hop'.trans hop)] at regs ⊢
    subst hs'
    have counted := (compressData_two s).1 (h.compressData hb hop _ hst)
    exact enterCompress _ regs hb (h.outLen_eq_zero hb) hop ((compressData_three _).2 ⟨counted, rfl⟩)
  | decompress =>
    by_cases ht : s'.priv.tree.root = none
    · rw [s'.advance_build_of_no_tree (hop'.trans hop) ht] at regs ⊢
      subst hs'
      exact endCommand 0 regs (Nat.zero_le _) (h.regs.busy_status hb).2.1
    · rw [s'.advance_build_of_tree (hop'.trans hop) ht] at regs ⊢
      subst hs'
      have parsed := (decompressData_two s).1 (h.decompressData hb hop _ hst)
      exact enterDecompress _ regs hb (h.outLen_eq_zero hb) hop ((decompressData_eight _).2 ⟨parsed, rfl, ht⟩)

theorem after_derive (hst : s.status.stage = 3) (hx : execDerive s = .next s') (regs : (s'.enter 4).RegsOk) :
    (s'.enter 4).Inv := by
  have hop : s.priv.op = .compress := h.op_eq hb _ hst (by decide)
  obtain ⟨counted, built⟩ := (compressData_three s).1 (h.compressData hb hop _ hst)
  obtain ⟨cs, hcs, rfl⟩ := (execDerive_next s s').1 hx
  exact enterCompress _ regs hb (h.outLen_eq_zero hb) hop ((compressData_four _).2 ⟨counted, built, cs, _, hcs, rfl⟩)

theorem after_encode (hst : s.status.stage = 4) (hx : execEncode s = .next s') (hb' : s'.status.busy = true)
    (regs : (s'.enter 5).RegsOk) : (s'.enter 5).Inv := by
  have hop : s.priv.op = .compress := h.op_eq hb _ hst (by decide)
  obtain ⟨counted, built, derived⟩ := (compressData_four s).1 (h.compressData hb hop _ hst)
  obtain ⟨q, hq, rfl⟩ := execEncode_running s s' hx hb'
  exact enterCompress _ regs hb (h.outLen_eq_zero hb) hop ((compressData_five _).2 ⟨counted, built, derived, hq, rfl⟩)

theorem after_pack (hst : s.status.stage = 5) (hx : execPack s = .next s') (regs : (s'.enter 6).RegsOk) :
    (s'.enter 6).Inv := by
  have hop : s.priv.op = .compress := h.op_eq hb _ hst (by decide)
  obtain ⟨counted, built, derived, encoded⟩ := (compressData_five s).1 (h.compressData hb hop _ hst)
  obtain rfl := (execPack_next s s').1 hx
  exact enterCompress _ regs hb (h.outLen_eq_zero hb) hop
    ((compressData_six _).2 ⟨counted, built, derived, encoded, rfl, rfl, rfl⟩)

/-- The container published fits OBUF: PLEN is the number of bytes stored after the header. -/
theorem after_serialize (hst : s.status.stage = 6) (hx : execSerialize s = .next s')
    (regs : (s'.endCommand s'.priv.clen).RegsOk) : (s'.endCommand s'.priv.clen).Inv := by
  have hop : s.priv.op = .compress := h.op_eq hb _ hst (by decide)
  obtain ⟨-, -, -, -, hpay, hplen, -⟩ := (compressData_six s).1 (h.compressData hb hop _ hst)
  obtain ⟨fits, rfl⟩ := (execSerialize_next s s').1 hx
  have hlen : s.priv.pay.length = s.priv.plen := by rw [hpay, hplen, length_packBytes]
  exact endCommand _ regs (by rwa [hlen, Nat.min_self] at fits) (h.regs.busy_status hb).2.1

theorem after_parse (hst : s.status.stage = 7) (hx : execParse s = .next s') (hb' : s'.status.busy = true)
    (regs : (s'.enter 2).RegsOk) : (s'.enter 2).Inv := by
  have hop : s.priv.op = .decompress := h.op_eq hb _ hst (by decide)
  obtain ⟨hlen, hpad, rfl⟩ := execParse_running s s' hx hb'
  have hpad' : ((s.ibufByte 1024).setWidth 3).toNat = (s.ibufByte 1024).toNat := by
    rw [BitVec.toNat_setWidth, Nat.mod_eq_of_lt (by omega)]
  exact enterDecompress _ regs hb (h.outLen_eq_zero hb) hop
    ((decompressData_two _).2 ⟨hlen, rfl, by simp, by simp, by simpa using hpad'⟩)

theorem after_unpack (hst : s.status.stage = 8) (hx : execUnpack s = .next s') (hb' : s'.status.busy = true)
    (regs : (s'.enter 9).RegsOk) : (s'.enter 9).Inv := by
  have hop : s.priv.op = .decompress := h.op_eq hb _ hst (by decide)
  obtain ⟨parsed, built⟩ := (decompressData_eight s).1 (h.decompressData hb hop _ hst)
  have ⟨_, _, hpay, _⟩ := parsed
  obtain ⟨hpad, rfl⟩ := execUnpack_running s s' hx hb'
  have htake : s.priv.pay.take s.priv.plen = s.priv.pay := List.take_of_length_le (by rw [hpay, length_ibufBytes])
  exact enterDecompress _ regs hb (h.outLen_eq_zero hb) hop
    ((decompressData_nine _).2 ⟨parsed, built, hpad, rfl, by rw [htake]⟩)

/-- The bytes published are the ones stored, which fit OBUF. -/
theorem after_decode (hx : execDecode s = .next s') (hb' : s'.status.busy = true)
    (regs : (s'.endCommand s'.priv.dlen).RegsOk) : (s'.endCommand s'.priv.dlen).Inv := by
  have noError := (h.regs.busy_status hb).2.1
  rcases execDecode_running s s' hx hb' with rfl | ⟨cur, out, fits, rfl⟩
  · exact endCommand _ regs (Nat.zero_le _) noError
  · exact endCommand _ regs fits noError

/-- A stage with what follows it keeps the invariant. -/
theorem afterStage (i : Instr) (hc : encodeWord i = .stage s.status.stage) (hx : exec i s = .next s') :
    (s'.afterStage i).Inv := by
  have regs := h.regs.afterStage s' i hb hc hx
  rcases exec_stage_regs s s' i h.regs hc hx with ⟨k, rfl, cause⟩ | ⟨-, hst', -⟩
  · rw [State.afterStage_ended _ _ rfl] at regs ⊢
    refine raise k regs ?_
    rintro rfl
    have hst := stage_eq_four_of_unknownByte _ cause
    have hd := decodeWord_encodeWord i
    rw [hc, hst] at hd
    obtain rfl : Instr.encode = i := Except.ok.inj hd
    exact h.execEncode_ne_raise hb hst hx
  · have hb' : s'.status.busy = true := by rw [hst', hb]
    rw [State.afterStage_running _ _ hb'] at regs ⊢
    cases i <;> simp only [encodeWord, CodeWord.stage.injEq, reduceCtorEq] at hc
    case count => exact h.after_count hb hc.symm hx regs
    case build => exact h.after_build hb hc.symm hx regs
    case derive => exact h.after_derive hb hc.symm hx regs
    case encode => exact h.after_encode hb hc.symm hx hb' regs
    case pack => exact h.after_pack hb hc.symm hx regs
    case serialize => exact h.after_serialize hb hc.symm hx regs
    case parse => exact h.after_parse hb hc.symm hx hb' regs
    case unpack => exact h.after_unpack hb hc.symm hx hb' regs
    case decode => exact h.after_decode hb hx hb' regs

end stages

end State.Inv

theorem engineStep_keeps_inv (s t : State) (h : s.Inv) (he : engineStep s = .next t) : t.Inv :=
  engineStep_keeps State.Inv (fun _ h => h.withUnseen _ _ _ _) (fun _ _ i h hb hc hx => h.afterStage hb i hc hx)
    s t h he

/-- Settles O53: every effect of the host and every stage with what follows it keeps the whole invariant. -/
theorem everyStepKeepsTheRunInvariant : Obligations.EveryStepKeepsTheRunInvariant :=
  step_keeps State.Inv (fun _ _ h => h.withUnseen _ _ _ _) (fun _ t h he => h.hostEffect t he) engineStep_keeps_inv

/-- Settles O2: right after reset the block is idle and reports nothing. -/
theorem resetStateMeetsTheInvariant : Obligations.ResetStateMeetsTheInvariant := by
  have regs : State.reset.RegsOk :=
    ⟨⟨rfl, rfl⟩, Nat.zero_le _, List.Pairwise.nil, List.Pairwise.nil, by simp [State.reset], by simp [State.reset]⟩
  exact ⟨.of_idle regs rfl (Nat.zero_le _) (fun h => absurd rfl h) (by decide), rfl, rfl, rfl, rfl⟩

end Sys2Proof.Machine
end

section
/-! PROOFS. What each stage and each host move leaves unchanged, the word of STATUS, and what the host's register and
buffer accesses answer. -/

namespace Sys2Proof.Machine

/-! ### The engine and the host's part of the state -/

/-- What belongs to the host is the same in both states: IBUF, IN_LEN, the capacities, the script, the value read. -/
structure State.SameHostPart (s t : State) : Prop where
  ibuf     : t.ibuf = s.ibuf
  ibufSeed : t.ibufSeed = s.ibufSeed
  inLen    : t.inLen = s.inLen
  caps     : t.caps = s.caps
  host     : t.host = s.host
  rdata    : t.rdata = s.rdata

theorem State.SameHostPart.trans {s t u : State} (h : s.SameHostPart t) (h' : t.SameHostPart u) : s.SameHostPart u :=
  ⟨h'.ibuf.trans h.ibuf, h'.ibufSeed.trans h.ibufSeed, h'.inLen.trans h.inLen, h'.caps.trans h.caps,
    h'.host.trans h.host, h'.rdata.trans h.rdata⟩

/-- The operand is read from IBUF and IN_LEN alone. -/
theorem State.SameHostPart.input {s t : State} (h : s.SameHostPart t) : t.input = s.input := by
  simp only [State.input, State.ibufBytes, State.ibufByte, h.ibuf, h.ibufSeed, h.inLen]

theorem State.sameHostPart_afterStage (s : State) (i : Instr) : s.SameHostPart (s.afterStage i) := by
  obtain ⟨h1, h2, h3, h4, h5, h6⟩ := s.afterStage_host i
  exact ⟨h1, h2, h3, h4, h5, h6⟩

/-- No operation writes anything of the host. -/
theorem exec_sameHostPart (i : Instr) (s t : State) (h : exec i s = .next t) : s.SameHostPart t := by
  have same : ∀ (st : Status) (n : Len) (m : Memory) (p : Private) (k l : Nat), State.SameHostPart s
      { s with status := st, outLen := n, obuf := m, priv := p, draws := k, obufSeed := l } :=
    fun _ _ _ _ _ _ => ⟨rfl, rfl, rfl, rfl, rfl, rfl⟩
  cases i with
  | compress => rcases (execCompress_next s t).1 h with ⟨-, rfl⟩ | ⟨-, rfl⟩ <;> exact same _ _ _ _ _ _
  | decompress => rcases (execDecompress_next s t).1 h with ⟨-, rfl⟩ | ⟨-, rfl⟩ <;> exact same _ _ _ _ _ _
  | count => obtain ⟨-, rfl⟩ := (execCount_next s t).1 h; exact same _ _ _ _ _ _
  | build => obtain rfl := (execBuild_next s t).1 h; exact same _ _ _ _ _ _
  | derive => obtain ⟨cs, -, rfl⟩ := (execDerive_next s t).1 h; exact same _ _ _ _ _ _
  | encode => obtain ⟨-, ⟨-, rfl⟩ | ⟨q, -, rfl⟩⟩ := (execEncode_next s t).1 h <;> exact same _ _ _ _ _ _
  | pack => obtain rfl := (execPack_next s t).1 h; exact same _ _ _ _ _ _
  | serialize => obtain ⟨-, rfl⟩ := (execSerialize_next s t).1 h; exact same _ _ _ _ _ _
  | parse =>
    rcases (execParse_next s t).1 h with ⟨-, rfl⟩ | ⟨-, -, -, rfl⟩ | ⟨-, -, -, rfl⟩ <;> exact same _ _ _ _ _ _
  | unpack => rcases (execUnpack_next s t).1 h with ⟨-, rfl⟩ | ⟨-, rfl⟩ <;> exact same _ _ _ _ _ _
  | decode =>
    rcases (execDecode_next s t).1 h with
      ⟨-, rfl⟩ | ⟨_, -, ⟨_, -, -, rfl⟩ | ⟨_, _, -, -, ⟨-, rfl⟩ | ⟨-, rfl⟩⟩⟩ <;> exact same _ _ _ _ _ _

theorem engineStep_sameHostPart (s t : State) (h : engineStep s = .next t) : s.SameHostPart t :=
  engineStep_keeps (fun u => s.SameHostPart u) (fun _ hu => hu.trans ⟨rfl, rfl, rfl, rfl, rfl, rfl⟩)
    (fun u u' i hu _ _ hx => (hu.trans (exec_sameHostPart i u u' hx)).trans (u'.sameHostPart_afterStage i))
    s t ⟨rfl, rfl, rfl, rfl, rfl, rfl⟩ h

/-- Settles O50: the stage and the sequencer each leave the host's part of the state as it was. -/
theorem engineNeverWritesHostState : Obligations.EngineNeverWritesHostState := by
  intro s t h
  have same := engineStep_sameHostPart s t h
  exact ⟨same.ibuf, same.ibufSeed, same.inLen, same.caps, same.host, same.rdata, same.input⟩

/-! ### What a stage that raises nothing writes -/

/-- A block stored from offset 0 of OBUF leaves every byte above it. -/
theorem State.obufByte_write_above (s : State) (p : Private) (bs : List Byte) (a : Nat) (h : bs.length ≤ a) :
    State.obufByte { s with obuf := Memory.write s.obuf 0 bs, priv := p } a = s.obufByte a := by
  simp only [State.obufByte]
  rw [Memory.read_write_outside _ _ _ _ (.inr (by omega))]

/-- Settles O51: the frame of each operation, read off the states it can leave. -/
theorem stagesWriteOnlyTheirItems : Obligations.StagesWriteOnlyTheirItems := by
  intro s t i hb h hb'
  cases i with
  | compress =>
    rcases (execCompress_next s t).1 h with ⟨-, rfl⟩ | ⟨hi, -⟩
    · simp
    · simp [hb] at hi
  | decompress =>
    rcases (execDecompress_next s t).1 h with ⟨-, rfl⟩ | ⟨hi, -⟩
    · simp
    · simp [hb] at hi
  | count => obtain ⟨-, rfl⟩ := (execCount_next s t).1 h; simp [State.obufByte]
  | build => obtain rfl := (execBuild_next s t).1 h; simp [State.obufByte]
  | derive => obtain ⟨cs, -, rfl⟩ := (execDerive_next s t).1 h; simp [State.obufByte]
  | encode => obtain ⟨q, -, rfl⟩ := execEncode_running s t h hb'; simp [State.obufByte]
  | pack => obtain rfl := (execPack_next s t).1 h; simp [State.obufByte]
  | serialize =>
    obtain ⟨-, rfl⟩ := (execSerialize_next s t).1 h
    have above := s.obufByte_write_above { s.priv with clen := 1025 + s.priv.plen }
      (containerBytes s.priv.freq s.priv.pad (s.priv.pay.take s.priv.plen))
    simpa [-length_containerBytes] using above
  | parse => obtain ⟨-, -, rfl⟩ := execParse_running s t h hb'; simp [State.obufByte]
  | unpack => obtain ⟨-, rfl⟩ := execUnpack_running s t h hb'; simp [State.obufByte]
  | decode =>
    rcases execDecode_running s t h hb' with rfl | ⟨cur, out, -, rfl⟩
    · simp [State.obufByte]
    · have above := s.obufByte_write_above { s.priv with cur := cur, ocnt := out.length, dlen := out.length } out
      simpa [State.finishDecode] using above

/-! ### The word of STATUS -/

theorem flagBit_le_one (b : Bool) : flagBit b ≤ 1 := by cases b <;> decide

theorem decide_flagBit_eq_one (b : Bool) : decide (flagBit b = 1) = b := by cases b <;> rfl

/-- The fields do not overlap and fit the word, so no bit is lost. -/
theorem Status.word_toNat (st : Status) :
    st.word.toNat = flagBit st.busy + 2 * flagBit st.done + 4 * st.err.toNat + 256 * st.stage.toNat := by
  have := st.err.isLt
  have := st.stage.isLt
  have := flagBit_le_one st.busy
  have := flagBit_le_one st.done
  rw [Status.word, BitVec.toNat_ofNat, Nat.mod_eq_of_lt (by omega)]

/-- A slice of a word is the number a field has there, when quotient and remainder say so. -/
theorem extractLsb'_eq_of_toNat (w : Word) (i n : Nat) (v : BitVec n) (h : w.toNat / 2 ^ i % 2 ^ n = v.toNat) :
    w.extractLsb' i n = v :=
  BitVec.eq_of_toNat_eq (by rw [BitVec.extractLsb'_toNat, Nat.shiftRight_eq_div_pow, h])

/-- Settles O3: each field is the quotient and remainder of the sum of R24 at its place. -/
theorem statusWordHoldsItsFields : Obligations.StatusWordHoldsItsFields := by
  intro st
  have hw := st.word_toNat
  have := st.err.isLt
  have := st.stage.isLt
  have := flagBit_le_one st.busy
  have := flagBit_le_one st.done
  refine ⟨?busy, ?done, ?err, ?low, ?stage, ?high⟩
  case busy =>
    have : st.word.toNat / 2 ^ 0 % 2 = flagBit st.busy := by omega
    rw [BitVec.getLsbD, Nat.testBit_eq_decide_div_mod_eq, this, decide_flagBit_eq_one]
  case done =>
    have : st.word.toNat / 2 ^ 1 % 2 = flagBit st.done := by omega
    rw [BitVec.getLsbD, Nat.testBit_eq_decide_div_mod_eq, this, decide_flagBit_eq_one]
  case err => exact extractLsb'_eq_of_toNat _ _ _ _ (by omega)
  case low => exact extractLsb'_eq_of_toNat _ _ _ 0#3 (by rw [BitVec.toNat_zero]; omega)
  case stage => exact extractLsb'_eq_of_toNat _ _ _ _ (by omega)
  case high => exact extractLsb'_eq_of_toNat _ _ _ 0#20 (by rw [BitVec.toNat_zero]; omega)

/-! ### The step as the decoded operation -/

theorem engineStep_of_fault (s : State) (i : Instr) (r : Fault) (hb : s.status.busy = true)
    (hd : decodeStage s.status.stage = .ok i) (hx : exec i s.stirHidden = .fault r) : engineStep s = .fault r := by
  simp only [engineStep, if_pos hb, decodeWord, hd, hx]

theorem engineStep_of_refused (s : State) (i : Instr) (r : Refusal) (hb : s.status.busy = true)
    (hd : decodeStage s.status.stage = .ok i) (hx : exec i s.stirHidden = .refused r) : engineStep s = .refused r := by
  simp only [engineStep, if_pos hb, decodeWord, hd, hx]

/-- Settles O6: the head of the script says which operation the step is. -/
theorem stepRunsTheDecodedOperation : Obligations.StepRunsTheDecodedOperation := by
  refine ⟨fun s i hh hb hd => ?_, fun s rest hh => ?_, fun s v rest i hh hd => ?_, fun s hh hb => ?_⟩
  · rw [step_of_host_nil s hh]
    cases hx : exec i s.stirHidden with
    | next s' => exact (engineStep_busy s _ hb).2 ⟨i, s', hd, hx, rfl⟩
    | fault r => exact engineStep_of_fault s i r hb hd hx
    | refused r => exact engineStep_of_refused s i r hb hd hx
  · rw [step_of_host_cons s _ rest hh]; rfl
  · rw [step_of_host_cons s _ rest hh]
    simp only [hostMove, writeReg, writeCmd, decodeWord, hd]
  · rw [step_of_host_nil s hh, engineStep_idle s hb]

/-! ### The accesses of the host, by their conditions -/

theorem readIbuf_of_ge (s : State) (a : Nat) (ha : s.inCap ≤ a) : readIbuf a s = .refused .offsetRange :=
  if_pos ha

theorem readIbuf_of_busy (s : State) (a : Nat) (ha : a < s.inCap) (hb : s.status.busy = true) :
    readIbuf a s = .next s.deliverFree := by
  rw [readIbuf, if_neg (by omega), if_pos hb]

theorem readIbuf_of_idle (s : State) (a : Nat) (ha : a < s.inCap) (hb : s.status.busy = false) :
    readIbuf a s = .next (s.deliver ((s.ibufByte a).setWidth 40)) := by
  rw [readIbuf, if_neg (by omega), if_neg (by simp [hb])]

theorem readObuf_of_ge (s : State) (a : Nat) (ha : s.outCap ≤ a) : readObuf a s = .refused .offsetRange :=
  if_pos ha

theorem readObuf_of_forbidden (s : State) (a : Nat) (ha : a < s.outCap)
    (hf : s.status.busy = true ∨ s.outLen.toNat ≤ a) : readObuf a s = .next s.deliverFree := by
  rw [readObuf, if_neg (by omega), if_pos hf]

theorem readObuf_of_idle (s : State) (a : Nat) (ha : a < s.outCap) (hb : s.status.busy = false)
    (hl : a < s.outLen.toNat) : readObuf a s = .next (s.deliver ((s.obufByte a).setWidth 40)) := by
  rw [readObuf, if_neg (by omega), if_neg (by simp [hb, hl])]

theorem writeIbuf_of_ge (s : State) (a : Nat) (b : Byte) (ha : s.inCap ≤ a) :
    writeIbuf a b s = .refused .offsetRange :=
  if_pos ha

theorem writeIbuf_of_busy (s : State) (a : Nat) (b : Byte) (ha : a < s.inCap) (hb : s.status.busy = true) :
    writeIbuf a b s = .refused .busyWrite := by
  rw [writeIbuf, if_neg (by omega), if_pos hb]

theorem writeIbuf_of_idle (s : State) (a : Nat) (b : Byte) (ha : a < s.inCap) (hb : s.status.busy = false) :
    writeIbuf a b s = .next { s with ibuf := Memory.write s.ibuf a [b] } := by
  rw [writeIbuf, if_neg (by omega), if_neg (by simp [hb])]

theorem writeInLen_of_busy (s : State) (v : Len) (hb : s.status.busy = true) :
    writeInLen v s = .refused .busyWrite :=
  if_pos hb

theorem writeInLen_of_gt (s : State) (v : Len) (hb : s.status.busy = false) (hv : s.inCap < v.toNat) :
    writeInLen v s = .refused .aboveCapacity := by
  rw [writeInLen, if_neg (by simp [hb]), if_neg (by omega)]

theorem writeInLen_of_idle (s : State) (v : Len) (hb : s.status.busy = false) (hv : v.toNat ≤ s.inCap) :
    writeInLen v s = .next { s with inLen := v.setWidth 32 } := by
  rw [writeInLen, if_neg (by simp [hb]), if_pos hv]

theorem loadBytes_of_gt (s : State) (bs : List Byte) (hl : s.inCap < bs.length) :
    loadBytes bs s = .refused .aboveCapacity :=
  if_pos hl

theorem loadBytes_of_busy (s : State) (bs : List Byte) (hl : bs.length ≤ s.inCap) (hb : s.status.busy = true) :
    loadBytes bs s = .refused .busyWrite := by
  rw [loadBytes, if_neg (by omega), if_pos hb]

theorem moveResult_of_busy (s : State) (hb : s.status.busy = true) : moveResult s = .refused .noResult :=
  if_pos hb

theorem moveResult_of_gt (s : State) (hb : s.status.busy = false) (hl : s.inCap < s.outLen.toNat) :
    moveResult s = .refused .aboveCapacity := by
  rw [moveResult, if_neg (by simp [hb]), if_pos hl]

theorem readStatus_of_idle (s : State) (hb : s.status.busy = false) :
    s.readStatus = s.deliver (s.status.word.setWidth 40) := by
  rw [State.readStatus, if_neg (by simp [hb])]

theorem readReg_outLen_of_busy (s : State) (hb : s.status.busy = true) : readReg 3 s = .next s.deliverFree :=
  congrArg Host.Outcome.next (if_pos hb)

theorem readReg_outLen_of_idle (s : State) (hb : s.status.busy = false) :
    readReg 3 s = .next (s.deliver s.outLen) :=
  congrArg Host.Outcome.next (if_neg (by simp [hb]))

/-- There are four registers (R22). -/
theorem writeReg_of_ge (s : State) (n : Nat) (v : Len) (hn : 4 ≤ n) : writeReg n v s = .refused .noSuchRegister := by
  obtain ⟨k, rfl⟩ := Nat.exists_eq_add_of_le' hn
  rfl

theorem readReg_of_ge (s : State) (n : Nat) (hn : 4 ≤ n) : readReg n s = .refused .noSuchRegister := by
  obtain ⟨k, rfl⟩ := Nat.exists_eq_add_of_le' hn
  rfl

/-- A move that is not well formed is refused whatever the moment. -/
theorem hostMove_refused_of_not_wf (s : State) (m : HostMove) (h : m.wf s.caps = false) :
    ∃ r, hostMove m s = .refused r := by
  cases m with
  | reset => simp [HostMove.wf] at h
  | wrReg n v =>
    rcases Nat.lt_or_ge n 4 with hn | hn
    · obtain ⟨rfl, hv⟩ : n = 2 ∧ s.inCap < v.toNat := by simpa [HostMove.wf, State.inCap, hn] using h
      cases hb : s.status.busy with
      | true => exact ⟨_, writeInLen_of_busy s v hb⟩
      | false => exact ⟨_, writeInLen_of_gt s v hb hv⟩
    · exact ⟨_, writeReg_of_ge s n v hn⟩
  | rdReg n => exact ⟨_, readReg_of_ge s n (by simpa [HostMove.wf] using h)⟩
  | wrIbuf a b => exact ⟨_, writeIbuf_of_ge s a b (by simpa [HostMove.wf, State.inCap] using h)⟩
  | rdIbuf a => exact ⟨_, readIbuf_of_ge s a (by simpa [HostMove.wf, State.inCap] using h)⟩
  | rdObuf a => exact ⟨_, readObuf_of_ge s a (by simpa [HostMove.wf, State.outCap] using h)⟩
  | load bs => exact ⟨_, loadBytes_of_gt s bs (by simpa [HostMove.wf, State.inCap] using h)⟩
  | move => simp [HostMove.wf] at h
  | wait => simp [HostMove.wf] at h
  | pass => simp [HostMove.wf] at h

/-- Settles O11: each access is the head of the script, and its conditions choose the branch of the access. -/
theorem hostReadsDeliverTheirValue : Obligations.HostReadsDeliverTheirValue := by
  intro s rest
  have move : ∀ m, s.host = m :: rest → step s = hostMove m { s with host := rest } :=
    fun m => step_of_host_cons s m rest
  refine ⟨fun hh => ?cmd, fun hh hb => ?status, fun hh => ?inLen, fun hh hb => ?outLen, fun a hh ha hb => ?ibuf,
    fun a hh ha hb hl => ?obuf, fun hh hb => ?busyOutLen, fun a hh ha hb => ?busyIbuf,
    fun a hh ha hf => ?forbiddenObuf, fun n v hh hn => ?ignored⟩ <;> rw [move _ hh]
  case cmd => rfl
  case status => exact congrArg Host.Outcome.next (readStatus_of_idle _ hb)
  case inLen => rfl
  case outLen => exact readReg_outLen_of_idle _ hb
  case ibuf => exact readIbuf_of_idle _ a ha hb
  case obuf => exact readObuf_of_idle _ a ha hb hl
  case busyOutLen => exact readReg_outLen_of_busy _ hb
  case busyIbuf => exact readIbuf_of_busy _ a ha hb
  case forbiddenObuf => exact readObuf_of_forbidden _ a ha hf
  case ignored => rcases hn with rfl | rfl <;> rfl

/-- Settles O13: each move is the head of the script, and its conditions choose the refusal. -/
theorem listedHostMovesAreRefusedByName : Obligations.ListedHostMovesAreRefusedByName := by
  intro s rest
  have move : ∀ m, s.host = m :: rest → step s = hostMove m { s with host := rest } :=
    fun m => step_of_host_cons s m rest
  refine ⟨fun n v hh hn => ?wrReg, fun n hh hn => ?rdReg, fun v hh hb => ?busyInLen, fun v hh hb hv => ?inLen,
    fun a b hh ha => ?wrIbuf, fun a b hh ha hb => ?busyIbuf, fun a hh ha => ?rdIbuf, fun a hh ha => ?rdObuf,
    fun bs hh hl => ?load, fun bs hh hl hb => ?busyLoad, fun hh hb => ?busyMove, fun hh hb hl => ?move,
    fun m hh hw => ?illFormed⟩ <;> rw [move _ hh]
  case wrReg => exact writeReg_of_ge _ n v hn
  case rdReg => exact readReg_of_ge _ n hn
  case busyInLen => exact writeInLen_of_busy _ v hb
  case inLen => exact writeInLen_of_gt _ v hb hv
  case wrIbuf => exact writeIbuf_of_ge _ a b ha
  case busyIbuf => exact writeIbuf_of_busy _ a b ha hb
  case rdIbuf => exact readIbuf_of_ge _ a ha
  case rdObuf => exact readObuf_of_ge _ a ha
  case load => exact loadBytes_of_gt _ bs hl
  case busyLoad => exact loadBytes_of_busy _ bs hl hb
  case busyMove => exact moveResult_of_busy _ hb
  case move => exact moveResult_of_gt _ hb hl
  case illFormed => exact hostMove_refused_of_not_wf _ m hw

/-- Settles O15: a value at most IN_CAP keeps its number in the 32 bits of IN_LEN. -/
theorem inLenWriteStoresItsValue : Obligations.InLenWriteStoresItsValue := by
  intro s v rest hh hb hv
  refine ⟨v.setWidth 32, s.toNat_setWidth_of_le_inCap v hv, ?_⟩
  rw [step_of_host_cons s _ rest hh]
  exact writeInLen_of_idle _ v hb hv

/-- Settles O16: a read after the write of one byte finds it at its offset and the old byte elsewhere. -/
theorem ibufWriteStoresItsByte : Obligations.IbufWriteStoresItsByte := by
  intro s a b rest hh hb ha
  refine ⟨Memory.write s.ibuf a [b], ?_, ?_, fun k hk => ?_⟩
  · rw [step_of_host_cons s _ rest hh]
    exact writeIbuf_of_idle _ a b ha hb
  · have h := Memory.read_write_inside s.ibuf a 0 [b] (by simp)
    simp only [Nat.add_zero, List.getElem_cons_zero] at h
    simp [State.ibufByte, h]
  · have h := Memory.read_write_outside s.ibuf a k [b] (by simp; omega)
    simp [State.ibufByte, h]

end Sys2Proof.Machine
end

section
/-! PROOFS. No fault: every stage of a running command completes. The accesses to the buffers are in range (a code
word has at most 255 bits, so the OUT_CAP of R8 holds every container), and the walks stay inside the tree. -/

namespace Sys2Proof.Machine

/-! ### The depth of a built tree -/

/-- The scan makes one record per non-zero counter (R110). -/
theorem length_node_scanLeaves (fs : List Word) (s : Nat) (t : Tree) :
    (scanLeaves fs s t).node.length = t.node.length + fs.countP (fun f => decide (f ≠ 0)) := by
  induction fs generalizing s t with
  | nil => rfl
  | cons f fs ih =>
    rw [scanLeaves]
    by_cases hf : f = 0
    · rw [if_pos hf, ih, List.countP_cons_of_neg (by simpa using hf)]
    · rw [if_neg hf, ih, List.countP_cons_of_pos (by simpa using hf), List.length_append, List.length_singleton]
      omega

theorem length_node_leafTree (f : Table Word) : (leafTree f).node.length = leafCount f := by
  rw [leafTree, length_node_scanLeaves]; simp [Tree.zero, leafCount]

theorem leafCount_le (f : Table Word) : leafCount f ≤ 256 :=
  List.countP_le_length.trans_eq (Table.length_toList f)

/-- The arena while k leaves are merged: the first k records are the leaves, and every merge trades one live node for
one record above them. -/
structure Tree.Layered (k : Nat) (t : Tree) : Prop where
  leaves : k ≤ t.node.length
  size   : t.node.length + t.live.length = 2 * k
  above  : ∀ i w l r, t.node[i]? = some (Node.int w l r) → k ≤ i

theorem leafTree_layered (f : Table Word) : (leafTree f).Layered (leafCount f) := by
  obtain ⟨hlive, hleaf⟩ : (leafTree f).live.length = (leafTree f).node.length ∧
      ∀ w l r, Node.int w l r ∉ (leafTree f).node :=
    scanLeaves_induct (fun t => t.live.length = t.node.length ∧ ∀ w l r, Node.int w l r ∉ t.node)
      (fun t s w h => ⟨by simp [h.1], by simpa using h.2⟩) _ _ _ ⟨rfl, by simp [Tree.zero]⟩
  have hlen := length_node_leafTree f
  exact ⟨hlen.ge, by omega, fun i w l r hi => absurd (List.mem_of_getElem? hi) (hleaf w l r)⟩

theorem mergeOnce_layered (k : Nat) (t t' : Tree) (h : t.Layered k) (hm : mergeOnce t = some t') : t'.Layered k := by
  have hlive := mergeOnce_live_length t t' hm
  have hleaves := h.leaves
  have hsize := h.size
  obtain ⟨a, b, -, -, rfl⟩ := mergeOnce_cases t t' hm
  refine ⟨by simp; omega, by simp at hlive ⊢; omega, fun i w l r hi => ?_⟩
  rcases Nat.lt_or_ge i t.node.length with hlt | hge
  · rw [List.getElem?_append_left hlt] at hi
    exact h.above i w l r hi
  · omega

theorem Tree.setRoot_root_eq_some (t : Tree) (r : Nat) (unset : t.root = none) (h : t.setRoot.root = some r) :
    t.live = [r] := by
  unfold Tree.setRoot at h
  split at h
  · next x hx => rw [hx, Option.some.inj h]
  · simp [unset] at h

/-- A walk only passes records above the k leaves, each lower than the one before. -/
theorem length_le_of_follow (node : List Node) (k : Nat)
    (child : ∀ i w l r, node[i]? = some (Node.int w l r) → l < i ∧ r < i)
    (above : ∀ i w l r, node[i]? = some (Node.int w l r) → k ≤ i)
    (q : Bits) (i j : Nat) (h : follow node i q = some j) : q.length ≤ i + 1 - k := by
  induction q generalizing i with
  | nil => simp
  | cons b q ih =>
    cases hn : node[i]? with
    | none => simp [follow, hn] at h
    | some n =>
      cases n with
      | leaf sym w => simp [follow, hn] at h
      | int w l r =>
        rw [follow_cons_of_int _ _ _ _ _ _ _ hn] at h
        have hlen := ih _ h
        have hlow : (if b then r else l) < i := by
          have := child i w l r hn
          cases b
          · exact this.1
          · exact this.2
        have := above i w l r hn
        rw [List.length_cons]; omega

/-- A path to a leaf is shorter than the number of leaves (R134). -/
theorem length_lt_leafCount_of_pathTo (f : Table Word) (q : Bits) (b : Byte) (h : (buildTree f).PathTo q b) :
    q.length < leafCount f := by
  obtain ⟨t, ⟨hg, hl⟩, -, he⟩ :=
    buildTree_induct (fun t => t.Growing ∧ t.Layered (leafCount f)) f ⟨leafTree_growing f, leafTree_layered f⟩
      (fun t t' h hm => ⟨mergeOnce_growing t t' h.1 hm, mergeOnce_layered _ t t' h.2 hm⟩)
  obtain ⟨r, j, w, hr, hf, -⟩ := h
  rw [he] at hr hf
  rw [Tree.setRoot_node] at hf
  have hlive := t.setRoot_root_eq_some r hg.root hr
  have hlen := length_le_of_follow t.node (leafCount f)
    (fun i w l r hi => ⟨(hg.child i w l r hi).1, (hg.child i w l r hi).2.1⟩) hl.above q r j hf
  have hroot := hg.below r (by simp [hlive])
  have hcount := hg.count
  have hsize := hl.size
  rw [hlive, List.length_singleton] at hsize
  omega

/-! ### The length of a code word -/

/-- DERIVE records the one-bit code of a root leaf, or paths from ROOT. -/
theorem pathTo_of_mem_treeCodes (t : Tree) (cs : List (Byte × Bits)) (b : Byte) (p : Bits)
    (hc : treeCodes t = some cs) (hm : (b, p) ∈ cs) : p = [false] ∨ t.PathTo p b := by
  cases hr : t.root with
  | none =>
    obtain rfl : [] = cs := by simpa [treeCodes, hr] using hc
    simp at hm
  | some r =>
    simp only [treeCodes, hr] at hc
    cases hn : t.node[r]? with
    | none => simp [hn] at hc
    | some n =>
      cases n with
      | leaf sym w =>
        obtain rfl : [(sym, [false])] = cs := by simpa [hn] using hc
        exact .inl (by simpa using congrArg Prod.snd (List.mem_singleton.1 hm))
      | int w l r' =>
        have hv : visit t.node t.node.length r [] = some cs := by simpa [hn] using hc
        obtain ⟨q, j, w', rfl, hf, hj⟩ := (visit_mem _ _ _ _ _ hv b p).1 hm
        exact .inr ⟨r, j, w', hr, hf, hj⟩

/-- A code word has at most 255 bits (R134). -/
theorem length_le_of_mem_treeCodes (f : Table Word) (cs : List (Byte × Bits)) (b : Byte) (p : Bits)
    (hc : treeCodes (buildTree f) = some cs) (hm : (b, p) ∈ cs) : p.length ≤ 255 := by
  rcases pathTo_of_mem_treeCodes _ cs b p hc hm with rfl | hp
  · simp
  · have := length_lt_leafCount_of_pathTo f p b hp
    have := leafCount_le f
    omega

/-- Every code in use has at most n bits. -/
def CodesWithin (n : Nat) (code : Table CodeEntry) : Prop :=
  ∀ b, (code.at b).valid = true → (code.at b).len ≤ n

theorem clearCodes_within (n : Nat) (code : Table CodeEntry) : CodesWithin n (clearCodes code) := by
  intro b hv
  simp [clearCodes] at hv

theorem foldl_recordCode_within (n : Nat) (cs : List (Byte × Bits)) (code : Table CodeEntry)
    (short : ∀ c ∈ cs, c.2.length ≤ n) (h : CodesWithin n code) : CodesWithin n (cs.foldl recordCode code) := by
  induction cs generalizing code with
  | nil => exact h
  | cons c cs ih =>
    refine ih _ (fun x hx => short x (List.mem_cons_of_mem _ hx)) fun b hv => ?_
    by_cases hb : c.1 = b
    · subst hb
      simpa [recordCode] using short c (by simp)
    · rw [recordCode, Table.at_put_of_ne _ _ _ _ hb] at hv ⊢
      exact h b hv

/-- DERIVE leaves codes of at most 255 bits. -/
theorem derivedCodes_within (f : Table Word) (cs : List (Byte × Bits)) (old : Table CodeEntry)
    (hc : treeCodes (buildTree f) = some cs) : CodesWithin 255 (cs.foldl recordCode (clearCodes old)) :=
  foldl_recordCode_within _ _ _ (fun c hm => length_le_of_mem_treeCodes f cs c.1 c.2 hc hm) (clearCodes_within _ _)

theorem length_encodeBytes_le (n : Nat) (code : Table CodeEntry) (bs : List Byte) (q : Bits)
    (h : CodesWithin n code) (he : encodeBytes code bs = some q) : q.length ≤ n * bs.length := by
  induction bs generalizing q with
  | nil =>
    obtain rfl : [] = q := Option.some.inj he
    simp
  | cons b bs ih =>
    simp only [encodeBytes] at he
    split at he
    · next hv =>
      split at he
      · simp at he
      · next q' hq =>
        obtain rfl := Option.some.inj he
        have hword : ((code.at b).word).length ≤ n :=
          (List.length_take_le _ _).trans (h b hv)
        have hrest := ih q' hq
        rw [List.length_append, List.length_cons, Nat.mul_succ]; omega
    · simp at he

/-! ### The walk of DECODE -/

/-- The walk did not leave the tree and emitted at most n bytes. -/
def WalkEnd.EmitsAtMost (n : Nat) : WalkEnd → Prop
  | .ended _ out => out.length ≤ n
  | .oneBit out => out.length ≤ n
  | .lost => False

theorem WalkEnd.EmitsAtMost.mono {m n : Nat} {e : WalkEnd} (h : e.EmitsAtMost m) (hle : m ≤ n) : e.EmitsAtMost n := by
  cases e with
  | ended cur out => exact Nat.le_trans h hle
  | oneBit out => exact Nat.le_trans h hle
  | lost => exact h

theorem walkLeaf_emitsAtMost (root : Nat) (sym : Byte) (q : Bits) (out : List Byte) :
    (walkLeaf root sym q out).EmitsAtMost (out.length + q.length) := by
  induction q generalizing out with
  | nil => exact Nat.le_refl _
  | cons b q ih =>
    cases b with
    | true => exact Nat.le_add_right _ _
    | false =>
      have := ih (out ++ [sym])
      rwa [List.length_append, List.length_singleton, Nat.add_assoc, Nat.add_comm 1] at this

/-- The walk stands on an internal node before every bit: a child is a record, and a leaf sends it back to ROOT. -/
theorem walkTree_emitsAtMost (node : List Node) (root : Nat)
    (child : ∀ i w l r, node[i]? = some (Node.int w l r) → l < i ∧ r < i)
    (hroot : ∃ w l r, node[root]? = some (Node.int w l r)) (q : Bits) (cur : Nat) (out : List Byte)
    (hcur : ∃ w l r, node[cur]? = some (Node.int w l r)) :
    (walkTree node root q cur out).EmitsAtMost (out.length + q.length) := by
  induction q generalizing cur out with
  | nil => exact Nat.le_refl _
  | cons b q ih =>
    obtain ⟨w, l, r, hn⟩ := hcur
    have hlt : (if b then r else l) < node.length := by
      have hc := child cur w l r hn
      have := (List.getElem?_eq_some_iff.1 hn).1
      cases b
      · exact hc.1.trans this
      · exact hc.2.trans this
    cases hm : node[if b then r else l]? with
    | none => exact absurd (List.getElem?_eq_none_iff.1 hm) (by omega)
    | some n =>
      cases n with
      | leaf sym w' =>
        simp only [walkTree, hn, hm]
        exact (ih root (out ++ [sym]) hroot).mono (by simp; omega)
      | int w' l' r' =>
        simp only [walkTree, hn, hm]
        exact (ih _ out ⟨w', l', r', hm⟩).mono (by simp)

/-- On a tree the walks stay inside, DECODE's walk emits at most one byte per bit. -/
theorem walkBits_emitsAtMost (t : Tree) (root : Nat) (q : Bits) (ok : t.Ok) (hr : t.root = some root) :
    (walkBits t root q).EmitsAtMost q.length := by
  cases hn : t.node[root]? with
  | none => exact absurd (List.getElem?_eq_none_iff.1 hn) (by have := ok.root root hr; omega)
  | some n =>
    cases n with
    | leaf sym w =>
      simp only [walkBits, hn]
      exact (walkLeaf_emitsAtMost root sym q []).mono (by simp)
    | int w l r =>
      simp only [walkBits, hn]
      exact (walkTree_emitsAtMost t.node root ok.child ⟨w, l, r, hn⟩ q root [] ⟨w, l, r, hn⟩).mono (by simp)

/-! ### A stage completes -/

theorem State.outCap_ge (s : State) : 1025 + 32 * s.inCap ≤ s.outCap := Nat.le_add_right _ _

theorem execDerive_completes (s : State) (ok : s.priv.tree.Ok) : ∃ t, execDerive s = .next t := by
  obtain ⟨cs, hcs⟩ := Option.isSome_iff_exists.1 (treeCodes_isSome _ ok)
  exact ⟨_, (execDerive_next s _).2 ⟨cs, hcs, rfl⟩⟩

theorem execEncode_completes (s : State) (fits : s.inLen.toNat ≤ s.inCap) : ∃ t, execEncode s = .next t := by
  cases hq : encodeBytes s.priv.code s.input with
  | none => exact ⟨_, (execEncode_next s _).2 ⟨fits, .inl ⟨hq, rfl⟩⟩⟩
  | some q => exact ⟨_, (execEncode_next s _).2 ⟨fits, .inr ⟨q, hq, rfl⟩⟩⟩

theorem execParse_completes (s : State) (fits : s.inLen.toNat ≤ s.inCap) : ∃ t, execParse s = .next t := by
  rcases Nat.lt_or_ge s.inLen.toNat 1025 with hl | hl
  · exact ⟨_, (execParse_next s _).2 (.inl ⟨hl, rfl⟩)⟩
  · rcases Nat.lt_or_ge 7 (s.ibufByte 1024).toNat with hp | hp
    · exact ⟨_, (execParse_next s _).2 (.inr (.inl ⟨hl, fits, hp, rfl⟩))⟩
    · exact ⟨_, (execParse_next s _).2 (.inr (.inr ⟨hl, fits, hp, rfl⟩))⟩

theorem execUnpack_completes (s : State) : ∃ t, execUnpack s = .next t := by
  rcases Nat.lt_or_ge (8 * s.priv.plen) s.priv.pad.toNat with hp | hp
  · exact ⟨_, (execUnpack_next s _).2 (.inl ⟨hp, rfl⟩)⟩
  · exact ⟨_, (execUnpack_next s _).2 (.inr ⟨hp, rfl⟩)⟩

theorem execDecode_completes (s : State) (ok : s.priv.tree.Ok) (fits : s.priv.nbits ≤ s.outCap) :
    ∃ t, execDecode s = .next t := by
  cases hr : s.priv.tree.root with
  | none => exact ⟨_, (execDecode_next s _).2 (.inl ⟨hr, rfl⟩)⟩
  | some root =>
    have hlen : (s.priv.bitseq.take s.priv.nbits).length ≤ s.outCap := (List.length_take_le _ _).trans fits
    have hwalk := (walkBits_emitsAtMost _ root (s.priv.bitseq.take s.priv.nbits) ok hr).mono hlen
    cases hw : walkBits s.priv.tree root (s.priv.bitseq.take s.priv.nbits) with
    | lost => simp [hw, WalkEnd.EmitsAtMost] at hwalk
    | oneBit out =>
      rw [hw] at hwalk
      exact ⟨_, (execDecode_next s _).2 (.inr ⟨root, hr, .inl ⟨out, hw, hwalk, rfl⟩⟩)⟩
    | ended cur out =>
      rw [hw] at hwalk
      by_cases hc : cur = root
      · exact ⟨_, (execDecode_next s _).2 (.inr ⟨root, hr, .inr ⟨cur, out, hw, hwalk, .inl ⟨hc, rfl⟩⟩⟩)⟩
      · exact ⟨_, (execDecode_next s _).2 (.inr ⟨root, hr, .inr ⟨cur, out, hw, hwalk, .inr ⟨hc, rfl⟩⟩⟩)⟩

namespace State.Inv

variable {s : State}

/-- The container of a running COMPRESS fits OBUF (R67): 255 bits per input byte are less than 32 bytes. -/
theorem container_fits (h : s.Inv) (hb : s.status.busy = true) (hst : s.status.stage = 6) :
    1025 + s.priv.plen ≤ s.outCap := by
  have hop : s.priv.op = .compress := h.op_eq hb _ hst (by decide)
  obtain ⟨-, built, ⟨cs, old, hcs, hcode⟩, ⟨hq, hn⟩, -, hplen, -⟩ :=
    (compressData_six s).1 (h.compressData hb hop _ hst)
  rw [built] at hcs
  rw [hcode] at hq
  have hbits := length_encodeBytes_le 255 _ _ _ (derivedCodes_within _ cs old hcs) hq
  rw [← hn, length_input] at hbits
  have hin := h.regs.inLen
  have hcap := s.outCap_ge
  rw [hplen, packLen]
  omega

/-- The bytes of a running DECOMPRESS fit OBUF (R67): there are not more than bits in the payload. -/
theorem decoded_fits (h : s.Inv) (hb : s.status.busy = true) (hst : s.status.stage = 9) :
    s.priv.nbits ≤ s.outCap := by
  have hop : s.priv.op = .decompress := h.op_eq hb _ hst (by decide)
  obtain ⟨⟨-, hplen, -⟩, -, -, hn, -⟩ := (decompressData_nine s).1 (h.decompressData hb hop _ hst)
  have hin := h.regs.inLen
  have hcap := s.outCap_ge
  omega

/-- DERIVE works on a tree of BUILD. -/
theorem tree_ok_of_derive (h : s.Inv) (hb : s.status.busy = true) (hst : s.status.stage = 3) : s.priv.tree.Ok := by
  have hop : s.priv.op = .compress := h.op_eq hb _ hst (by decide)
  obtain ⟨-, built⟩ := (compressData_three s).1 (h.compressData hb hop _ hst)
  exact built ▸ buildTree_ok _

/-- DECODE works on a tree of BUILD. -/
theorem tree_ok_of_decode (h : s.Inv) (hb : s.status.busy = true) (hst : s.status.stage = 9) : s.priv.tree.Ok := by
  have hop : s.priv.op = .decompress := h.op_eq hb _ hst (by decide)
  obtain ⟨-, ⟨built, -⟩, -⟩ := (decompressData_nine s).1 (h.decompressData hb hop _ hst)
  exact built ▸ buildTree_ok _

/-- Every stage of a running command completes. -/
theorem exec_completes (h : s.Inv) (hb : s.status.busy = true) (i : Instr)
    (hc : encodeWord i = .stage s.status.stage) : ∃ t, exec i s = .next t := by
  have fits := h.regs.inLen
  cases i <;> simp only [encodeWord, CodeWord.stage.injEq, reduceCtorEq] at hc
  case count => exact ⟨_, (execCount_next s _).2 ⟨fits, rfl⟩⟩
  case build => exact ⟨_, rfl⟩
  case derive => exact execDerive_completes s (h.tree_ok_of_derive hb hc.symm)
  case encode => exact execEncode_completes s fits
  case pack => exact ⟨_, rfl⟩
  case serialize =>
    have hfit := h.container_fits hb hc.symm
    exact ⟨_, (execSerialize_next s _).2 ⟨by omega, rfl⟩⟩
  case parse => exact execParse_completes s fits
  case unpack => exact execUnpack_completes s
  case decode => exact execDecode_completes s (h.tree_ok_of_decode hb hc.symm) (h.decoded_fits hb hc.symm)

end State.Inv

/-! ### A step faults only as an engine step -/

/-- Every stage of a command has a code that decodes (R88). -/
theorem decodeStage_of_mem_stages (op : Command) (c : BitVec 4) (h : c ∈ op.stages) :
    ∃ i, decodeStage c = .ok i := by
  cases op <;> simp only [Command.stages, List.mem_cons, List.not_mem_nil, or_false] at h
  case compress => rcases h with rfl | rfl | rfl | rfl | rfl | rfl <;> exact ⟨_, rfl⟩
  case decompress => rcases h with rfl | rfl | rfl | rfl <;> exact ⟨_, rfl⟩

/-- The engine step completes in every state that meets the invariant. -/
theorem State.Inv.engineStep_completes {s : State} (h : s.Inv) : ∃ t, engineStep s = .next t := by
  cases hb : s.status.busy with
  | false => exact ⟨s, engineStep_idle s hb⟩
  | true =>
    obtain ⟨-, -, hm⟩ := h.regs.busy_status hb
    obtain ⟨i, hd⟩ := decodeStage_of_mem_stages _ _ hm
    have hs : s.stirHidden.Inv := h.withUnseen _ _ _ _
    obtain ⟨s', hx⟩ := hs.exec_completes hb i (encodeWord_of_decodeStage _ i hd)
    exact ⟨_, (engineStep_busy s _ hb).2 ⟨i, s', hd, hx, rfl⟩⟩

theorem ite_ne_fault {p : Prop} [Decidable p] {x y : Host.Outcome State Fault Refusal} {r : Fault}
    (hx : x ≠ .fault r) (hy : y ≠ .fault r) : (if p then x else y) ≠ .fault r := by
  split
  · exact hx
  · exact hy

theorem writeCmd_ne_fault (w : Word) (s : State) (r : Fault) : writeCmd w s ≠ .fault r := by
  unfold writeCmd
  rcases decodeCmd_cases w with hd | hd | ⟨e, hd⟩ <;> simp only [decodeWord, hd]
  · exact ite_ne_fault nofun nofun
  · exact ite_ne_fault nofun nofun
  · exact nofun

theorem writeReg_ne_fault (n : Nat) (v : Len) (s : State) (r : Fault) : writeReg n v s ≠ .fault r := by
  unfold writeReg
  split
  · exact writeCmd_ne_fault _ s r
  · exact nofun
  · exact ite_ne_fault nofun (ite_ne_fault nofun nofun)
  · exact nofun
  · exact nofun

theorem readReg_ne_fault (n : Nat) (s : State) (r : Fault) : readReg n s ≠ .fault r := by
  unfold readReg
  split <;> exact nofun

/-- A move of the host faults only through the engine's step it leaves room for. -/
theorem hostMove_fault (m : HostMove) (s : State) (r : Fault) (h : hostMove m s = .fault r) :
    ∃ ms, engineStep { s with host := ms } = .fault r := by
  cases m with
  | reset => cases h
  | wrReg n v => exact absurd h (writeReg_ne_fault n v s r)
  | rdReg n => exact absurd h (readReg_ne_fault n s r)
  | wrIbuf a b => exact absurd h (ite_ne_fault nofun (ite_ne_fault nofun nofun))
  | rdIbuf a => exact absurd h (ite_ne_fault nofun (ite_ne_fault nofun nofun))
  | rdObuf a => exact absurd h (ite_ne_fault nofun (ite_ne_fault nofun nofun))
  | load bs => exact absurd h (ite_ne_fault nofun (ite_ne_fault nofun nofun))
  | move => exact absurd h (ite_ne_fault nofun (ite_ne_fault nofun nofun))
  | wait =>
    simp only [hostMove] at h
    split at h
    · cases h
    · exact ⟨_, h⟩
  | pass => exact ⟨s.host, h⟩

theorem step_fault (s : State) (r : Fault) (h : step s = .fault r) :
    ∃ ms, engineStep { s with host := ms } = .fault r := by
  cases hh : s.host with
  | nil => exact ⟨s.host, (step_of_host_nil s hh).symm.trans h⟩
  | cons m rest =>
    rw [step_of_host_cons s m rest hh] at h
    obtain ⟨ms, he⟩ := hostMove_fault m _ r h
    exact ⟨ms, he⟩

/-- Settles O54: only an engine step could fault, and under the invariant it completes. -/
theorem noRunReachesAFault : Obligations.NoRunReachesAFault := by
  intro s r h hf
  obtain ⟨ms, he⟩ := step_fault s r hf
  have hms : State.Inv { s with host := ms } := h.withUnseen _ _ _ _
  obtain ⟨t, ht⟩ := hms.engineStep_completes
  simp [ht] at he

end Sys2Proof.Machine
end

section
/-! PROOFS. LOAD and MOVE, the two moves of the host that fill IBUF with a block of bytes: LOAD as a run of
single-byte writes, and the operand a command finds afterwards. -/

namespace Sys2Proof.Machine

/-! ### The two moves while BUSY = 0 -/

theorem loadBytes_of_idle (s : State) (bs : List Byte) (hb : s.status.busy = false) (hl : bs.length ≤ s.inCap) :
    loadBytes bs s = .next (s.loadInput bs) := by
  rw [loadBytes, if_neg (by omega), if_neg (by simp [hb])]

theorem moveResult_of_idle (s : State) (hb : s.status.busy = false) (hl : s.outLen.toNat ≤ s.inCap) :
    moveResult s = .next (s.loadInput s.output) := by
  rw [moveResult, if_neg (by simp [hb]), if_neg (by omega)]

/-! ### A block written byte by byte -/

/-- A block can be stored one byte at a time, by rising offset. -/
theorem Memory.write_cons (m : Memory) (a : Nat) (b : Byte) (bs : List Byte) (h : Memory.wf m) :
    Memory.write m a (b :: bs) = Memory.write (Memory.write m a [b]) (a + 1) bs := by
  refine Memory.eq_of_read_eq _ _ (Memory.wf_write _ _ _ h)
    (Memory.wf_write _ _ _ (Memory.wf_write _ _ _ h)) fun k => ?_
  simp only [Memory.read_write, List.length_cons, List.length_nil]
  rcases Nat.lt_trichotomy k a with hk | rfl | hk
  · rw [if_neg (by omega), if_neg (by omega), if_neg (by omega)]
  · rw [if_pos (by omega), if_neg (by omega), if_pos (by omega), Nat.sub_self]
    rfl
  · rw [if_neg (c := a ≤ k ∧ k < a + (0 + 1)) (by omega), show k - a = (k - (a + 1)) + 1 by omega,
      List.getElem?_cons_succ]
    exact if_congr (by omega) rfl rfl

theorem Memory.write_nil (m : Memory) (a : Nat) (h : Memory.wf m) : Memory.write m a [] = m :=
  Memory.eq_of_read_eq _ _ (Memory.wf_write _ _ _ h) h fun k =>
    Memory.read_write_outside m a k [] (by simp; omega)

/-! ### Scripts -/

theorem run_succ_of_next (M : Host.Core) (n : Nat) (s t : M.State) (h : M.step s = .next t) :
    M.run (n + 1) s = M.run n t := by
  simp only [Host.Core.run, h]

/-- A move that answers a next state and takes itself off the script: the run goes on with the other moves. -/
theorem runScript_cons (n : Nat) (m : HostMove) (ms : List HostMove) (s t : State)
    (h : hostMove m { s with host := ms } = .next { t with host := ms }) :
    runScript (n + 1) (m :: ms) s = runScript n ms t :=
  run_succ_of_next Sys2Proof.core n { s with host := m :: ms } { t with host := ms }
    ((step_of_host_cons { s with host := m :: ms } m ms rfl).trans h)

/-! ### LOAD as the writes of its bytes -/

/-- The single-byte writes of a block from an offset on store the block. -/
theorem runScript_wrIbuf_block (n : Nat) (ms : List HostMove) (bs : List Byte) (a : Nat) (s : State)
    (hb : s.status.busy = false) (hw : Memory.wf s.ibuf) (hl : a + bs.length ≤ s.inCap) :
    runScript (bs.length + n) (bs.mapIdx (fun k b => HostMove.wrIbuf (a + k) b) ++ ms) s =
      runScript n ms { s with ibuf := Memory.write s.ibuf a bs } := by
  induction bs generalizing a s with
  | nil => simp [Memory.write_nil s.ibuf a hw]
  | cons b bs ih =>
    rw [List.length_cons] at hl
    have first : ∀ rest, hostMove (.wrIbuf a b) { s with host := rest } =
        .next { s with ibuf := Memory.write s.ibuf a [b], host := rest } :=
      fun rest => writeIbuf_of_idle _ a b (show a < s.inCap by omega) hb
    calc runScript ((b :: bs).length + n) ((b :: bs).mapIdx (fun k b => HostMove.wrIbuf (a + k) b) ++ ms) s
      _ = runScript (bs.length + n + 1)
            (.wrIbuf a b :: (bs.mapIdx (fun k b => HostMove.wrIbuf (a + 1 + k) b) ++ ms)) s := by
          simp [Nat.add_comm, Nat.add_left_comm]
      _ = runScript (bs.length + n) (bs.mapIdx (fun k b => HostMove.wrIbuf (a + 1 + k) b) ++ ms)
            { s with ibuf := Memory.write s.ibuf a [b] } := runScript_cons _ _ _ s _ (first _)
      _ = runScript n ms { s with ibuf := Memory.write (Memory.write s.ibuf a [b]) (a + 1) bs } :=
          ih (a + 1) _ hb (Memory.wf_write _ _ _ hw) (show a + 1 + bs.length ≤ s.inCap by omega)
      _ = runScript n ms { s with ibuf := Memory.write s.ibuf a (b :: bs) } := by
          rw [Memory.write_cons s.ibuf a b bs hw]

/-- Settles O17: the byte writes store the block, and the number of its bytes fits IN_LEN. -/
theorem loadIsTheWritesOfItsBytes : Obligations.LoadIsTheWritesOfItsBytes := by
  intro s bs hb hw hl
  have hc : s.inCap < 2 ^ 32 := s.caps.inCap.isLt
  have len : (BitVec.ofNat 40 bs.length).toNat = bs.length := by
    rw [BitVec.toNat_ofNat, Nat.mod_eq_of_lt (by omega)]
  have bytes := runScript_wrIbuf_block 1 [.wrReg 2 (BitVec.ofNat 40 bs.length)] bs 0 s hb hw (by omega)
  simp only [Nat.zero_add] at bytes
  have inLen : hostMove (.wrReg 2 (BitVec.ofNat 40 bs.length))
      { s with ibuf := Memory.write s.ibuf 0 bs, host := [] } = .next { s.loadInput bs with host := [] } := by
    rw [State.loadInput, ← BitVec.setWidth_ofNat_of_le (show 32 ≤ 40 by decide)]
    exact writeInLen_of_idle _ _ hb (len.trans_le hl)
  have load : hostMove (.load bs) { s with host := [] } = .next { s.loadInput bs with host := [] } :=
    loadBytes_of_idle _ bs hb hl
  rw [bytes, runScript_cons 0 _ [] _ (s.loadInput bs) inLen, runScript_cons 0 _ [] s (s.loadInput bs) load]

/-! ### The operand after a block is stored -/

/-- What IBUF holds after a block is stored from offset 0: the block, and above it what was there. -/
theorem State.ibufByte_loadInput (s : State) (bs : List Byte) (k : Nat) :
    (s.loadInput bs).ibufByte k = bs.getD k (s.ibufByte k) := by
  rcases Nat.lt_or_ge k bs.length with hk | hk
  · have h := Memory.read_write_inside s.ibuf 0 k bs hk
    rw [Nat.zero_add] at h
    simp [State.ibufByte, h, hk]
  · have h := Memory.read_write_outside s.ibuf 0 k bs (by omega)
    simp [State.ibufByte, h, hk]

/-- The operand is the block stored, when its length fits IN_LEN (R195). -/
theorem State.input_loadInput (s : State) (bs : List Byte) (h : bs.length < 2 ^ 32) :
    (s.loadInput bs).input = bs := by
  have hl : (s.loadInput bs).inLen.toNat = bs.length := by
    rw [State.loadInput_inLen, BitVec.toNat_ofNat, Nat.mod_eq_of_lt h]
  refine List.ext_getElem (by rw [State.length_input, hl]) fun k _ hk => ?_
  simp [State.input, State.ibufBytes, State.ibufByte_loadInput, hk]

/-- Settles O18: MOVE stores the result as a block, and OUT_LEN fits IN_LEN. -/
theorem moveMakesTheResultTheInput : Obligations.MoveMakesTheResultTheInput := by
  intro s rest hh hb hl
  have hc : s.inCap < 2 ^ 32 := s.caps.inCap.isLt
  have hlen : s.output.length < 2 ^ 32 := by rw [State.length_output]; omega
  refine ⟨State.loadInput { s with host := rest } s.output, ?_, State.input_loadInput _ _ hlen, ?_, fun a ha => ?_,
    rfl, rfl, rfl, rfl, rfl, rfl⟩
  · rw [step_of_host_cons s _ rest hh]
    exact moveResult_of_idle _ hb hl
  · rw [State.loadInput_inLen, BitVec.toNat_ofNat, Nat.mod_eq_of_lt hlen, State.length_output]
  · rw [State.ibufByte_loadInput, List.getD_eq_default _ _ (by rwa [State.length_output])]
    rfl

end Sys2Proof.Machine
end

section
/-! PROOFS. The two code formats: which words are a command, and what a placed table word runs. -/

namespace Sys2Proof.Machine

/-! ### Command words -/

/-- OP is the remainder of the word by 16, so CMD[31:4] has no part in it (R23, R87). -/
theorem cmdOp_eq_iff (w : Word) (c : BitVec 4) : cmdOp w = c ↔ w.toNat % 16 = c.toNat := by
  rw [← BitVec.toNat_inj, cmdOp, BitVec.toNat_setWidth]

@[simp] theorem cmdOp_cmdWord (rsv : BitVec 28) (op : BitVec 4) : cmdOp (cmdWord rsv op) = op :=
  BitVec.setWidth_append_eq_right

theorem decodeCmd_eq_compress_iff (w : Word) : decodeCmd w = .ok .compress ↔ cmdOp w = 1#4 := by
  unfold decodeCmd
  split
  · next h => simp [h]
  · next h => split <;> simp [h]

theorem decodeCmd_eq_decompress_iff (w : Word) : decodeCmd w = .ok .decompress ↔ cmdOp w = 2#4 := by
  unfold decodeCmd
  split
  · next h => simp [h]
  · next h1 => split <;> simp [*]

theorem decodeCmd_eq_error_iff (w : Word) :
    (∃ e, decodeCmd w = .error e) ↔ cmdOp w ≠ 1#4 ∧ cmdOp w ≠ 2#4 := by
  unfold decodeCmd
  split
  · next h => simp [h]
  · next h1 => split <;> simp [*]

/-- Settles O4: the decoder looks at OP alone, and it is the inverse of the encoder in both formats. -/
theorem codesDecodeToTheirOperations : Obligations.CodesDecodeToTheirOperations := by
  refine ⟨fun w => ⟨?compress, ?decompress, ?none⟩, fun rsv => ⟨?rsvCompress, ?rsvDecompress⟩,
    decodeWord_encodeWord, encodeWord_of_decodeStage⟩
  case compress => rw [decodeCmd_eq_compress_iff, cmdOp_eq_iff]; rfl
  case decompress => rw [decodeCmd_eq_decompress_iff, cmdOp_eq_iff]; rfl
  case none => rw [decodeCmd_eq_error_iff, Ne, Ne, cmdOp_eq_iff, cmdOp_eq_iff]; rfl
  case rsvCompress => rw [decodeCmd_eq_compress_iff, cmdOp_cmdWord]
  case rsvDecompress => rw [decodeCmd_eq_decompress_iff, cmdOp_cmdWord]

/-! ### Table words -/

/-- Settles O5: seven words, each decoded by evaluation. -/
theorem sampleTableWordsDecode : Obligations.SampleTableWordsDecode := by
  unfold Obligations.SampleTableWordsDecode
  decide

theorem decodeTableWord_eq_some_iff (nbits w : Nat) (i : Instr) :
    decodeTableWord nbits w = some i ↔ ∃ c, tableCode nbits w = some c ∧ decodeWord c = .ok i := by
  unfold decodeTableWord
  cases tableCode nbits w with
  | none => simp
  | some c => cases h : decodeWord c <;> simp [h]

/-- A table word of more than 8 bits is a CMD word (log 12). -/
theorem tableCode_of_long (nbits w : Nat) (c : CodeWord) (h : tableCode nbits w = some c) (hn : 8 < nbits) :
    c = .cmd (BitVec.ofNat 32 w) := by
  rw [tableCode, if_neg (by omega)] at h
  exact (Option.some.inj (Option.ite_none_right_eq_some.1 h).2).symm

/-- A table word of at most 8 bits is a STAGE field (log 12). -/
theorem tableCode_of_short (nbits w : Nat) (c : CodeWord) (h : tableCode nbits w = some c) (hn : nbits ≤ 8) :
    c = .stage (BitVec.ofNat 4 w) := by
  rw [tableCode, if_pos hn] at h
  exact (Option.some.inj (Option.ite_none_right_eq_some.1 h).2).symm

/-! ### Placed codes -/

theorem State.withFetchWord_of_tableCode (s : State) (nbits w : Nat) (c : CodeWord)
    (h : tableCode nbits w = some c) : s.withFetchWord nbits w = s.placeCode c := by
  rw [State.withFetchWord, State.placeTableWord, h]

/-- A placed command word is the host's next CMD write, whose 40 bits carry the word whole (log 24). -/
theorem step_placeCode_cmd (s : State) (v : Word) (i : Instr) (h : decodeCmd v = .ok i) :
    step (s.placeCode (.cmd v)) = exec i { s.placeCode (.cmd v) with host := s.host } := by
  obtain ⟨-, -, cmdWrite, -⟩ := stepRunsTheDecodedOperation
  have hv : (v.setWidth 40).setWidth 32 = v := by simp
  exact cmdWrite (s.placeCode (.cmd v)) (v.setWidth 40) s.host i rfl (hv.symm ▸ h)

/-- A placed stage code leaves the engine the next step. -/
theorem step_placeCode_stage (s : State) (c : BitVec 4) :
    step (s.placeCode (.stage c)) = engineStep { s.placeCode (.stage c) with host := s.host } := by
  obtain ⟨-, pass, -, -⟩ := stepRunsTheDecodedOperation
  exact pass (s.placeCode (.stage c)) s.host rfl

/-- Settles O7: the width of the table word says its format, and in either format the code stands where the next step
takes it from. -/
theorem placedTableWordRuns : Obligations.PlacedTableWordRuns := by
  intro s nbits w i h
  obtain ⟨c, hc, hd⟩ := (decodeTableWord_eq_some_iff nbits w i).1 h
  rw [s.withFetchWord_of_tableCode nbits w c hc]
  refine ⟨fun hn => ?long, fun hn => ?short⟩
  case long =>
    obtain rfl := tableCode_of_long nbits w c hc hn
    exact step_placeCode_cmd s _ i hd
  case short =>
    obtain rfl := tableCode_of_short nbits w c hc hn
    exact ⟨rfl, hd, step_placeCode_stage s _⟩

end Sys2Proof.Machine
end

section
/-! PROOFS. The stage COUNT: the table it leaves is the table of the occurrences in the operand, and the report on the
empty operand is the sequencer's. -/

namespace Sys2Proof.Machine

/-! ### The counters of a byte list -/

/-- The counters are summed in the order of the byte values. -/
theorem counterSum_eq_sum_at (f : Table Word) :
    counterSum f = ∑ i : Fin 256, (f.at (BitVec.ofFin i)).toNat := by
  have hf : f.toList = List.ofFn fun i : Fin 256 => f.at (BitVec.ofFin i) := by
    refine List.ext_getElem (by simp only [Table.length_toList, List.length_ofFn]) fun i hi hi' => ?_
    simp only [List.getElem_ofFn, Vector.getElem_toList, Table.at, BitVec.toNat_ofFin]
  rw [counterSum, hf, List.map_ofFn, List.sum_ofFn]
  simp only [Function.comp_apply]

/-- Every byte of a list is counted under exactly one byte value. -/
theorem sum_count_eq_length (bs : List Byte) : ∑ i : Fin 256, bs.count (BitVec.ofFin i) = bs.length := by
  have hcount (i : Fin 256) : bs.count (BitVec.ofFin i) = (bs.map BitVec.toFin : Multiset (Fin 256)).count i := by
    rw [Multiset.coe_count]
    exact (List.count_map_of_injective bs BitVec.toFin (fun _ _ => BitVec.eq_of_toFin_eq) (BitVec.ofFin i)).symm
  simp only [hcount]
  rw [Multiset.sum_count_eq_card fun i _ => Finset.mem_univ i, Multiset.coe_card, List.length_map]

/-- The counters of a list sum to its length (R101 (a)). -/
theorem counterSum_countBytes (bs : List Byte) (h : bs.length < 2 ^ 32) :
    counterSum (countBytes bs) = bs.length := by
  simp only [counterSum_eq_sum_at, countBytes_at_toNat bs _ h, sum_count_eq_length]

/-- A counter is non-zero exactly for a byte value that occurs (R101 (b)). -/
theorem countBytes_at_ne_zero_iff (bs : List Byte) (b : Byte) (h : bs.length < 2 ^ 32) :
    (countBytes bs).at b ≠ 0 ↔ b ∈ bs := by
  rw [← List.count_pos_iff, ← countBytes_at_toNat bs b h, ← BitVec.toNat_ne_iff_ne]
  exact Nat.pos_iff_ne_zero.symm

/-! ### The operand of COUNT -/

/-- The number of bytes of the operand is held in the 32 bits of IN_LEN. -/
theorem State.length_input_lt (s : State) : s.input.length < 2 ^ 32 := by
  rw [s.length_input]
  exact s.inLen.isLt

theorem State.input_eq_nil (s : State) (h : s.inLen = 0) : s.input = [] := by
  apply List.eq_nil_of_length_eq_zero
  simp [h]

/-- COUNT of an empty operand clears every counter. -/
theorem execCount_of_empty (s : State) (h : s.inLen = 0) :
    execCount s = .next { s with priv := { s.priv with freq := Vector.replicate 256 0 } } := by
  refine (execCount_next s _).2 ⟨by simp [h], ?_⟩
  rw [s.input_eq_nil h]
  rfl

/-! ### The step of a stage, and what follows COUNT -/

/-- With the script empty, the stage of a running command that answers a state leaves it to the sequencer. -/
theorem step_of_stage (s c : State) (i : Instr) (hh : s.host = []) (hb : s.status.busy = true)
    (hd : decodeStage s.status.stage = .ok i) (hx : exec i s.stirHidden = .next c) :
    step s = .next (c.afterStage i) := by
  rw [step_of_host_nil s hh, engineStep_busy s _ hb]
  exact ⟨i, c, hd, hx, rfl⟩

/-- After COUNT of an empty operand the sequencer raises EmptyInput (R102). -/
theorem State.afterStage_count_of_empty (s : State) (hb : s.status.busy = true) (h : s.inLen = 0) :
    s.afterStage .count = s.raise .emptyInput :=
  (s.afterStage_running .count hb).trans (s.advance_count_of_empty h)

/-! ### The obligations -/

/-- Settles O19: the table is `countBytes` of the operand, whose length no counter can exceed. -/
theorem countCountsEveryByteValue : Obligations.CountCountsEveryByteValue := by
  intro s fits
  exact ⟨countBytes s.input, (execCount_next s _).2 ⟨fits, rfl⟩,
    fun b => countBytes_at_toNat s.input b s.length_input_lt⟩

/-- Settles O20: the table is a function of the operand, so each clause is a fact about `countBytes`. -/
theorem countedTableMatchesTheInput : Obligations.CountedTableMatchesTheInput := by
  intro s t h
  obtain ⟨-, rfl⟩ := (execCount_next s t).1 h
  refine ⟨?sum, fun b => countBytes_at_ne_zero_iff s.input b s.length_input_lt, fun p u hu => ?inputAlone,
    rfl, rfl, rfl⟩
  case sum => exact (counterSum_countBytes s.input s.length_input_lt).trans s.length_input
  case inputAlone =>
    obtain ⟨-, rfl⟩ := (execCount_next _ u).1 hu
    rfl

/-- Settles O48: COUNT leaves BUSY set, and the fault is what the sequencer does after it. -/
theorem emptyInputIsReportedAfterCount : Obligations.EmptyInputIsReportedAfterCount := by
  intro s hh hb hst hz
  have hx := execCount_of_empty s.stirHidden hz
  have hd : decodeStage s.status.stage = .ok .count := by rw [hst]; rfl
  have hend := step_of_stage s _ .count hh hb hd hx
  rw [State.afterStage_count_of_empty _ (by exact hb) (by exact hz)] at hend
  refine ⟨⟨_, hx, rfl, Table.at_replicate 0⟩, _, hend, ?status, rfl, rfl, hz⟩
  case status =>
    rw [← hst]
    rfl

end Sys2Proof.Machine
end

section
/-! PROOFS. The stage BUILD, one merge: the order of the collection is total, `minkey` is its least element (R112), and
a merge takes the two lowest live nodes (R111, R114). -/

namespace Sys2Proof.Machine

/-! ### The order of the collection -/

theorem keyLt_irrefl (node : List Node) (i : Nat) : ¬ keyLt node i i := by
  rw [keyLt_iff]; omega

theorem keyLt_trans (node : List Node) (i j k : Nat) (hij : keyLt node i j) (hjk : keyLt node j k) :
    keyLt node i k := by
  rw [keyLt_iff] at *; omega

theorem keyLt_asymm (node : List Node) (i j : Nat) (h : keyLt node i j) : ¬ keyLt node j i :=
  fun h' => keyLt_irrefl node i (keyLt_trans node i j i h h')

/-- Indices are distinct, so the order is total (R112). -/
theorem keyLt_of_not_keyLt (node : List Node) (i j : Nat) (hne : i ≠ j) (h : ¬ keyLt node i j) : keyLt node j i := by
  rw [keyLt_iff] at *; omega

theorem weight_le_of_keyLt (node : List Node) (i j : Nat) (h : keyLt node i j) :
    nodeWeight node i ≤ nodeWeight node j := by
  rw [keyLt_iff] at h; omega

theorem exists_minkey (node : List Node) (live : List Nat) (h : live ≠ []) : ∃ a, minkey node live = some a :=
  Option.ne_none_iff_exists'.1 (mt (minkey_eq_none node live).1 h)

/-- `minkey` is the element before every other one in the order of the collection (R112). -/
theorem minkey_eq_some_iff (node : List Node) (live : List Nat) (a : Nat) :
    minkey node live = some a ↔ a ∈ live ∧ ∀ i ∈ live, i ≠ a → keyLt node a i := by
  have least (c : Nat) (hc : minkey node live = some c) : c ∈ live ∧ ∀ i ∈ live, i ≠ c → keyLt node c i :=
    ⟨minkey_mem node live c hc, fun i hi hne =>
      keyLt_of_not_keyLt node i c hne (Bool.eq_false_iff.1 (minkey_le node live c hc i hi))⟩
  refine ⟨least a, fun ⟨ha, hlt⟩ => ?_⟩
  obtain ⟨c, hc⟩ := exists_minkey node live (List.ne_nil_of_mem ha)
  obtain ⟨hcl, hclt⟩ := least c hc
  by_cases hca : c = a
  · rw [hc, hca]
  · exact absurd (hclt a ha (Ne.symm hca)) (keyLt_asymm node a c (hlt c hcl hca))

/-- Settles O21: `minkey_eq_some_iff`, with the order of the collection written out. -/
theorem minkeyIsTheLeastKey : Obligations.MinkeyIsTheLeastKey := by
  refine fun node live => ⟨exists_minkey node live, fun a => ?_⟩
  simp only [minkey_eq_some_iff, keyLt_iff]

/-! ### Weights of a growing arena -/

theorem nodeWeight_of_getElem? (node : List Node) (i : Nat) (n : Node) (h : node[i]? = some n) :
    nodeWeight node i = n.weight := by
  rw [nodeWeight, h]

theorem nodeWeight_append (node more : List Node) (i : Nat) (h : i < node.length) :
    nodeWeight (node ++ more) i = nodeWeight node i := by
  simp only [nodeWeight, List.getElem?_append_left h]

@[simp] theorem nodeWeight_append_length (node : List Node) (n : Node) :
    nodeWeight (node ++ [n]) node.length = n.weight :=
  nodeWeight_of_getElem? _ _ n List.getElem?_concat_length

theorem keyLt_append (node more : List Node) (i j : Nat) (hi : i < node.length) (hj : j < node.length) :
    keyLt (node ++ more) i j = keyLt node i j := by
  simp only [keyLt, nodeWeight_append _ _ _ hi, nodeWeight_append _ _ _ hj]

/-! ### The two nodes a merge takes -/

/-- The tree in which a and b are merged: the new node is NODE[NN], with a on the left (R111, R114). -/
def Tree.merge (t : Tree) (a b : Nat) : Tree :=
  { t with
    node := t.node ++ [.int (nodeWeight t.node a + nodeWeight t.node b) a b]
    live := (t.live.erase a).erase b ++ [t.nn]
    nn := t.nn + 1 }

/-- a is the lowest live node and b the next lowest. -/
structure Tree.Lowest (t : Tree) (a b : Nat) : Prop where
  left   : a ∈ t.live
  right  : b ∈ t.live
  before : keyLt t.node a b
  rest   : ∀ i ∈ t.live, i ≠ a → i ≠ b → keyLt t.node b i

/-- LIVE is a set, so an element taken out is no longer there. -/
theorem Tree.Growing.nodup {t : Tree} (h : t.Growing) : t.live.Nodup :=
  h.live.imp Nat.ne_of_lt

theorem Tree.Growing.live_lt_length {t : Tree} (h : t.Growing) (i : Nat) (hi : i ∈ t.live) : i < t.node.length :=
  h.count ▸ h.below i hi

theorem Tree.Growing.mem_erase_iff {t : Tree} (h : t.Growing) (a i : Nat) : i ∈ t.live.erase a ↔ i ≠ a ∧ i ∈ t.live :=
  h.nodup.mem_erase_iff

/-- A merge removes the lowest live node, then the lowest of the rest. -/
theorem mergeOnce_eq_some_iff (t t' : Tree) (h : t.Growing) :
    mergeOnce t = some t' ↔ ∃ a b, t.Lowest a b ∧ t' = t.merge a b := by
  constructor
  · intro hm
    obtain ⟨a, b, ha, hb, rfl⟩ := mergeOnce_cases t t' hm
    obtain ⟨hal, hamin⟩ := (minkey_eq_some_iff _ _ _).1 ha
    obtain ⟨hbl, hbmin⟩ := (minkey_eq_some_iff _ _ _).1 hb
    obtain ⟨hba, hbl⟩ := (h.mem_erase_iff a b).1 hbl
    exact ⟨a, b, ⟨hal, hbl, hamin b hbl hba,
      fun i hi hia hib => hbmin i ((h.mem_erase_iff a i).2 ⟨hia, hi⟩) hib⟩, rfl⟩
  · rintro ⟨a, b, ⟨hal, hbl, hab, hrest⟩, rfl⟩
    have hba : b ≠ a := fun e => keyLt_irrefl t.node a (e ▸ hab)
    have first : minkey t.node t.live = some a := by
      refine (minkey_eq_some_iff _ _ _).2 ⟨hal, fun i hi hia => ?_⟩
      by_cases hib : i = b
      · exact hib ▸ hab
      · exact keyLt_trans _ _ _ _ hab (hrest i hi hia hib)
    have second : minkey t.node (t.live.erase a) = some b := by
      refine (minkey_eq_some_iff _ _ _).2 ⟨(h.mem_erase_iff a b).2 ⟨hba, hbl⟩, fun i hi hib => ?_⟩
      obtain ⟨hia, hil⟩ := (h.mem_erase_iff a i).1 hi
      exact hrest i hil hia hib
    simp only [mergeOnce, first, second, Tree.merge]

namespace Tree.Lowest

variable {t : Tree} {a b : Nat} (h : t.Lowest a b)
include h

theorem ne : a ≠ b := fun e => keyLt_irrefl t.node a (by simpa [← e] using h.before)

theorem mergeOnce_eq (hg : t.Growing) : mergeOnce t = some (t.merge a b) :=
  (mergeOnce_eq_some_iff t _ hg).2 ⟨a, b, h, rfl⟩

theorem merge_growing (hg : t.Growing) : (t.merge a b).Growing :=
  mergeOnce_growing t _ hg (h.mergeOnce_eq hg)

/-- LIVE is the two nodes a merge takes and the nodes it leaves. -/
theorem live_perm : t.live.Perm (a :: b :: (t.live.erase a).erase b) :=
  (List.perm_cons_erase h.left).trans
    ((List.perm_cons_erase ((List.mem_erase_of_ne h.ne.symm).2 h.right)).cons a)

end Tree.Lowest

/-- The induction over BUILD by the two nodes each merge takes. -/
theorem buildTree_induct_lowest (P : Tree → Prop) (f : Table Word) (leaves : P (leafTree f))
    (step : ∀ (t : Tree) (a b : Nat), t.Growing → t.Lowest a b → P t → P (t.merge a b)) :
    ∃ t : Tree, t.Growing ∧ P t ∧ t.live.length ≤ 1 ∧ buildTree f = t.setRoot := by
  obtain ⟨t, ⟨hg, hP⟩, one, he⟩ := buildTree_induct (fun t => t.Growing ∧ P t) f ⟨leafTree_growing f, leaves⟩
    fun t t' ⟨hg, hP⟩ hm => by
      obtain ⟨a, b, hab, rfl⟩ := (mergeOnce_eq_some_iff t t' hg).1 hm
      exact ⟨hab.merge_growing hg, step t a b hg hab hP⟩
  exact ⟨t, hg, hP, one, he⟩

/-- A merge takes a and b out of LIVE and puts the new node in. -/
theorem Tree.Growing.mem_live_merge {t : Tree} (h : t.Growing) (a b i : Nat) :
    i ∈ (t.merge a b).live ↔ (i ∈ t.live ∧ i ≠ a ∧ i ≠ b) ∨ i = t.node.length := by
  rw [Tree.merge, List.mem_append, List.mem_singleton, (h.nodup.erase a).mem_erase_iff, h.mem_erase_iff, h.count]
  tauto

theorem Tree.nodeWeight_merge_of_lt (t : Tree) (a b i : Nat) (h : i < t.node.length) :
    nodeWeight (t.merge a b).node i = nodeWeight t.node i :=
  nodeWeight_append _ _ _ h

@[simp] theorem Tree.nodeWeight_merge_length (t : Tree) (a b : Nat) :
    nodeWeight (t.merge a b).node t.node.length = nodeWeight t.node a + nodeWeight t.node b :=
  nodeWeight_append_length _ _

@[simp] theorem Tree.length_node_merge (t : Tree) (a b : Nat) : (t.merge a b).node.length = t.node.length + 1 :=
  List.length_append

/-- An internal node after a merge is an older one, or the new one over a and b. -/
theorem Tree.getElem?_merge_int (t : Tree) (a b i w l r : Nat)
    (h : (t.merge a b).node[i]? = some (Node.int w l r)) :
    t.node[i]? = some (Node.int w l r) ∨
      i = t.node.length ∧ w = nodeWeight t.node a + nodeWeight t.node b ∧ l = a ∧ r = b := by
  have hi := (List.getElem?_eq_some_iff.1 h).1
  rw [t.length_node_merge] at hi
  rcases Nat.lt_or_eq_of_le (Nat.le_of_lt_succ hi) with hi | rfl
  · exact .inl ((List.getElem?_append_left hi).symm.trans h)
  · rw [Tree.merge, List.getElem?_concat_length] at h
    obtain ⟨rfl, rfl, rfl⟩ := Node.int.inj (Option.some.inj h)
    exact .inr ⟨rfl, rfl, rfl, rfl⟩

end Sys2Proof.Machine
end

section
/-! PROOFS. The stage BUILD, the leaves: the scan makes one record per non-zero counter, in ascending order of byte
value (R110), and these records stay the first of the arena. -/

namespace Sys2Proof.Machine

/-! ### The leaves of a table -/

/-- The byte values in ascending order. -/
def allBytes : List Byte := (List.range 256).map (BitVec.ofNat 8)

/-- The byte values with a non-zero counter, in ascending order. -/
def symbols (f : Table Word) : List Byte := allBytes.filter fun b => f.at b ≠ 0

/-- The leaf of a byte value (R110). -/
def leafOf (f : Table Word) (b : Byte) : Node := .leaf b (f.at b).toNat

theorem allBytes_pairwise : allBytes.Pairwise fun a b => a.toNat < b.toNat := by
  refine List.pairwise_map.2 (List.pairwise_lt_range.imp_of_mem fun {i j} hi hj hij => ?_)
  rw [List.mem_range] at hi hj
  simp only [BitVec.toNat_ofNat]; omega

theorem mem_allBytes (b : Byte) : b ∈ allBytes :=
  List.mem_map.2 ⟨b.toNat, List.mem_range.2 b.isLt, by rw [BitVec.ofNat_toNat, BitVec.setWidth_eq]⟩

theorem symbols_pairwise (f : Table Word) : (symbols f).Pairwise fun a b => a.toNat < b.toNat :=
  allBytes_pairwise.filter _

theorem mem_symbols (f : Table Word) (b : Byte) : b ∈ symbols f ↔ f.at b ≠ 0 := by
  simp [symbols, mem_allBytes]

/-- The counters of a table are those of the byte values in ascending order. -/
theorem toList_eq_map_allBytes (f : Table Word) : f.toList = allBytes.map f.at := by
  refine List.ext_getElem (by simp [allBytes]) fun i hi _ => ?_
  rw [Table.length_toList] at hi
  simp [allBytes, Table.at, Nat.mod_eq_of_lt hi]

/-- The scan appends a leaf for each non-zero counter of the byte values it passes (R110). -/
theorem node_scanLeaves (f : Table Word) (n s : Nat) (t : Tree) :
    (scanLeaves ((List.range' s n).map fun i => f.at (BitVec.ofNat 8 i)) s t).node =
      t.node ++ (((List.range' s n).map (BitVec.ofNat 8)).filter fun b => f.at b ≠ 0).map (leafOf f) := by
  induction n generalizing s t with
  | zero => simp [scanLeaves]
  | succ n ih =>
    rw [List.range'_succ, List.map_cons, List.map_cons, scanLeaves]
    by_cases hf : f.at (BitVec.ofNat 8 s) = 0
    · rw [if_pos hf, ih, List.filter_cons_of_neg (by simpa using hf)]
    · rw [if_neg hf, ih, List.filter_cons_of_pos (by simpa using hf), List.map_cons, List.append_assoc]
      rfl

theorem node_leafTree (f : Table Word) : (leafTree f).node = (symbols f).map (leafOf f) := by
  have h := node_scanLeaves f 256 0 Tree.zero
  rw [← List.range_eq_range'] at h
  rw [leafTree, toList_eq_map_allBytes, allBytes, List.map_map]
  exact h

theorem mem_leafTree_iff (f : Table Word) (n : Node) :
    n ∈ (leafTree f).node ↔ ∃ b, f.at b ≠ 0 ∧ leafOf f b = n := by
  simp only [node_leafTree, List.mem_map, mem_symbols]

/-- Before the first merge there is no internal node. -/
theorem leafTree_not_int (f : Table Word) (i w l r : Nat) : (leafTree f).node[i]? ≠ some (Node.int w l r) := by
  intro h
  obtain ⟨b, -, hb⟩ := (mem_leafTree_iff f _).1 (List.mem_of_getElem? h)
  simp [leafOf] at hb

/-- A leaf weighs at least 1 (R119 (c)). -/
theorem weight_leafOf_pos (f : Table Word) (b : Byte) (h : f.at b ≠ 0) : 1 ≤ (leafOf f b).weight :=
  Nat.pos_of_ne_zero (BitVec.toNat_ne_iff_ne.2 h)

theorem length_symbols (f : Table Word) : (symbols f).length = leafCount f := by
  rw [← length_node_leafTree, node_leafTree, List.length_map]

theorem live_leafTree (f : Table Word) : (leafTree f).live = List.range (leafTree f).nn :=
  scanLeaves_induct (fun t => t.live = List.range t.nn) (fun t s w h => by simp [h, List.range_succ]) _ _ _ rfl

/-- Read in the order of the arena, the weights of LIVE are those of the records. -/
theorem map_nodeWeight_range (node : List Node) :
    (List.range node.length).map (nodeWeight node) = node.map Node.weight := by
  refine List.ext_getElem (by simp) fun i hi _ => ?_
  rw [List.length_map, List.length_range] at hi
  simp [nodeWeight_of_getElem? node i _ (List.getElem?_eq_getElem hi)]

/-- The weights of the leaves add up to the counters: a counter that is 0 adds nothing. -/
theorem sum_weight_leaves (f : Table Word) : ((symbols f).map fun b => (f.at b).toNat).sum = counterSum f := by
  rw [counterSum, toList_eq_map_allBytes, List.map_map, symbols]
  induction allBytes with
  | nil => rfl
  | cons b bs ih =>
    by_cases hb : f.at b = 0
    · rw [List.filter_cons_of_neg (by simpa using hb), ih]; simp [hb]
    · rw [List.filter_cons_of_pos (by simpa using hb), List.map_cons, List.sum_cons, ih]; rfl

theorem sum_live_leafTree (f : Table Word) :
    ((leafTree f).live.map (nodeWeight (leafTree f).node)).sum = counterSum f := by
  rw [live_leafTree, ← (leafTree_growing f).count, map_nodeWeight_range, node_leafTree, List.map_map,
    ← sum_weight_leaves]
  rfl

/-- 256 counters of 32 bits add up to less than 2^40 (R119 (b)). -/
theorem counterSum_lt (f : Table Word) : counterSum f < 2 ^ 40 := by
  have h : (f.toList.map BitVec.toNat).sum ≤ (f.toList.map BitVec.toNat).length • (2 ^ 32 - 1) := by
    refine List.sum_le_card_nsmul _ _ fun n hn => ?_
    obtain ⟨w, -, rfl⟩ := List.mem_map.1 hn
    have := w.isLt
    omega
  rw [List.length_map, Table.length_toList] at h
  rw [counterSum]
  simp only [smul_eq_mul] at h
  omega

/-! ### Leaves first, internal nodes after them -/

/-- The arena is the given leaves and then internal nodes alone. -/
def Tree.LeavesFirst (leaves : List Node) (t : Tree) : Prop :=
  ∃ more, t.node = leaves ++ more ∧ ∀ n ∈ more, ∃ w l r, n = Node.int w l r

theorem leafTree_leavesFirst (f : Table Word) : (leafTree f).LeavesFirst ((symbols f).map (leafOf f)) :=
  ⟨[], by rw [node_leafTree, List.append_nil], by simp⟩

theorem mergeOnce_leavesFirst (leaves : List Node) (t t' : Tree) (h : t.LeavesFirst leaves)
    (hm : mergeOnce t = some t') : t'.LeavesFirst leaves := by
  obtain ⟨a, b, -, -, rfl⟩ := mergeOnce_cases t t' hm
  obtain ⟨more, hnode, hint⟩ := h
  refine ⟨more ++ [.int _ a b], by rw [hnode, List.append_assoc], fun n hn => ?_⟩
  rcases List.mem_append.1 hn with hn | hn
  · exact hint n hn
  · exact ⟨_, _, _, List.mem_singleton.1 hn⟩

theorem buildTree_leavesFirst (f : Table Word) : (buildTree f).LeavesFirst ((symbols f).map (leafOf f)) := by
  obtain ⟨t, ht, -, he⟩ := buildTree_induct _ f (leafTree_leavesFirst f) (mergeOnce_leavesFirst _)
  rwa [he, Tree.LeavesFirst, Tree.setRoot_node]

/-- The record of a leaf has the place of its byte value among the symbols. -/
theorem getElem?_buildTree_of_symbols (f : Table Word) (i : Nat) (b : Byte) (h : (symbols f)[i]? = some b) :
    (buildTree f).node[i]? = some (leafOf f b) := by
  obtain ⟨more, hnode, -⟩ := buildTree_leavesFirst f
  have hi : i < ((symbols f).map (leafOf f)).length := by
    rw [List.length_map]; exact (List.getElem?_eq_some_iff.1 h).1
  rw [hnode, List.getElem?_append_left hi, List.getElem?_map, h]; rfl

/-- A record that is not below the leaves is an internal node. -/
theorem int_of_leafCount_le (f : Table Word) (i : Nat) (n : Node) (hi : leafCount f ≤ i)
    (h : (buildTree f).node[i]? = some n) : ∃ w l r, n = Node.int w l r := by
  obtain ⟨more, hnode, hint⟩ := buildTree_leavesFirst f
  rw [hnode, List.getElem?_append_right (by rwa [List.length_map, length_symbols])] at h
  exact hint n (List.mem_of_getElem? h)

theorem leafCount_le_of_int (f : Table Word) (i w l r : Nat) (h : (buildTree f).node[i]? = some (Node.int w l r)) :
    leafCount f ≤ i := by
  by_contra hlt
  rw [← length_symbols, Nat.not_le] at hlt
  have hleaf := getElem?_buildTree_of_symbols f i _ (List.getElem?_eq_getElem hlt)
  simp [h, leafOf] at hleaf

/-- BUILD answers for every state, and it writes the tree alone (R111). -/
theorem exec_build_next_iff (s t : State) :
    exec .build s = .next t ↔ t = { s with priv := { s.priv with tree := buildTree s.priv.freq } } :=
  execBuild_next s t

/-- Settles O22: the byte values of the leaves are `symbols` of the table. -/
theorem buildMakesOneLeafPerCounter : Obligations.BuildMakesOneLeafPerCounter := by
  intro s
  have hlen := length_symbols s.priv.freq
  refine ⟨buildTree s.priv.freq, (exec_build_next_iff s _).2 rfl, symbols s.priv.freq, hlen,
    hlen ▸ leafCount_le s.priv.freq, symbols_pairwise _, mem_symbols _, getElem?_buildTree_of_symbols _,
    fun i n hi => int_of_leafCount_le _ i n (hlen ▸ hi)⟩

end Sys2Proof.Machine
end

section
/-! PROOFS. The stage BUILD, the shape of the tree (R118): every node but the live ones has one parent, so that what is
left is one tree under the node created last. -/

namespace Sys2Proof.Machine

/-! ### Parents -/

/-- The node i is a child of the internal node n. -/
def ChildOf (node : List Node) (n i : Nat) : Prop :=
  ∃ w l r, node[n]? = some (Node.int w l r) ∧ (l = i ∨ r = i)

theorem childOf_merge_iff (t : Tree) (a b n i : Nat) :
    ChildOf (t.merge a b).node n i ↔ ChildOf t.node n i ∨ n = t.node.length ∧ (a = i ∨ b = i) := by
  constructor
  · rintro ⟨w, l, r, hn, hi⟩
    rcases t.getElem?_merge_int a b n w l r hn with hn | ⟨rfl, -, rfl, rfl⟩
    · exact .inl ⟨w, l, r, hn, hi⟩
    · exact .inr ⟨rfl, hi⟩
  · rintro (⟨w, l, r, hn, hi⟩ | ⟨rfl, hi⟩)
    · exact ⟨w, l, r, (List.getElem?_append_left (List.getElem?_eq_some_iff.1 hn).1).trans hn, hi⟩
    · exact ⟨_, a, b, List.getElem?_concat_length, hi⟩

theorem Tree.Growing.lt_of_childOf {t : Tree} (h : t.Growing) (n i : Nat) (hc : ChildOf t.node n i) :
    i < n ∧ n < t.node.length := by
  obtain ⟨w, l, r, hn, hi⟩ := hc
  have := h.child n w l r hn
  exact ⟨by omega, (List.getElem?_eq_some_iff.1 hn).1⟩

/-- A live node has no parent, and every other node is the child of exactly one (R118 (e)). -/
structure Tree.Parented (t : Tree) : Prop where
  live   : ∀ i ∈ t.live, ∀ n, ¬ ChildOf t.node n i
  merged : ∀ i < t.node.length, i ∉ t.live → ∃ n, ∀ m, ChildOf t.node m i ↔ m = n

theorem leafTree_parented (f : Table Word) : (leafTree f).Parented := by
  refine ⟨fun i _ n hc => ?_, fun i hi hl => ?_⟩
  · obtain ⟨w, l, r, hn, -⟩ := hc
    exact leafTree_not_int f n w l r hn
  · rw [live_leafTree, ← (leafTree_growing f).count] at hl
    exact absurd (List.mem_range.2 hi) hl

theorem Tree.Lowest.merge_parented {t : Tree} {a b : Nat} (h : t.Lowest a b) (hg : t.Growing) (hp : t.Parented) :
    (t.merge a b).Parented := by
  refine ⟨fun i hi n => ?_, fun i hi hl => ?_⟩ <;> simp only [childOf_merge_iff]
  · rcases (hg.mem_live_merge a b i).1 hi with ⟨hi, hia, hib⟩ | rfl
    · have := hp.live i hi n
      tauto
    · have := hg.live_lt_length a h.left
      have := hg.live_lt_length b h.right
      rintro (hc | ⟨-, hc⟩)
      · have := hg.lt_of_childOf n _ hc
        omega
      · omega
  · rw [hg.mem_live_merge] at hl
    rw [t.length_node_merge] at hi
    by_cases hlive : i ∈ t.live
    · refine ⟨t.node.length, fun m => ?_⟩
      have := hp.live i hlive m
      tauto
    · obtain ⟨n, hn⟩ := hp.merged i (by omega) hlive
      have ha : a ≠ i := fun e => hlive (e ▸ h.left)
      have hb : b ≠ i := fun e => hlive (e ▸ h.right)
      exact ⟨n, fun m => by rw [hn m]; tauto⟩

/-- The node created last has no parent yet, for a parent is created after its children. -/
theorem Tree.Parented.last_mem_live {t : Tree} (hp : t.Parented) (hg : t.Growing) (i : Nat)
    (hi : i + 1 = t.node.length) : i ∈ t.live := by
  by_contra hl
  obtain ⟨n, hn⟩ := hp.merged i (by omega) hl
  have := hg.lt_of_childOf n i ((hn n).2 rfl)
  omega

/-! ### The finished tree -/

/-- What BUILD's loop keeps about the shape of the tree of a table. -/
structure Tree.Shaped (f : Table Word) (t : Tree) : Prop where
  growing  : t.Growing
  layered  : t.Layered (leafCount f)
  covered  : t.Covered
  parented : t.Parented

theorem buildTree_shaped (f : Table Word) :
    ∃ t : Tree, t.Shaped f ∧ t.live.length ≤ 1 ∧ buildTree f = t.setRoot := by
  obtain ⟨t, -, ht, one, he⟩ := buildTree_induct_lowest (Tree.Shaped f) f
    ⟨leafTree_growing f, leafTree_layered f, leafTree_covered f, leafTree_parented f⟩ fun t a b hg hab h =>
      ⟨hab.merge_growing hg, mergeOnce_layered _ t _ h.layered (hab.mergeOnce_eq hg),
        mergeOnce_covered t _ h.covered (hab.mergeOnce_eq hg), hab.merge_parented hg h.parented⟩
  exact ⟨t, ht, one, he⟩

/-- Without a counter BUILD leaves the empty tree (R115). -/
theorem buildTree_of_leafCount_eq_zero (f : Table Word) (h : leafCount f = 0) : buildTree f = Tree.zero := by
  obtain ⟨t, ht, -, he⟩ := buildTree_shaped f
  have hsize := ht.layered.size
  rw [h] at hsize
  have hnode : t.node = [] := List.eq_nil_of_length_eq_zero (by omega)
  have hlive : t.live = [] := List.eq_nil_of_length_eq_zero (by omega)
  have hnn : t.nn = 0 := by rw [← ht.growing.count, hnode, List.length_nil]
  have hroot := ht.growing.root
  rw [he]
  obtain ⟨node, nn, live, root⟩ := t
  subst hnode hlive hnn hroot
  rfl

/-- With k >= 1 counters one node is left, the one created last, of 2k - 1 (R118 (b), (c)). -/
theorem Tree.Shaped.live_eq {f : Table Word} {t : Tree} (h : t.Shaped f) (one : t.live.length ≤ 1)
    (pos : 1 ≤ leafCount f) : t.nn = 2 * leafCount f - 1 ∧ t.live = [t.nn - 1] := by
  have hcount := h.growing.count
  have hleaves := h.layered.leaves
  have hlast : t.nn - 1 ∈ t.live := h.parented.last_mem_live h.growing _ (by omega)
  obtain ⟨x, hx⟩ : ∃ x, t.live = [x] :=
    List.length_eq_one_iff.1 (Nat.le_antisymm one (List.length_pos_of_mem hlast))
  have hsize := h.layered.size
  rw [hx, List.length_singleton] at hsize
  rw [hx, List.mem_singleton] at hlast
  exact ⟨by omega, by rw [hx, hlast]⟩

/-- ROOT is the one element of LIVE (R111). -/
theorem Tree.setRoot_root_of_live (t : Tree) (r : Nat) (h : t.live = [r]) : t.setRoot.root = some r := by
  simp only [Tree.setRoot, h]

/-- ROOT is the node created last (R118 (c)). -/
theorem buildTree_root (f : Table Word) (pos : 1 ≤ leafCount f) :
    (buildTree f).root = some (2 * leafCount f - 2) := by
  obtain ⟨t, ht, one, he⟩ := buildTree_shaped f
  obtain ⟨hnn, hlive⟩ := ht.live_eq one pos
  rw [he, t.setRoot_root_of_live _ hlive, hnn]
  rfl

/-- A node other than ROOT is the child of exactly one node (R118 (e)). -/
theorem Tree.Shaped.parent {f : Table Word} {t : Tree} (h : t.Shaped f) (live : t.live = [t.nn - 1]) (i : Nat)
    (hi : i < t.nn - 1) : ∃ n, ∀ m, ChildOf t.node m i ↔ m = n := by
  have hcount := h.growing.count
  exact h.parented.merged i (by omega) (by rw [live, List.mem_singleton]; omega)

/-- Every node is reached from ROOT (R118 (e)). -/
theorem Tree.Shaped.reached {f : Table Word} {t : Tree} (h : t.Shaped f) (live : t.live = [t.nn - 1]) (i : Nat)
    (hi : i < t.nn) : ∃ q, follow t.node (t.nn - 1) q = some i := by
  obtain ⟨j, hj, q, hq⟩ := h.covered.reach i (h.growing.count ▸ hi)
  rw [live, List.mem_singleton] at hj
  exact ⟨q, hj ▸ hq⟩

/-- Settles O23, from the shape the merge loop keeps. -/
theorem buildMakesAStrictBinaryTree : Obligations.BuildMakesAStrictBinaryTree := by
  intro s t hx pos
  obtain rfl := (exec_build_next_iff s t).1 hx
  dsimp only
  have depth := fun q b h => Nat.le_pred_of_lt (length_lt_leafCount_of_pathTo s.priv.freq q b h)
  have hk := leafCount_le s.priv.freq
  obtain ⟨u, hu, one, he⟩ := buildTree_shaped s.priv.freq
  obtain ⟨hnn, hlive⟩ := hu.live_eq one pos
  have hroot := u.setRoot_root_of_live _ hlive
  rw [he] at depth ⊢
  simp only [Tree.setRoot_node, Tree.setRoot_nn, Tree.setRoot_live]
  refine ⟨hnn, hu.growing.count, by omega, hroot, hlive, hu.growing.child, fun i hi => ?parent,
    hu.reached hlive, depth⟩
  case parent =>
    obtain ⟨n, hn⟩ := hu.parent hlive i hi
    exact ⟨n, (hn n).2 rfl, fun m w l r hm hi => (hn m).1 ⟨w, l, r, hm, hi⟩⟩

/-! ### No leaf and one leaf -/

theorem Tree.rootIsLeaf_iff (t : Tree) :
    t.rootIsLeaf = true ↔ ∃ r b w, t.root = some r ∧ t.node[r]? = some (.leaf b w) := by
  unfold Tree.rootIsLeaf
  split
  · next h => simp [h]
  · next r h => split <;> simp [*]

/-- With one counter the arena is its leaf (R116). -/
theorem buildTree_node_of_leafCount_eq_one (f : Table Word) (h : leafCount f = 1) :
    ∃ b, f.at b ≠ 0 ∧ (buildTree f).node = [leafOf f b] := by
  obtain ⟨t, ht, one, he⟩ := buildTree_shaped f
  obtain ⟨hnn, -⟩ := ht.live_eq one h.ge
  obtain ⟨b, hb⟩ := List.length_eq_one_iff.1 ((length_symbols f).trans h)
  refine ⟨b, (mem_symbols f b).1 (by simp [hb]), ?_⟩
  have hlen : (buildTree f).node.length = 1 := by
    rw [he, Tree.setRoot_node, ht.growing.count, hnn, h]
  have hnode := getElem?_buildTree_of_symbols f 0 b (by rw [hb]; rfl)
  obtain ⟨n, hn⟩ := List.length_eq_one_iff.1 hlen
  rw [hn] at hnode ⊢
  rw [Option.some.inj hnode]

/-- The root of two or more leaves is an internal node (R116). -/
theorem buildTree_rootIsLeaf_iff (f : Table Word) : (buildTree f).rootIsLeaf = true ↔ leafCount f = 1 := by
  rw [Tree.rootIsLeaf_iff]
  rcases Nat.eq_zero_or_pos (leafCount f) with hz | pos
  · simp [buildTree_of_leafCount_eq_zero f hz, Tree.zero, hz]
  · rw [buildTree_root f pos]
    constructor
    · rintro ⟨r, b, w, hr, hn⟩
      obtain rfl := Option.some.inj hr
      by_contra hne
      obtain ⟨_, _, _, hint⟩ := int_of_leafCount_le f _ _ (by omega) hn
      simp at hint
    · intro h
      obtain ⟨b, -, hnode⟩ := buildTree_node_of_leafCount_eq_one f h
      exact ⟨0, b, _, by rw [h], by rw [hnode]; rfl⟩

theorem buildTree_isEmpty_iff (f : Table Word) : (buildTree f).isEmpty = true ↔ leafCount f = 0 := by
  rcases Nat.eq_zero_or_pos (leafCount f) with hz | pos
  · simp [buildTree_of_leafCount_eq_zero f hz, Tree.zero, Tree.isEmpty, hz]
  · simp [Tree.isEmpty, buildTree_root f pos, Nat.ne_of_gt pos]

/-- Settles O26, by the number of leaves. -/
theorem emptyAndSingleLeafTrees : Obligations.EmptyAndSingleLeafTrees := by
  intro s t hx
  obtain rfl := (exec_build_next_iff s t).1 hx
  refine ⟨fun hz => ?none, fun hone => ?one, buildTree_rootIsLeaf_iff _, buildTree_isEmpty_iff _⟩
  case none => simp [buildTree_of_leafCount_eq_zero _ hz, Tree.zero]
  case one =>
    obtain ⟨b, hb, hnode⟩ := buildTree_node_of_leafCount_eq_one _ hone
    refine ⟨b, hb, ?_, hnode, by rw [buildTree_root _ hone.ge, hone]⟩
    rw [← (buildTree_ok _).count, hnode]
    rfl

end Sys2Proof.Machine
end

section
/-! PROOFS. The stage BUILD, the weights of the tree (R119): they add up over LIVE, and each merge makes a node that
weighs no less than any internal node before it. -/

namespace Sys2Proof.Machine

/-! ### The weights add up -/

/-- The weights of an arena of which LIVE weighs `total` together. -/
structure Tree.Weighed (total : Nat) (t : Tree) : Prop where
  sum    : ∀ (i w l r : Nat), t.node[i]? = some (Node.int w l r) → w = nodeWeight t.node l + nodeWeight t.node r
  before : ∀ (i w l r : Nat), t.node[i]? = some (Node.int w l r) → keyLt t.node l r
  bounds : ∀ i < t.node.length, 1 ≤ nodeWeight t.node i ∧ nodeWeight t.node i ≤ total
  live   : (t.live.map (nodeWeight t.node)).sum = total

theorem leafTree_weighed (f : Table Word) : (leafTree f).Weighed (counterSum f) := by
  have noInt := leafTree_not_int f
  refine ⟨fun i w l r h => absurd h (noInt i w l r), fun i w l r h => absurd h (noInt i w l r),
    fun i hi => ⟨?pos, ?le⟩, sum_live_leafTree f⟩
  case pos =>
    obtain ⟨b, hb, hn⟩ := (mem_leafTree_iff f _).1 (List.getElem_mem hi)
    rw [nodeWeight_of_getElem? _ i _ (List.getElem?_eq_getElem hi), ← hn]
    exact weight_leafOf_pos f b hb
  case le =>
    rw [← sum_live_leafTree f]
    refine List.le_sum_of_mem (List.mem_map_of_mem ?_)
    rw [live_leafTree, ← (leafTree_growing f).count]
    exact List.mem_range.2 hi

theorem Tree.Lowest.sum_live {t : Tree} {a b : Nat} (h : t.Lowest a b) (g : Nat → Nat) :
    (t.live.map g).sum = g a + g b + (((t.live.erase a).erase b).map g).sum := by
  rw [(h.live_perm.map g).sum_eq, List.map_cons, List.map_cons, List.sum_cons, List.sum_cons, Nat.add_assoc]

theorem Tree.Lowest.merge_weighed {t : Tree} {a b total : Nat} (h : t.Lowest a b) (hg : t.Growing)
    (hw : t.Weighed total) : (t.merge a b).Weighed total := by
  have ha := hg.live_lt_length a h.left
  have hb := hg.live_lt_length b h.right
  have old := fun i => t.nodeWeight_merge_of_lt a b i
  have hsum := (h.sum_live (nodeWeight t.node)).symm.trans hw.live
  refine ⟨fun i w l r hi => ?sum, fun i w l r hi => ?before, fun i hi => ?bounds, ?live⟩
  case sum =>
    rcases t.getElem?_merge_int a b i w l r hi with hi | ⟨-, rfl, rfl, rfl⟩
    · have := hg.child i w l r hi
      have := (List.getElem?_eq_some_iff.1 hi).1
      rw [old l (by omega), old r (by omega)]
      exact hw.sum i w l r hi
    · rw [old _ ha, old _ hb]
  case before =>
    rcases t.getElem?_merge_int a b i w l r hi with hi | ⟨-, rfl, rfl, rfl⟩
    · have := hg.child i w l r hi
      have := (List.getElem?_eq_some_iff.1 hi).1
      rw [Tree.merge, keyLt_append _ _ l r (by omega) (by omega)]
      exact hw.before i w l r hi
    · rw [Tree.merge, keyLt_append _ _ _ _ ha hb]
      exact h.before
  case bounds =>
    rw [t.length_node_merge] at hi
    rcases Nat.lt_or_eq_of_le (Nat.le_of_lt_succ hi) with hi | rfl
    · rw [old i hi]
      exact hw.bounds i hi
    · rw [t.nodeWeight_merge_length]
      have := (hw.bounds a ha).1
      omega
  case live =>
    have hrest : ((t.live.erase a).erase b).map (nodeWeight (t.merge a b).node) =
        ((t.live.erase a).erase b).map (nodeWeight t.node) :=
      List.map_congr_left fun i hi => old i (hg.live_lt_length i (List.mem_of_mem_erase (List.mem_of_mem_erase hi)))
    rw [show (t.merge a b).live = (t.live.erase a).erase b ++ [t.node.length] by rw [hg.count]; rfl, List.map_append,
      List.sum_append, hrest]
    simp only [List.map_cons, List.map_nil, List.sum_singleton, t.nodeWeight_merge_length]
    omega

/-! ### Internal nodes are created in non-decreasing weight order -/

/-- From NODE[k] on the weights do not fall, and none exceeds what two live nodes weigh together (R119 (d)). -/
structure Tree.Rising (k : Nat) (t : Tree) : Prop where
  mono : ∀ i j, k ≤ i → i ≤ j → j < t.node.length → nodeWeight t.node i ≤ nodeWeight t.node j
  pair : ∀ n, k ≤ n → n < t.node.length → ∀ i ∈ t.live, ∀ j ∈ t.live,
    nodeWeight t.node n ≤ nodeWeight t.node i + nodeWeight t.node j

theorem leafTree_rising (f : Table Word) : (leafTree f).Rising (leafCount f) := by
  have hlen := length_node_leafTree f
  exact ⟨fun i j _ _ _ => by omega, fun n _ _ => by omega⟩

/-- Every node that is live after a merge weighs at least as much as either node it took. -/
theorem Tree.Lowest.weight_le_of_mem_live {t : Tree} {a b : Nat} (h : t.Lowest a b) (hg : t.Growing) (i : Nat)
    (hi : i ∈ (t.merge a b).live) : nodeWeight t.node a ≤ nodeWeight (t.merge a b).node i ∧
      nodeWeight t.node b ≤ nodeWeight (t.merge a b).node i := by
  rcases (hg.mem_live_merge a b i).1 hi with ⟨hl, hia, hib⟩ | rfl
  · rw [t.nodeWeight_merge_of_lt a b i (hg.live_lt_length i hl)]
    have hab := weight_le_of_keyLt _ _ _ h.before
    have hbi := weight_le_of_keyLt _ _ _ (h.rest i hl hia hib)
    exact ⟨hab.trans hbi, hbi⟩
  · rw [t.nodeWeight_merge_length]
    exact ⟨Nat.le_add_right _ _, Nat.le_add_left _ _⟩

theorem Tree.Lowest.merge_rising {t : Tree} {a b k : Nat} (h : t.Lowest a b) (hg : t.Growing) (hr : t.Rising k) :
    (t.merge a b).Rising k := by
  have old := fun i => t.nodeWeight_merge_of_lt a b i
  have new := t.nodeWeight_merge_length a b
  have top (n : Nat) (hk : k ≤ n) (hn : n < (t.merge a b).node.length) :
      nodeWeight (t.merge a b).node n ≤ nodeWeight t.node a + nodeWeight t.node b := by
    rw [t.length_node_merge] at hn
    rcases Nat.lt_or_eq_of_le (Nat.le_of_lt_succ hn) with hn | rfl
    · rw [old n hn]
      exact hr.pair n hk hn a h.left b h.right
    · exact new.le
  refine ⟨fun i j hk hij hj => ?mono, fun n hk hn i hi j hj => (top n hk hn).trans ?pair⟩
  case mono =>
    have hi := top i hk (hij.trans_lt hj)
    rw [t.length_node_merge] at hj
    rcases Nat.lt_or_eq_of_le (Nat.le_of_lt_succ hj) with hj | rfl
    · rw [old i (by omega), old j hj]
      exact hr.mono i j hk hij hj
    · rwa [new]
  case pair =>
    have := h.weight_le_of_mem_live hg i hi
    have := h.weight_le_of_mem_live hg j hj
    omega

/-! ### The finished tree -/

/-- The weights of a built tree, and their order from the first internal node on. -/
theorem buildTree_weights (f : Table Word) :
    ∃ t : Tree, t.Growing ∧ (t.Weighed (counterSum f) ∧ t.Rising (leafCount f)) ∧ t.live.length ≤ 1 ∧
      buildTree f = t.setRoot :=
  buildTree_induct_lowest (fun t => t.Weighed (counterSum f) ∧ t.Rising (leafCount f)) f
    ⟨leafTree_weighed f, leafTree_rising f⟩ fun _ _ _ hg hab h => ⟨hab.merge_weighed hg h.1, hab.merge_rising hg h.2⟩

/-- Settles O24: the sums, the bounds and the order are kept by every merge, and at the end ROOT alone is live. -/
theorem buildWeightsAddUpAndFit : Obligations.BuildWeightsAddUpAndFit := by
  intro s t hx
  obtain rfl := (exec_build_next_iff s t).1 hx
  have above := leafCount_le_of_int s.priv.freq
  obtain ⟨u, hg, ⟨hw, hr⟩, -, he⟩ := buildTree_weights s.priv.freq
  dsimp only
  rw [he] at above ⊢
  simp only [Tree.setRoot_node] at above ⊢
  refine ⟨hw.sum, fun r hroot => ?root, fun n hn => ?bounds, fun i j w l r w' l' r' hij hi hj => ?order⟩
  case root =>
    have hlive := hw.live
    rwa [u.setRoot_root_eq_some r hg.root hroot, List.map_singleton, List.sum_singleton] at hlive
  case bounds =>
    obtain ⟨i, hi⟩ := List.mem_iff_getElem?.1 hn
    rw [← nodeWeight_of_getElem? _ i n hi]
    obtain ⟨hpos, hle⟩ := hw.bounds i (List.getElem?_eq_some_iff.1 hi).1
    exact ⟨hpos, hle.trans_lt (counterSum_lt _)⟩
  case order =>
    have hmono := hr.mono i j (above i w l r hi) hij.le (List.getElem?_eq_some_iff.1 hj).1
    rwa [nodeWeight_of_getElem? _ i _ hi, nodeWeight_of_getElem? _ j _ hj] at hmono

/-- Settles O25: the two nodes of a merge keep their order, for a weight never changes. -/
theorem leftChildIsTheLowerKey : Obligations.LeftChildIsTheLowerKey := by
  intro s t hx i w l r hi
  obtain rfl := (exec_build_next_iff s t).1 hx
  obtain ⟨u, -, ⟨hw, -⟩, -, he⟩ := buildTree_weights s.priv.freq
  dsimp only at hi ⊢
  rw [he, Tree.setRoot_node] at hi ⊢
  exact (keyLt_iff _ l r).1 (hw.before i w l r hi)

end Sys2Proof.Machine
end

section
/-! PROOFS. The two-queue form of BUILD (R122): the leaf queue and the queue of internal nodes are both in the order of
the collection, so that the lower of their heads is `minkey`, and the two loops run in step. -/

namespace Sys2Proof.Machine

/-! ### The leaf queue -/

theorem insertByKey_perm (node : List Node) (i : Nat) (q : List Nat) : (insertByKey node i q).Perm (i :: q) := by
  induction q with
  | nil => exact .refl _
  | cons j q ih =>
    rw [insertByKey]
    split
    · exact .refl _
    · exact (ih.cons j).trans (.swap i j q)

theorem insertByKey_sorted (node : List Node) (i : Nat) (q : List Nat) (new : i ∉ q)
    (h : q.Pairwise fun a b => keyLt node a b) : (insertByKey node i q).Pairwise fun a b => keyLt node a b := by
  induction q with
  | nil => simp [insertByKey]
  | cons j q ih =>
    obtain ⟨hj, hq⟩ := List.pairwise_cons.1 h
    obtain ⟨hij, hiq⟩ := not_or.1 (mt List.mem_cons.2 new)
    rw [insertByKey]
    split
    · next hlt =>
      refine List.pairwise_cons.2 ⟨fun k hk => ?_, h⟩
      rcases List.mem_cons.1 hk with rfl | hk
      · exact hlt
      · exact keyLt_trans node i j k hlt (hj k hk)
    · next hlt =>
      refine List.pairwise_cons.2 ⟨fun k hk => ?_, ih hiq hq⟩
      rcases List.mem_cons.1 ((insertByKey_perm node i q).mem_iff.1 hk) with rfl | hk
      · exact keyLt_of_not_keyLt node k j hij hlt
      · exact hj k hk

theorem sortByKey_perm (node : List Node) (q : List Nat) : (sortByKey node q).Perm q := by
  induction q with
  | nil => exact .refl _
  | cons i q ih => exact (insertByKey_perm node i _).trans (ih.cons i)

theorem sortByKey_sorted (node : List Node) (q : List Nat) (h : q.Nodup) :
    (sortByKey node q).Pairwise fun a b => keyLt node a b := by
  induction q with
  | nil => exact .nil
  | cons i q ih =>
    obtain ⟨hi, hq⟩ := List.nodup_cons.1 h
    exact insertByKey_sorted node i _ (mt (sortByKey_perm node q).mem_iff.1 hi) (ih hq)

/-! ### The lower of the two heads -/

/-- Both queues are in the order of the collection; the first holds leaves and the second internal nodes, of an arena
with k leaves. -/
structure SortedQueues (k : Nat) (node : List Node) (p q : List Nat) : Prop where
  leaves : p.Pairwise fun a b => keyLt node a b
  ints   : q.Pairwise fun a b => keyLt node a b
  below  : ∀ i ∈ p, i < k
  above  : ∀ j ∈ q, k ≤ j

theorem popMin_eq_none_iff (node : List Node) (p q : List Nat) : popMin node p q = none ↔ p ++ q = [] := by
  match p, q with
  | [], [] | _ :: _, [] | [], _ :: _ => simp [popMin]
  | i :: p, j :: q => rw [popMin]; split <;> simp

/-- The head of the leaf queue is taken if it weighs at most as much as the other head, and that head otherwise. -/
theorem popMin_cases (node : List Node) (p q p' q' : List Nat) (a : Nat) (h : popMin node p q = some (a, p', q')) :
    (p = a :: p' ∧ q = q' ∧ ∀ j ∈ q.head?, nodeWeight node a ≤ nodeWeight node j) ∨
      (q = a :: q' ∧ p = p' ∧ ∀ i ∈ p.head?, nodeWeight node a < nodeWeight node i) := by
  unfold popMin at h
  split at h
  · simp at h
  · obtain ⟨rfl, rfl, rfl⟩ := h
    simp
  · obtain ⟨rfl, rfl, rfl⟩ := h
    simp
  · split at h
    · next hle =>
      obtain ⟨rfl, rfl, rfl⟩ := h
      simpa using hle
    · next hlt =>
      obtain ⟨rfl, rfl, rfl⟩ := h
      simpa using hlt

theorem keyLt_of_keyLt_head (node : List Node) (a : Nat) (q : List Nat) (sorted : q.Pairwise fun a b => keyLt node a b)
    (head : ∀ j ∈ q.head?, keyLt node a j) : ∀ j ∈ q, keyLt node a j := by
  cases q with
  | nil => simp
  | cons i q =>
    have hai := head i rfl
    intro j hj
    rcases List.mem_cons.1 hj with rfl | hj
    · exact hai
    · exact keyLt_trans node a i j hai (List.rel_of_pairwise_cons sorted hj)

/-- The first node taken from the queues is the lowest of both, and the queues stay sorted. -/
theorem popMin_spec (k : Nat) (node : List Node) (p q p' q' : List Nat) (a : Nat) (h : SortedQueues k node p q)
    (hpop : popMin node p q = some (a, p', q')) :
    SortedQueues k node p' q' ∧ (p ++ q).Perm (a :: (p' ++ q')) ∧ ∀ i ∈ p' ++ q', keyLt node a i := by
  obtain ⟨hleaves, hints, hbelow, habove⟩ := h
  rcases popMin_cases node p q p' q' a hpop with ⟨rfl, rfl, hhead⟩ | ⟨rfl, rfl, hhead⟩
  · have hak := hbelow a (by simp)
    refine ⟨⟨hleaves.of_cons, hints, fun i hi => hbelow i (by simp [hi]), habove⟩, .refl _, fun i hi => ?_⟩
    rcases List.mem_append.1 hi with hi | hi
    · exact List.rel_of_pairwise_cons hleaves hi
    · refine keyLt_of_keyLt_head node a q hints (fun j hj => ?_) i hi
      have := hhead j hj
      have := habove j (List.mem_of_mem_head? hj)
      rw [keyLt_iff]; omega
  · refine ⟨⟨hleaves, hints.of_cons, hbelow, fun j hj => habove j (by simp [hj])⟩, List.perm_middle, fun i hi => ?_⟩
    rcases List.mem_append.1 hi with hi | hi
    · exact keyLt_of_keyLt_head node a p hleaves (fun j hj => (keyLt_iff node a j).2 (.inl (hhead j hj))) i hi
    · exact List.rel_of_pairwise_cons hints hi

/-! ### The two loops in step -/

/-- The queues hold the live nodes of a tree of k leaves that BUILD's loop has reached. -/
structure Tree.Queued (k : Nat) (t : Tree) (p q : List Nat) : Prop where
  growing : t.Growing
  leaves  : k ≤ t.node.length
  rising  : t.Rising k
  sorted  : SortedQueues k t.node p q
  perm    : (p ++ q).Perm t.live

/-- The two nodes taken from the queues are the two a merge takes. -/
theorem Tree.Queued.lowest {k : Nat} {t : Tree} {p q p₁ q₁ p₂ q₂ : List Nat} {a b : Nat} (h : t.Queued k p q)
    (ha : popMin t.node p q = some (a, p₁, q₁)) (hb : popMin t.node p₁ q₁ = some (b, p₂, q₂)) :
    t.Lowest a b ∧ SortedQueues k t.node p₂ q₂ ∧ (p₂ ++ q₂).Perm ((t.live.erase a).erase b) := by
  obtain ⟨sorted₁, perm₁, least₁⟩ := popMin_spec k _ p q p₁ q₁ a h.sorted ha
  obtain ⟨sorted₂, perm₂, least₂⟩ := popMin_spec k _ p₁ q₁ p₂ q₂ b sorted₁ hb
  have hlive : t.live.Perm (a :: b :: (p₂ ++ q₂)) := h.perm.symm.trans (perm₁.trans (perm₂.cons a))
  have hab := least₁ b (perm₂.mem_iff.2 (by simp))
  refine ⟨⟨hlive.mem_iff.2 (by simp), hlive.mem_iff.2 (by simp), hab, fun i hi hia hib => least₂ i ?_⟩, sorted₂, ?_⟩
  · simpa [hia, hib] using hlive.mem_iff.1 hi
  · simpa using ((hlive.erase a).erase b).symm

/-- A merge appends its node to the queue of internal nodes, which stays sorted: no earlier one weighs more. -/
theorem Tree.Queued.merge {k : Nat} {t : Tree} {p₀ q₀ p q : List Nat} {a b : Nat} (h : t.Queued k p₀ q₀)
    (hab : t.Lowest a b) (sorted : SortedQueues k t.node p q)
    (perm : (p ++ q).Perm ((t.live.erase a).erase b)) : (t.merge a b).Queued k p (q ++ [t.node.length]) := by
  have hg := h.growing
  have leaves := h.leaves
  have live (i : Nat) (hi : i ∈ p ++ q) : i < t.node.length :=
    hg.live_lt_length i (List.mem_of_mem_erase (List.mem_of_mem_erase (perm.mem_iff.1 hi)))
  have old {l : List Nat} (hl : ∀ i ∈ l, i ∈ p ++ q) (h : l.Pairwise fun i j => keyLt t.node i j) :
      l.Pairwise fun i j => keyLt (t.merge a b).node i j :=
    h.imp_of_mem fun hi hj hij => by
      rwa [Tree.merge, keyLt_append _ _ _ _ (live _ (hl _ hi)) (live _ (hl _ hj))]
  have rising := hab.merge_rising hg h.rising
  refine ⟨hab.merge_growing hg, by rw [t.length_node_merge]; omega, rising,
    ⟨old (fun i hi => List.mem_append_left q hi) sorted.leaves, ?ints, sorted.below, ?above⟩, ?perm⟩
  case ints =>
    refine List.pairwise_append.2
      ⟨old (fun i hi => List.mem_append_right p hi) sorted.ints, List.pairwise_singleton _ _, fun i hi j hj => ?_⟩
    obtain rfl := List.mem_singleton.1 hj
    have hlt := live i (List.mem_append_right p hi)
    have hle := rising.mono i t.node.length (sorted.above i hi) hlt.le (by simp)
    rw [keyLt_iff]; omega
  case above =>
    intro j hj
    rcases List.mem_append.1 hj with hj | hj
    · exact sorted.above j hj
    · rwa [List.mem_singleton.1 hj]
  case perm =>
    rw [← List.append_assoc, hg.count]
    exact perm.append_right _

/-- With at most one live node left, ROOT is the head of what the queues hold. -/
theorem Tree.Queued.root {k : Nat} {t : Tree} {p q : List Nat} (h : t.Queued k p q) (one : t.live.length ≤ 1) :
    t.setRoot.root = (p ++ q).head? := by
  have hperm := h.perm
  match hl : t.live, one with
  | [], _ =>
    rw [hl] at hperm
    simp only [Tree.setRoot, hl, hperm.eq_nil, List.head?_nil, h.growing.root]
  | [r], _ =>
    rw [hl] at hperm
    rw [hperm.eq_singleton, t.setRoot_root_of_live r hl, List.head?_singleton]

/-- On the queues of the live nodes the queue loop does what the merge loop does. -/
theorem queueLoop_eq_mergeLoop (k fuel : Nat) (t : Tree) (p q : List Nat) (h : t.Queued k p q)
    (enough : t.live.length ≤ fuel + 1) :
    queueLoop fuel t.node p q = ((mergeLoop fuel t).node, (mergeLoop fuel t).setRoot.root) := by
  induction fuel generalizing t p q with
  | zero => rw [queueLoop, mergeLoop, h.root enough]
  | succ fuel ih =>
    have stop (one : (p ++ q).length ≤ 1) : mergeLoop (fuel + 1) t = t ∧ t.setRoot.root = (p ++ q).head? := by
      rw [h.perm.length_eq] at one
      rw [mergeLoop, (mergeOnce_eq_none t).2 one]
      exact ⟨rfl, h.root one⟩
    rw [queueLoop]
    split
    · next hnone =>
      have hnil := (popMin_eq_none_iff _ _ _).1 hnone
      obtain ⟨hloop, hroot⟩ := stop (by simp [hnil])
      rw [hloop, hroot, hnil]; rfl
    · next a p₁ q₁ ha =>
      split
      · next hnone =>
        obtain ⟨-, perm, -⟩ := popMin_spec k _ p q p₁ q₁ a h.sorted ha
        rw [(popMin_eq_none_iff _ _ _).1 hnone] at perm
        obtain ⟨hloop, hroot⟩ := stop (by simp [perm.length_eq])
        rw [hloop, hroot, perm.eq_singleton]; rfl
      · next b p₂ q₂ hb =>
        obtain ⟨hab, sorted, perm⟩ := h.lowest ha hb
        have hm := hab.mergeOnce_eq h.growing
        have hlen := mergeOnce_live_length t _ hm
        rw [mergeLoop, hm]
        exact ih (t.merge a b) p₂ _ (h.merge hab sorted perm) (by omega)

theorem leafTree_queued (f : Table Word) : (leafTree f).Queued (leafCount f)
    (sortByKey (leafTree f).node (List.range (leafTree f).nn)) [] := by
  have hperm := sortByKey_perm (leafTree f).node (List.range (leafTree f).nn)
  have hnn : (leafTree f).nn = leafCount f := (leafTree_growing f).count.symm.trans (length_node_leafTree f)
  refine ⟨leafTree_growing f, (length_node_leafTree f).ge, leafTree_rising f,
    ⟨sortByKey_sorted _ _ List.nodup_range, .nil, fun i hi => ?_, by simp⟩, ?_⟩
  · rw [← hnn]
    exact List.mem_range.1 (hperm.mem_iff.1 hi)
  · rw [List.append_nil, live_leafTree]
    exact hperm

/-- Settles O27: the two loops start from the same leaves and have the same number of turns. -/
theorem twoQueueBuilderAgrees : Obligations.TwoQueueBuilderAgrees := by
  intro f
  have hlen : (leafTree f).live.length = (leafTree f).nn := by rw [live_leafTree, List.length_range]
  have h := queueLoop_eq_mergeLoop (leafCount f) (leafTree f).nn (leafTree f) _ _ (leafTree_queued f) (by omega)
  rw [queueBuild, h, buildTree, hlen, Tree.setRoot_node]

end Sys2Proof.Machine
end

section
/-! PROOFS. Walks on the tree: how they compose, that a walk ending at a leaf does not go on, and that a
node of a tree of BUILD is reached by one walk only (R118 (e)). -/

namespace Sys2Proof.Machine

/-! ### Composing walks -/

/-- A walk along p and then q is the walk along q from where p ends. -/
theorem follow_append_bits (node : List Node) (p q : Bits) (i : Nat) :
    follow node i (p ++ q) = (follow node i p).bind fun j => follow node j q := by
  induction p generalizing i with
  | nil => rfl
  | cons b p ih =>
    cases hn : node[i]? with
    | none => simp [follow, hn]
    | some n =>
      cases n with
      | leaf sym w => simp [follow, hn]
      | int w l r =>
        rw [List.cons_append, follow_cons_of_int _ _ _ _ _ _ _ hn, follow_cons_of_int _ _ _ _ _ _ _ hn, ih]

/-- A walk does not go on from a leaf. -/
theorem follow_leaf (node : List Node) (i : Nat) (sym : Byte) (w : Nat) (q : Bits) (j : Nat)
    (leaf : node[i]? = some (.leaf sym w)) (h : follow node i q = some j) : q = [] ∧ j = i := by
  cases q with
  | nil => exact ⟨rfl, (Option.some.inj h).symm⟩
  | cons b q => simp [follow, leaf] at h

/-- The last edge of a walk leads from an internal node to the child its label names. -/
theorem follow_concat (node : List Node) (p : Bits) (b : Bool) (r i : Nat) (h : follow node r (p ++ [b]) = some i) :
    ∃ n w x y, follow node r p = some n ∧ node[n]? = some (.int w x y) ∧ (if b then y else x) = i := by
  rw [follow_append_bits] at h
  obtain ⟨n, hp, hb⟩ := Option.bind_eq_some_iff.1 h
  cases hn : node[n]? with
  | none => simp [follow, hn] at hb
  | some m =>
    cases m with
    | leaf sym w => simp [follow, hn] at hb
    | int w x y =>
      rw [follow_cons_of_int _ _ _ _ _ _ _ hn] at hb
      exact ⟨n, w, x, y, hp, hn, Option.some.inj hb⟩

theorem childOf_of_int (node : List Node) (n w x y : Nat) (b : Bool) (h : node[n]? = some (.int w x y)) :
    ChildOf node n (if b then y else x) := by
  cases b with
  | false => exact ⟨w, x, y, h, .inl rfl⟩
  | true => exact ⟨w, x, y, h, .inr rfl⟩

/-- The two edges below a node lead to different nodes. -/
theorem label_eq_of_child_eq (x y : Nat) (hxy : x ≠ y) (b c : Bool)
    (h : (if b then y else x) = (if c then y else x)) : b = c := by
  revert h
  cases b <;> cases c <;> simp [hxy, hxy.symm]

/-! ### Paths to leaves -/

/-- No path to a leaf goes on to another leaf (R133 (b)). -/
theorem Tree.PathTo.eq_of_isPrefix {t : Tree} {p q : Bits} {b c : Byte} (hp : t.PathTo p b) (hq : t.PathTo q c)
    (h : p <+: q) : b = c := by
  obtain ⟨s, rfl⟩ := h
  obtain ⟨r, i, w, hr, hi, leaf⟩ := hp
  obtain ⟨r', j, w', hr', hj, leaf'⟩ := hq
  obtain rfl : r = r' := Option.some.inj (hr.symm.trans hr')
  rw [follow_append_bits, hi] at hj
  obtain ⟨-, rfl⟩ := follow_leaf _ _ _ _ _ _ leaf hj
  exact (Node.leaf.inj (Option.some.inj (leaf.symm.trans leaf'))).1

/-- Under an internal root a path has an edge. -/
theorem Tree.PathTo.ne_nil {t : Tree} {p : Bits} {b : Byte} {r w x y : Nat} (h : t.PathTo p b)
    (hr : t.root = some r) (hn : t.node[r]? = some (.int w x y)) : p ≠ [] := by
  rintro rfl
  obtain ⟨r', j, w', hr', hj, leaf⟩ := h
  obtain rfl : r = r' := Option.some.inj (hr.symm.trans hr')
  obtain rfl : r = j := Option.some.inj hj
  simp [hn] at leaf

/-! ### One walk to each node -/

/-- Where a live node has no parent and every other node one, a node is reached from a live node by one walk only. -/
theorem Tree.Growing.follow_inj {t : Tree} (hg : t.Growing) (hp : t.Parented) (r : Nat) (live : r ∈ t.live)
    (p q : Bits) (i : Nat) (hpi : follow t.node r p = some i) (hqi : follow t.node r q = some i) : p = q := by
  have notRoot (p : Bits) (b : Bool) : follow t.node r (p ++ [b]) ≠ some r := by
    intro h
    obtain ⟨n, w, x, y, -, hn, hi⟩ := follow_concat _ _ _ _ _ h
    exact hp.live r live n (hi ▸ childOf_of_int _ _ _ _ _ b hn)
  induction p using List.reverseRecOn generalizing q i with
  | nil =>
    obtain rfl : r = i := Option.some.inj hpi
    rcases List.eq_nil_or_concat q with rfl | ⟨q, c, rfl⟩
    · rfl
    · exact absurd (by simpa using hqi) (notRoot q c)
  | append_singleton p b ih =>
    rcases List.eq_nil_or_concat q with rfl | ⟨q, c, rfl⟩
    · obtain rfl : r = i := Option.some.inj hqi
      exact absurd hpi (notRoot p b)
    · rw [List.concat_eq_append] at hqi ⊢
      obtain ⟨n, w, x, y, hpn, hn, hi⟩ := follow_concat _ _ _ _ _ hpi
      obtain ⟨m, w', x', y', hqm, hm, hi'⟩ := follow_concat _ _ _ _ _ hqi
      have hcn : ChildOf t.node n i := hi ▸ childOf_of_int _ _ _ _ _ b hn
      have hcm : ChildOf t.node m i := hi' ▸ childOf_of_int _ _ _ _ _ c hm
      obtain ⟨k, hk⟩ := hp.merged i ((hg.lt_of_childOf n i hcn).1.trans (hg.lt_of_childOf n i hcn).2)
        fun hl => hp.live i hl n hcn
      obtain rfl : n = m := ((hk n).1 hcn).trans ((hk m).1 hcm).symm
      obtain ⟨rfl, rfl, rfl⟩ := Node.int.inj (Option.some.inj (hn.symm.trans hm))
      obtain ⟨-, -, hxy⟩ := hg.child n w x y hn
      rw [ih q n hpn hqm, label_eq_of_child_eq x y hxy b c (hi.trans hi'.symm)]

/-- The record of a byte value has the place of the byte value among the symbols. -/
theorem getElem?_symbols_of_leaf (f : Table Word) (j : Nat) (b : Byte) (w : Nat)
    (h : (buildTree f).node[j]? = some (.leaf b w)) : (symbols f)[j]? = some b := by
  have hj : j < (symbols f).length := by
    by_contra hge
    obtain ⟨_, _, _, hint⟩ := int_of_leafCount_le f j _ (by rw [← length_symbols]; omega) h
    simp at hint
  have hs := List.getElem?_eq_getElem hj
  rw [getElem?_buildTree_of_symbols f j _ hs] at h
  rw [hs, (Node.leaf.inj (Option.some.inj h)).1]

theorem counter_ne_zero_of_leaf (f : Table Word) (j : Nat) (b : Byte) (w : Nat)
    (h : (buildTree f).node[j]? = some (.leaf b w)) : f.at b ≠ 0 :=
  (mem_symbols f b).1 (List.mem_of_getElem? (getElem?_symbols_of_leaf f j b w h))

/-- A tree of BUILD has one path to each byte value. -/
theorem buildTree_pathTo_inj (f : Table Word) (p q : Bits) (b : Byte) (hp : (buildTree f).PathTo p b)
    (hq : (buildTree f).PathTo q b) : p = q := by
  have distinct : (symbols f).Nodup := (symbols_pairwise f).imp fun h e => Nat.ne_of_lt h (congrArg BitVec.toNat e)
  obtain ⟨r, i, w, hr, hi, leaf⟩ := hp
  obtain ⟨r', j, w', hr', hj, leaf'⟩ := hq
  obtain rfl : r = r' := Option.some.inj (hr.symm.trans hr')
  have hi' := getElem?_symbols_of_leaf f i b w leaf
  have hj' := getElem?_symbols_of_leaf f j b w' leaf'
  obtain rfl : i = j := (List.getElem?_inj (List.getElem?_eq_some_iff.1 hi').1 distinct).1 (hi'.trans hj'.symm)
  obtain ⟨t, ht, -, he⟩ := buildTree_shaped f
  rw [he] at hr
  rw [he, Tree.setRoot_node] at hi hj
  have live := t.setRoot_root_eq_some r ht.growing.root hr
  exact ht.growing.follow_inj ht.parented r (by rw [live]; exact List.mem_singleton_self r) p q i hi hj

/-- The root of two or more leaves is an internal node (R116). -/
theorem buildTree_root_int (f : Table Word) (two : 2 ≤ leafCount f) :
    ∃ r w x y, (buildTree f).root = some r ∧ (buildTree f).node[r]? = some (.int w x y) := by
  have hr := buildTree_root f (by omega)
  have hn := List.getElem?_eq_getElem ((buildTree_ok f).root _ hr)
  obtain ⟨w, x, y, hint⟩ := int_of_leafCount_le f _ _ (by omega) hn
  exact ⟨_, w, x, y, hr, hn.trans (congrArg some hint)⟩

end Sys2Proof.Machine
end

section
/-! PROOFS. The stage DERIVE: what its records leave in the code table, which codes a tree has, and from these the
statements of R130 to R134 about single codes. -/

namespace Sys2Proof.Machine

/-! ### What the records leave in the table -/

/-- The table holds, for exactly the byte values that occur in cs, one of the codes cs gives it. -/
structure RecordsCodes (cs : List (Byte × Bits)) (code : Table CodeEntry) : Prop where
  valid_iff : ∀ b, (code.at b).valid = true ↔ ∃ p, (b, p) ∈ cs
  mem       : ∀ b, (code.at b).valid = true → (b, (code.at b).bits) ∈ cs
  len       : ∀ b, (code.at b).valid = true → (code.at b).len = (code.at b).bits.length

theorem clearCodes_recordsCodes (old : Table CodeEntry) : RecordsCodes [] (clearCodes old) := by
  have cleared : ∀ b, ((clearCodes old).at b).valid = false := fun b => by simp [clearCodes]
  exact ⟨by simp [cleared], by simp [cleared], by simp [cleared]⟩

theorem RecordsCodes.recordCode {cs : List (Byte × Bits)} {code : Table CodeEntry} (h : RecordsCodes cs code)
    (c : Byte × Bits) : RecordsCodes (cs ++ [c]) (recordCode code c) := by
  obtain ⟨s, p⟩ := c
  have other (b : Byte) (hb : s ≠ b) : (Machine.recordCode code (s, p)).at b = code.at b :=
    Table.at_put_of_ne _ _ _ _ hb
  have own : (Machine.recordCode code (s, p)).at s = { valid := true, len := p.length, bits := p } :=
    Table.at_put_self _ _ _
  refine ⟨fun b => ?valid, fun b => ?mem, fun b => ?len⟩
  case valid =>
    rcases eq_or_ne s b with rfl | hb
    · simp only [own, true_iff]
      exact ⟨p, by simp⟩
    · simp [other b hb, h.valid_iff, hb.symm]
  case mem =>
    rcases eq_or_ne s b with rfl | hb
    · simp [own]
    · rw [other b hb]
      exact fun hv => List.mem_append_left _ (h.mem b hv)
  case len =>
    rcases eq_or_ne s b with rfl | hb
    · simp [own]
    · rw [other b hb]
      exact h.len b

theorem foldl_recordCode_recordsCodes (cs : List (Byte × Bits)) (old : Table CodeEntry) :
    RecordsCodes cs (cs.foldl recordCode (clearCodes old)) := by
  induction cs using List.reverseRecOn with
  | nil => exact clearCodes_recordsCodes old
  | append_singleton cs c ih =>
    rw [List.foldl_concat]
    exact ih.recordCode c

/-- DERIVE leaves the table of the codes of the tree. -/
theorem exec_derive_recordsCodes (s t : State) (h : exec .derive s = .next t) :
    ∃ cs, treeCodes s.priv.tree = some cs ∧ RecordsCodes cs t.priv.code := by
  obtain ⟨cs, hcs, rfl⟩ := (execDerive_next s t).1 h
  exact ⟨cs, hcs, foldl_recordCode_recordsCodes cs _⟩

namespace RecordsCodes

variable {cs : List (Byte × Bits)} {code : Table CodeEntry} (h : RecordsCodes cs code)
include h

/-- The code word of a valid entry is the whole of BITS (R34). -/
theorem word_eq (b : Byte) (hv : (code.at b).valid = true) : (code.at b).word = (code.at b).bits := by
  rw [CodeEntry.word, h.len b hv, List.take_length]

theorem word_mem (b : Byte) (hv : (code.at b).valid = true) : (b, (code.at b).word) ∈ cs :=
  h.word_eq b hv ▸ h.mem b hv

/-- Where the list gives a byte value one code only, the entry holds it. -/
theorem entry_eq (b : Byte) (p : Bits) (hp : (b, p) ∈ cs) (one : ∀ q, (b, q) ∈ cs → q = p) :
    code.at b = { valid := true, len := p.length, bits := p } := by
  have hv := (h.valid_iff b).2 ⟨p, hp⟩
  have hbits := one _ (h.mem b hv)
  have hlen := h.len b hv
  rw [hbits] at hlen
  rw [← hv, ← hlen, ← hbits]

end RecordsCodes

/-! ### The codes of a tree -/

/-- The codes of a tree by its root: no tree (R132), a leaf (R131), an internal node. -/
theorem treeCodes_cases (t : Tree) (cs : List (Byte × Bits)) (h : treeCodes t = some cs) :
    (t.root = none ∧ cs = []) ∨
    (∃ r sym w, t.root = some r ∧ t.node[r]? = some (.leaf sym w) ∧ cs = [(sym, [false])]) ∨
    ∃ r w x y, t.root = some r ∧ t.node[r]? = some (.int w x y) ∧ visit t.node t.node.length r [] = some cs := by
  unfold treeCodes at h
  split at h
  · next hr => exact .inl ⟨hr, (Option.some.inj h).symm⟩
  · next r hr =>
    split at h
    · simp at h
    · next sym w hn => exact .inr (.inl ⟨r, sym, w, hr, hn, (Option.some.inj h).symm⟩)
    · next w x y hn => exact .inr (.inr ⟨r, w, x, y, hr, hn, h⟩)

/-- The walk from ROOT gives the paths to the leaves. -/
theorem mem_visit_root_iff (t : Tree) (cs : List (Byte × Bits)) (fuel r : Nat) (hr : t.root = some r)
    (h : visit t.node fuel r [] = some cs) (b : Byte) (p : Bits) : (b, p) ∈ cs ↔ t.PathTo p b := by
  rw [visit_mem _ _ _ _ _ h b p]
  constructor
  · rintro ⟨q, j, w, rfl, hf, hj⟩
    exact ⟨r, j, w, hr, hf, hj⟩
  · rintro ⟨r', j, w, hr', hf, hj⟩
    obtain rfl : r = r' := Option.some.inj (hr.symm.trans hr')
    exact ⟨p, j, w, rfl, hf, hj⟩

/-- Under an internal root the codes are the paths to the leaves. -/
theorem mem_treeCodes_iff_of_int (t : Tree) (cs : List (Byte × Bits)) (r w x y : Nat) (hr : t.root = some r)
    (hn : t.node[r]? = some (.int w x y)) (h : treeCodes t = some cs) (b : Byte) (p : Bits) :
    (b, p) ∈ cs ↔ t.PathTo p b := by
  simp only [treeCodes, hr, hn] at h
  exact mem_visit_root_iff t cs _ r hr h b p

/-- A byte value with a code has a leaf. -/
theorem leaf_of_mem_treeCodes (t : Tree) (cs : List (Byte × Bits)) (h : treeCodes t = some cs) (b : Byte) (p : Bits)
    (hm : (b, p) ∈ cs) : ∃ j w : Nat, t.node[j]? = some (Node.leaf b w) := by
  rcases treeCodes_cases t cs h with ⟨-, rfl⟩ | ⟨r, sym, w, -, hn, rfl⟩ | ⟨r, -, -, -, hr, -, hv⟩
  · simp at hm
  · obtain ⟨rfl, -⟩ := Prod.mk.inj (List.mem_singleton.1 hm)
    exact ⟨r, w, hn⟩
  · obtain ⟨-, j, w, -, -, leaf⟩ := (mem_visit_root_iff t cs _ r hr hv b p).1 hm
    exact ⟨j, w, leaf⟩

/-- No code begins the code of another byte value (R133 (b)). -/
theorem eq_of_isPrefix_of_mem_treeCodes (t : Tree) (cs : List (Byte × Bits)) (h : treeCodes t = some cs) (b c : Byte)
    (p q : Bits) (hp : (b, p) ∈ cs) (hq : (c, q) ∈ cs) (hpq : p <+: q) : b = c := by
  rcases treeCodes_cases t cs h with ⟨-, rfl⟩ | ⟨r, sym, w, -, -, rfl⟩ | ⟨r, -, -, -, hr, -, hv⟩
  · simp at hp
  · exact congrArg Prod.fst ((List.mem_singleton.1 hp).trans (List.mem_singleton.1 hq).symm)
  · have path := mem_visit_root_iff t cs _ r hr hv
    exact ((path b p).1 hp).eq_of_isPrefix ((path c q).1 hq) hpq

/-- A code has a bit (R134): the code of a root leaf is `0`, and a path leaves an internal root. -/
theorem ne_nil_of_mem_treeCodes (t : Tree) (cs : List (Byte × Bits)) (h : treeCodes t = some cs) (b : Byte) (p : Bits)
    (hm : (b, p) ∈ cs) : p ≠ [] := by
  rcases treeCodes_cases t cs h with ⟨-, rfl⟩ | ⟨r, sym, w, -, -, rfl⟩ | ⟨r, w, x, y, hr, hn, hv⟩
  · simp at hm
  · obtain ⟨-, rfl⟩ := Prod.mk.inj (List.mem_singleton.1 hm)
    simp
  · exact ((mem_visit_root_iff t cs _ r hr hv b p).1 hm).ne_nil hr hn

/-- The byte values with a code are those with a non-zero counter (R133 (a)). -/
theorem exists_mem_treeCodes_buildTree_iff (f : Table Word) (cs : List (Byte × Bits))
    (h : treeCodes (buildTree f) = some cs) (b : Byte) : (∃ p, (b, p) ∈ cs) ↔ f.at b ≠ 0 := by
  constructor
  · rintro ⟨p, hp⟩
    obtain ⟨j, w, leaf⟩ := leaf_of_mem_treeCodes _ cs h b p hp
    exact counter_ne_zero_of_leaf f j b w leaf
  · intro hb
    obtain ⟨q, hq⟩ := buildTree_pathTo f b hb
    exact mem_treeCodes_of_pathTo _ cs q b h hq

/-- With two or more leaves the codes of a built tree are its paths (R133 (c)). -/
theorem mem_treeCodes_buildTree_iff (f : Table Word) (two : 2 ≤ leafCount f) (cs : List (Byte × Bits))
    (h : treeCodes (buildTree f) = some cs) (b : Byte) (p : Bits) : (b, p) ∈ cs ↔ (buildTree f).PathTo p b := by
  obtain ⟨r, w, x, y, hr, hn⟩ := buildTree_root_int f two
  exact mem_treeCodes_iff_of_int _ cs r w x y hr hn h b p

/-! ### The statements about DERIVE -/

/-- Settles O29: an entry holds a code of the tree, and no code of the tree begins another one. -/
theorem derivedCodeIsUniquelyReadable : Obligations.DerivedCodeIsUniquelyReadable := by
  intro s built
  obtain ⟨t, ht⟩ := execDerive_completes s (built ▸ buildTree_ok _)
  obtain ⟨cs, hcs, holds⟩ := exec_derive_recordsCodes s t ht
  rw [built] at hcs ⊢
  refine ⟨t, ht, fun b => ?covers, fun b c hbc hb hc hpre => ?prefixFree, fun two b hb => ?path⟩
  case covers => rw [holds.valid_iff, exists_mem_treeCodes_buildTree_iff _ cs hcs]
  case prefixFree =>
    exact hbc (eq_of_isPrefix_of_mem_treeCodes _ cs hcs b c _ _ (holds.word_mem b hb) (holds.word_mem c hc) hpre)
  case path => exact (mem_treeCodes_buildTree_iff _ two cs hcs b _).1 (holds.word_mem b hb)

/-- Settles O28: the table holds the codes of the tree, which its root tells (R131, R132). -/
theorem deriveRecordsTheTreePaths : Obligations.DeriveRecordsTheTreePaths := by
  intro s ok
  obtain ⟨cs, hcs⟩ := Option.isSome_iff_exists.1 (treeCodes_isSome _ ok)
  have holds := foldl_recordCode_recordsCodes cs s.priv.code
  have invalid (b : Byte) (absent : ∀ p, (b, p) ∉ cs) :
      ((cs.foldl recordCode (clearCodes s.priv.code)).at b).valid = false :=
    Bool.eq_false_iff.2 fun hv => absent _ (holds.mem b hv)
  refine ⟨_, (execDerive_next s _).2 ⟨cs, hcs, rfl⟩, fun hr b => ?noTree, fun r sym w hr hn => ?leafRoot,
    fun r w x y hr hn b => ?intRoot⟩
  case noTree =>
    obtain rfl : [] = cs := by simpa [treeCodes, hr] using hcs
    exact invalid b (by simp)
  case leafRoot =>
    obtain rfl : [(sym, [false])] = cs := by simpa [treeCodes, hr, hn] using hcs
    exact ⟨holds.entry_eq sym [false] (by simp) (by simp), fun b hb => invalid b (by simp [hb])⟩
  case intRoot =>
    have path := mem_treeCodes_iff_of_int _ cs r w x y hr hn hcs b
    exact ⟨by simp only [holds.valid_iff, path], fun hv => ⟨holds.len b hv, (path _).1 (holds.mem b hv)⟩⟩

/-- Settles O31: a code has a bit, and a path of a built tree has at most 255. -/
theorem codeLengthsAreOneTo255 : Obligations.CodeLengthsAreOneTo255 := by
  intro s t built ht b hv
  obtain ⟨cs, hcs, holds⟩ := exec_derive_recordsCodes s t ht
  rw [built] at hcs
  have hm := holds.mem b hv
  rw [holds.len b hv]
  exact ⟨List.length_pos_iff.2 (ne_nil_of_mem_treeCodes _ cs hcs b _ hm),
    length_le_of_mem_treeCodes _ cs b _ hcs hm, rfl⟩

end Sys2Proof.Machine
end

section
/-! PROOFS. The code of a built tree is complete (R133 (d)): each walk of DERIVE splits the share of its node between
the two children, and the table holds every leaf the walk records once. -/

namespace Sys2Proof.Machine

/-! ### The shares of the leaves -/

/-- The sum of 2^(n - length) over a list of codes. -/
def kraftSum (n : Nat) (cs : List (Byte × Bits)) : Nat := (cs.map fun c => 2 ^ (n - c.2.length)).sum

theorem kraftSum_append (n : Nat) (as bs : List (Byte × Bits)) :
    kraftSum n (as ++ bs) = kraftSum n as + kraftSum n bs := by
  simp [kraftSum]

/-- The walk below an internal node is the walk below its left child and then the one below its right child. -/
theorem visit_int (node : List Node) (fuel i w l r : Nat) (path : Bits) (cs : List (Byte × Bits))
    (hn : node[i]? = some (.int w l r)) (h : visit node (fuel + 1) i path = some cs) :
    ∃ as bs, visit node fuel l (path ++ [false]) = some as ∧ visit node fuel r (path ++ [true]) = some bs ∧
      cs = as ++ bs := by
  simp only [visit, hn] at h
  split at h
  · next as bs ha hb => exact ⟨as, bs, ha, hb, (Option.some.inj h).symm⟩
  · simp at h

theorem visit_leaf (node : List Node) (fuel i w : Nat) (sym : Byte) (path : Bits) (cs : List (Byte × Bits))
    (hn : node[i]? = some (.leaf sym w)) (h : visit node (fuel + 1) i path = some cs) : cs = [(sym, path)] := by
  simp only [visit, hn] at h
  exact (Option.some.inj h).symm

/-- Every code recorded below a node begins with the path to the node. -/
theorem path_isPrefix_of_mem_visit (node : List Node) (fuel i : Nat) (path : Bits) (cs : List (Byte × Bits))
    (h : visit node fuel i path = some cs) (c : Byte × Bits) (hc : c ∈ cs) : path <+: c.2 := by
  obtain ⟨q, -, -, hp, -⟩ := (visit_mem node fuel i path cs h c.1 c.2).1 hc
  exact ⟨q, hp.symm⟩

/-- The leaves below a node share what is left at the node, when no code is longer than n. -/
theorem kraftSum_visit (node : List Node) (n fuel i : Nat) (path : Bits) (cs : List (Byte × Bits))
    (h : visit node fuel i path = some cs) (short : ∀ c ∈ cs, c.2.length ≤ n) :
    kraftSum n cs = 2 ^ (n - path.length) := by
  induction fuel generalizing i path cs with
  | zero => simp [visit] at h
  | succ fuel ih =>
    cases hn : node[i]? with
    | none => simp [visit, hn] at h
    | some m =>
      cases m with
      | leaf sym w =>
        obtain rfl := visit_leaf node fuel i w sym path cs hn h
        simp [kraftSum]
      | int w l r =>
        obtain ⟨as, bs, ha, hb, rfl⟩ := visit_int node fuel i w l r path cs hn h
        have left := ih l _ as ha fun c hc => short c (List.mem_append_left _ hc)
        have right := ih r _ bs hb fun c hc => short c (List.mem_append_right _ hc)
        have below : path.length + 1 ≤ n := by
          obtain ⟨c, hc⟩ : ∃ c, c ∈ as := List.exists_mem_of_ne_nil _ fun e => by
            have := Nat.two_pow_pos (n - (path ++ [false]).length)
            simp only [e, kraftSum, List.map_nil, List.sum_nil] at left
            omega
          have := (path_isPrefix_of_mem_visit node fuel l _ as ha c hc).length_le
          rw [List.length_append, List.length_singleton] at this
          exact this.trans (short c (List.mem_append_left _ hc))
        rw [kraftSum_append, left, right, List.length_append, List.length_append, List.length_singleton,
          List.length_singleton, ← Nat.two_mul, ← Nat.pow_succ']
        congr 1
        omega

/-- The walk records nothing twice: the codes on the two sides of a node differ at the edge below it. -/
theorem nodup_visit (node : List Node) (fuel i : Nat) (path : Bits) (cs : List (Byte × Bits))
    (h : visit node fuel i path = some cs) : cs.Nodup := by
  induction fuel generalizing i path cs with
  | zero => simp [visit] at h
  | succ fuel ih =>
    cases hn : node[i]? with
    | none => simp [visit, hn] at h
    | some m =>
      cases m with
      | leaf sym w =>
        obtain rfl := visit_leaf node fuel i w sym path cs hn h
        exact List.nodup_singleton _
      | int w l r =>
        obtain ⟨as, bs, ha, hb, rfl⟩ := visit_int node fuel i w l r path cs hn h
        refine (ih l _ as ha).append (ih r _ bs hb) fun c hca hcb => ?_
        obtain ⟨p, hp⟩ := path_isPrefix_of_mem_visit node fuel l _ as ha c hca
        obtain ⟨q, hq⟩ := path_isPrefix_of_mem_visit node fuel r _ bs hb c hcb
        simpa using hp.trans hq.symm

/-! ### The table holds every code once -/

theorem toList_eq_map_at {α : Type} (t : Table α) : t.toList = allBytes.map t.at := by
  refine List.ext_getElem (by simp [allBytes]) fun i hi _ => ?_
  rw [Table.length_toList] at hi
  simp [allBytes, Table.at, Nat.mod_eq_of_lt hi]

/-- The byte values with a valid entry, in ascending order. -/
def validBytes (code : Table CodeEntry) : List Byte := allBytes.filter fun b => (code.at b).valid

theorem nodup_validBytes (code : Table CodeEntry) : (validBytes code).Nodup :=
  (allBytes_pairwise.imp fun h e => Nat.ne_of_lt h (congrArg BitVec.toNat e)).filter _

theorem mem_validBytes (code : Table CodeEntry) (b : Byte) : b ∈ validBytes code ↔ (code.at b).valid = true := by
  simp [validBytes, mem_allBytes]

/-- A list that gives each byte value at most one code is what the table records of it, in another order. -/
theorem RecordsCodes.perm {cs : List (Byte × Bits)} {code : Table CodeEntry} (h : RecordsCodes cs code)
    (distinct : cs.Nodup) (one : ∀ b p q, (b, p) ∈ cs → (b, q) ∈ cs → p = q) :
    cs.Perm ((validBytes code).map fun b => (b, (code.at b).bits)) := by
  refine (List.perm_ext_iff_of_nodup distinct
    ((nodup_validBytes code).map fun _ _ e => congrArg Prod.fst e)).2 fun ⟨b, p⟩ => ?_
  constructor
  · intro hm
    have hv := (h.valid_iff b).2 ⟨p, hm⟩
    exact List.mem_map.2 ⟨b, (mem_validBytes code b).2 hv, by rw [one b p _ hm (h.mem b hv)]⟩
  · intro hm
    obtain ⟨c, hc, e⟩ := List.mem_map.1 hm
    exact e ▸ h.mem c ((mem_validBytes code c).1 hc)

/-- So the sum over the valid entries is the sum over the list. -/
theorem RecordsCodes.sum_eq_kraftSum {cs : List (Byte × Bits)} {code : Table CodeEntry} (h : RecordsCodes cs code)
    (distinct : cs.Nodup) (one : ∀ b p q, (b, p) ∈ cs → (b, q) ∈ cs → p = q) (n : Nat) :
    ((code.toList.filter fun e => e.valid).map fun e => 2 ^ (n - e.len)).sum = kraftSum n cs := by
  have entries : code.toList.filter (fun e => e.valid) = (validBytes code).map code.at := by
    rw [toList_eq_map_at, List.filter_map]; rfl
  rw [kraftSum, ((h.perm distinct one).map _).sum_eq, entries, List.map_map, List.map_map]
  refine congrArg List.sum (List.map_congr_left fun b hb => ?_)
  simp only [Function.comp, h.len b ((mem_validBytes code b).1 hb)]

/-- Settles O30: below the root of two or more leaves the walk shares out 2^255. -/
theorem derivedCodeIsComplete : Obligations.DerivedCodeIsComplete := by
  intro s t built two ht
  obtain ⟨cs, hcs, holds⟩ := exec_derive_recordsCodes s t ht
  rw [built] at hcs
  have path := mem_treeCodes_buildTree_iff _ two cs hcs
  have short (c : Byte × Bits) (hc : c ∈ cs) : c.2.length ≤ 255 := length_le_of_mem_treeCodes _ cs c.1 c.2 hcs hc
  obtain ⟨r, w, x, y, hr, hn⟩ := buildTree_root_int _ two
  simp only [treeCodes, hr, hn] at hcs
  rw [holds.sum_eq_kraftSum (nodup_visit _ _ _ _ _ hcs)
    fun b p q hp hq => buildTree_pathTo_inj _ p q b ((path b p).1 hp) ((path b q).1 hq)]
  exact kraftSum_visit _ 255 _ r [] cs hcs short

end Sys2Proof.Machine
end

section
/-! PROOFS. DECODE reads back what the codes of DERIVE spell (R133 (c), R185 (e)): along a path the walk goes to a leaf
and from there back to ROOT. -/

namespace Sys2Proof.Machine

/-! ### The walk of DECODE over code words -/

/-- Under an internal root the bits of a walk to a leaf emit its byte value, and what follows starts at ROOT again. -/
theorem walkTree_append_of_follow (node : List Node) (root : Nat) (p q : Bits) (cur j w : Nat) (sym : Byte)
    (out : List Byte) (inner : p ≠ []) (hf : follow node cur p = some j) (leaf : node[j]? = some (.leaf sym w)) :
    walkTree node root (p ++ q) cur out = walkTree node root q root (out ++ [sym]) := by
  induction p generalizing cur with
  | nil => exact absurd rfl inner
  | cons b p ih =>
    cases hn : node[cur]? with
    | none => simp [follow, hn] at hf
    | some n =>
      cases n with
      | leaf sym' w' => simp [follow, hn] at hf
      | int w' l r =>
        rw [follow_cons_of_int _ _ _ _ _ _ _ hn] at hf
        cases hm : node[if b then r else l]? with
        | none =>
          cases p with
          | nil => obtain rfl := Option.some.inj hf; simp [hm] at leaf
          | cons c p => simp [follow, hm] at hf
        | some m =>
          cases m with
          | leaf sym' w'' =>
            obtain ⟨rfl, rfl⟩ := follow_leaf _ _ _ _ _ _ hm hf
            obtain ⟨rfl, -⟩ := Node.leaf.inj (Option.some.inj (hm.symm.trans leaf))
            simp only [List.cons_append, List.nil_append, walkTree, hn, hm]
          | int w'' l' r' =>
            have inner' : p ≠ [] := by
              rintro rfl
              obtain rfl := Option.some.inj hf
              simp [hm] at leaf
            simp only [List.cons_append, walkTree, hn, hm]
            exact ih _ inner' hf

/-- Under an internal root the concatenation of paths emits their byte values and ends at ROOT (R180). -/
theorem walkTree_flatMap (t : Tree) (root w x y : Nat) (hr : t.root = some root)
    (hn : t.node[root]? = some (.int w x y)) (ws : List (Bits × Byte)) (paths : ∀ p ∈ ws, t.PathTo p.1 p.2)
    (out : List Byte) :
    walkTree t.node root (ws.flatMap Prod.fst) root out = .ended root (out ++ ws.map Prod.snd) := by
  induction ws generalizing out with
  | nil => simp [walkTree]
  | cons p ws ih =>
    have hp := paths p (by simp)
    obtain ⟨r, j, w', hr', hf, leaf⟩ := id hp
    obtain rfl : root = r := Option.some.inj (hr.symm.trans hr')
    rw [List.flatMap_cons, walkTree_append_of_follow _ _ _ _ _ _ _ _ _ (hp.ne_nil hr hn) hf leaf,
      ih fun p hp => paths p (List.mem_cons_of_mem _ hp)]
    simp

/-- The walk over a sequence that spells bytes emits them and ends at ROOT. -/
theorem walkBits_of_spells (t : Tree) (root w x y : Nat) (hr : t.root = some root)
    (hn : t.node[root]? = some (.int w x y)) (q : Bits) (out : List Byte) (h : t.Spells q out) :
    walkBits t root q = .ended root out := by
  obtain ⟨ws, paths, rfl, rfl⟩ := h
  simp only [walkBits, hn]
  exact walkTree_flatMap t root w x y hr hn ws paths []

/-- Under a single leaf every bit 0 emits its byte value (R181). -/
theorem walkLeaf_replicate (root : Nat) (sym : Byte) (n : Nat) (out : List Byte) :
    walkLeaf root sym (List.replicate n false) out = .ended root (out ++ List.replicate n sym) := by
  induction n generalizing out with
  | zero => simp [walkLeaf]
  | succ n ih =>
    rw [List.replicate_succ, walkLeaf, ih, List.append_assoc]
    rfl

/-! ### The code words of a built tree -/

/-- The words of bytes with non-zero counters spell these bytes, for two or more leaves. -/
theorem spells_of_recordsCodes (f : Table Word) (two : 2 ≤ leafCount f) (cs : List (Byte × Bits))
    (hcs : treeCodes (buildTree f) = some cs) (code : Table CodeEntry) (h : RecordsCodes cs code) (bs : List Byte)
    (hbs : ∀ b ∈ bs, f.at b ≠ 0) : (buildTree f).Spells (bs.flatMap fun b => (code.at b).word) bs := by
  refine ⟨bs.map fun b => ((code.at b).word, b), fun p hp => ?_, by rw [List.flatMap_map], by simp [Function.comp_def]⟩
  obtain ⟨b, hb, rfl⟩ := List.mem_map.1 hp
  have hv := (h.valid_iff b).2 ((exists_mem_treeCodes_buildTree_iff f cs hcs b).2 (hbs b hb))
  exact (mem_treeCodes_buildTree_iff f two cs hcs b _).1 (h.word_mem b hv)

/-- Under a single leaf the bytes with a non-zero counter are its byte value, and their words one bit 0 each (R131). -/
theorem words_of_single_leaf (f : Table Word) (r w : Nat) (sym : Byte) (hr : (buildTree f).root = some r)
    (hn : (buildTree f).node[r]? = some (.leaf sym w)) (cs : List (Byte × Bits))
    (hcs : treeCodes (buildTree f) = some cs) (code : Table CodeEntry) (h : RecordsCodes cs code) (bs : List Byte)
    (hbs : ∀ b ∈ bs, f.at b ≠ 0) :
    bs = List.replicate bs.length sym ∧
      (bs.flatMap fun b => (code.at b).word) = List.replicate bs.length false := by
  have covered := exists_mem_treeCodes_buildTree_iff f cs hcs
  obtain rfl : [(sym, [false])] = cs := by simpa [treeCodes, hr, hn] using hcs
  have hall : bs = List.replicate bs.length sym := by
    refine List.eq_replicate_of_mem fun b hb => ?_
    obtain ⟨p, hp⟩ := (covered b).2 (hbs b hb)
    exact congrArg Prod.fst (List.mem_singleton.1 hp)
  have hword : (code.at sym).word = [false] := by
    rw [h.entry_eq sym [false] (by simp) (by simp)]
    rfl
  refine ⟨hall, ?_⟩
  rw [hall, List.length_replicate, List.flatMap_replicate, hword]
  simp

/-- The walk over the words of bytes with non-zero counters emits these bytes and ends at ROOT. -/
theorem walkBits_of_recordsCodes (f : Table Word) (pos : 1 ≤ leafCount f) (cs : List (Byte × Bits))
    (hcs : treeCodes (buildTree f) = some cs) (code : Table CodeEntry) (h : RecordsCodes cs code) (bs : List Byte)
    (hbs : ∀ b ∈ bs, f.at b ≠ 0) : ∃ root, (buildTree f).root = some root ∧
      walkBits (buildTree f) root (bs.flatMap fun b => (code.at b).word) = .ended root bs := by
  rcases Nat.lt_or_ge 1 (leafCount f) with two | one
  · obtain ⟨root, w, x, y, hr, hn⟩ := buildTree_root_int f two
    exact ⟨root, hr, walkBits_of_spells _ root w x y hr hn _ _ (spells_of_recordsCodes f two cs hcs code h bs hbs)⟩
  · have single : leafCount f = 1 := by omega
    have hr := buildTree_root f pos
    rw [single] at hr
    obtain ⟨sym, -, hnode⟩ := buildTree_node_of_leafCount_eq_one f single
    have hn : (buildTree f).node[0]? = some (.leaf sym (f.at sym).toNat) := by rw [hnode]; rfl
    refine ⟨0, hr, ?_⟩
    obtain ⟨hall, hword⟩ := words_of_single_leaf f 0 _ sym hr hn cs hcs code h bs hbs
    simp only [walkBits, hn]
    rw [hword, walkLeaf_replicate, List.nil_append, ← hall]

/-- Settles O46: the walk emits the bytes the codes spell, and they fit OBUF because a byte takes a bit. -/
theorem decodeInvertsEncode : Obligations.DecodeInvertsEncode := by
  intro s d bs built hd hbs hbits hn fits pos
  obtain ⟨cs, hcs, holds⟩ := exec_derive_recordsCodes s d hd
  rw [built] at hcs
  obtain ⟨root, hroot, hwalk⟩ := walkBits_of_recordsCodes _ pos cs hcs _ holds bs hbs
  rw [← hbits, ← built] at hwalk
  rw [← built] at hroot
  have room : bs.length ≤ s.outCap := by
    have emitted := walkBits_emitsAtMost s.priv.tree root s.priv.bitseq (built ▸ buildTree_ok _) hroot
    rw [hwalk] at emitted
    exact (Nat.le_trans emitted hn.ge).trans fits
  refine ⟨State.finishDecode { s with obuf := Memory.write s.obuf 0 bs } root bs, ?runs, rfl, rfl, rfl,
    fun j hj => ?byte⟩
  case runs =>
    refine (execDecode_next s _).2 (.inr ⟨root, hroot, .inr ⟨root, bs, ?_, room, .inl ⟨rfl, rfl⟩⟩⟩)
    rwa [hn, List.take_length]
  case byte =>
    have hread := Memory.read_write_inside s.obuf 0 j bs hj
    rw [Nat.zero_add] at hread
    simp [State.obufByte, hread, hj]

end Sys2Proof.Machine
end

section
/-! PROOFS. The stage ENCODE: it concatenates the codes of the operand or stops at a byte without one (R140, R141), and
in a COMPRESS the length of the concatenation is the counters weighted with the code lengths (R143). -/

namespace Sys2Proof.Machine

/-! ### The concatenation of the codes -/

/-- ENCODE has a sequence exactly when every byte has a code, and it is the concatenation of the codes in order. -/
theorem encodeBytes_eq_some_iff (code : Table CodeEntry) (bs : List Byte) (q : Bits) :
    encodeBytes code bs = some q ↔
      (∀ b ∈ bs, (code.at b).valid = true) ∧ q = bs.flatMap fun b => (code.at b).word := by
  induction bs generalizing q with
  | nil => simp [encodeBytes]
  | cons b bs ih =>
    by_cases hv : (code.at b).valid = true
    · cases hq : encodeBytes code bs with
      | none =>
        have stuck : ¬ ∀ c ∈ bs, (code.at c).valid = true := fun h => by
          simpa [hq] using (ih _).2 ⟨h, rfl⟩
        simp [encodeBytes, hv, hq, stuck]
      | some p =>
        obtain ⟨coded, rfl⟩ := (ih p).1 hq
        simp only [encodeBytes, hv, hq, if_true, Option.some.injEq, List.forall_mem_cons, true_and,
          List.flatMap_cons]
        exact ⟨fun h => ⟨coded, h.symm⟩, fun h => h.2.symm⟩
    · simp [encodeBytes, hv]

/-- A byte without a code leaves no sequence. -/
theorem encodeBytes_eq_none (code : Table CodeEntry) (bs : List Byte)
    (h : ∃ b ∈ bs, (code.at b).valid = false) : encodeBytes code bs = none := by
  obtain ⟨b, hb, hv⟩ := h
  refine Option.eq_none_iff_forall_ne_some.2 fun q hq => ?_
  simpa [hv] using ((encodeBytes_eq_some_iff code bs q).1 hq).1 b hb

/-- Settles O32: ENCODE answers what `encodeBytes` gives for the operand, a sequence or none. -/
theorem encodeConcatenatesTheCodes : Obligations.EncodeConcatenatesTheCodes := by
  intro s fits
  refine ⟨fun coded => ?concatenates, fun uncoded stage => ?raises⟩
  case concatenates =>
    exact (execEncode_next s _).2 ⟨fits, .inr ⟨_, (encodeBytes_eq_some_iff _ _ _).2 ⟨coded, rfl⟩, rfl⟩⟩
  case raises =>
    refine ⟨s.raise .unknownByte, (execEncode_next s _).2 ⟨fits, .inl ⟨encodeBytes_eq_none _ _ uncoded, rfl⟩⟩,
      ?status, rfl, rfl, rfl, rfl⟩
    rw [← stage]
    rfl

/-! ### The length of the concatenation -/

theorem nodup_allBytes : allBytes.Nodup :=
  allBytes_pairwise.imp fun h e => Nat.ne_of_lt h (congrArg BitVec.toNat e)

/-- A sum over the bytes of a list is the sum over the byte values, each as often as it occurs. -/
theorem sum_map_eq_sum_count_mul (g : Byte → Nat) (bs : List Byte) :
    (bs.map g).sum = (allBytes.map fun b => bs.count b * g b).sum := by
  rw [Finset.sum_list_map_count, ← List.sum_toFinset _ nodup_allBytes]
  refine Finset.sum_subset (fun b _ => List.mem_toFinset.2 (mem_allBytes b)) fun b _ hb => ?_
  rw [List.count_eq_zero.2 fun h => hb (List.mem_toFinset.2 h), zero_smul]

/-- The code word of a valid entry is as long as its LEN says. -/
theorem RecordsCodes.length_word {cs : List (Byte × Bits)} {code : Table CodeEntry} (h : RecordsCodes cs code)
    (b : Byte) (hv : (code.at b).valid = true) : (code.at b).word.length = (code.at b).len := by
  rw [h.word_eq b hv, h.len b hv]

/-- The concatenation has the sum of the code lengths as its length. -/
theorem RecordsCodes.length_words {cs : List (Byte × Bits)} {code : Table CodeEntry} (h : RecordsCodes cs code)
    (bs : List Byte) (coded : ∀ b ∈ bs, (code.at b).valid = true) :
    (bs.flatMap fun b => (code.at b).word).length = (bs.map fun b => (code.at b).len).sum := by
  rw [List.length_flatMap]
  exact congrArg List.sum (List.map_congr_left fun b hb => h.length_word b (coded b hb))

/-- Every byte has a code of the tree of the list's own counters. -/
theorem RecordsCodes.valid_of_mem {cs : List (Byte × Bits)} {code : Table CodeEntry} (h : RecordsCodes cs code)
    (bs : List Byte) (small : bs.length < 2 ^ 32) (hcs : treeCodes (buildTree (countBytes bs)) = some cs)
    (b : Byte) (hb : b ∈ bs) : (code.at b).valid = true :=
  (h.valid_iff b).2 <| (exists_mem_treeCodes_buildTree_iff _ cs hcs b).2 <|
    (countBytes_at_ne_zero_iff bs b small).2 hb

/-- The counters weighted with the code lengths add up to the code lengths of the bytes (R143 (a)). -/
theorem sum_countBytes_mul (g : Byte → Nat) (bs : List Byte) (small : bs.length < 2 ^ 32) :
    ((List.range 256).map fun k =>
      ((countBytes bs).at (BitVec.ofNat 8 k)).toNat * g (BitVec.ofNat 8 k)).sum = (bs.map g).sum := by
  rw [sum_map_eq_sum_count_mul, allBytes, List.map_map]
  simp only [Function.comp_def, countBytes_at_toNat bs _ small]

/-- Values between m and n have a sum between m and n times their number. -/
theorem sum_map_bounds {α : Type} (m n : Nat) (g : α → Nat) (l : List α) (h : ∀ a ∈ l, m ≤ g a ∧ g a ≤ n) :
    m * l.length ≤ (l.map g).sum ∧ (l.map g).sum ≤ n * l.length := by
  have lower := List.card_nsmul_le_sum (l.map g) m (List.forall_mem_map.2 fun a ha => (h a ha).1)
  have upper := List.sum_le_card_nsmul (l.map g) n (List.forall_mem_map.2 fun a ha => (h a ha).2)
  rw [List.length_map, smul_eq_mul, Nat.mul_comm] at lower upper
  exact ⟨lower, upper⟩

/-- Under a single leaf each byte of the counted list becomes one bit 0 (R143 (d)). -/
theorem RecordsCodes.words_eq_replicate {cs : List (Byte × Bits)} {code : Table CodeEntry} (h : RecordsCodes cs code)
    (f : Table Word) (single : leafCount f = 1) (hcs : treeCodes (buildTree f) = some cs) (bs : List Byte)
    (hbs : ∀ b ∈ bs, f.at b ≠ 0) :
    (bs.flatMap fun b => (code.at b).word) = List.replicate bs.length false := by
  obtain ⟨sym, -, hnode⟩ := buildTree_node_of_leafCount_eq_one f single
  have hr := buildTree_root f single.ge
  rw [single] at hr
  exact (words_of_single_leaf f 0 _ sym hr (by rw [hnode]; rfl) cs hcs code h bs hbs).2

/-- Settles O33: every byte of the operand has a code of 1 to 255 bits, so the lengths of the codes add up to the
weighted sum and lie within IN_LEN and 255 x IN_LEN. -/
theorem encodedLengthIsTheWeightedSum : Obligations.EncodedLengthIsTheWeightedSum := by
  intro s d fits _ counted built hd
  have lens := codeLengthsAreOneTo255 s d built hd
  obtain ⟨cs, hcs, rfl⟩ := (execDerive_next s d).1 hd
  rw [built, counted] at hcs
  have holds := foldl_recordCode_recordsCodes cs s.priv.code
  generalize cs.foldl recordCode (clearCodes s.priv.code) = code at *
  have small := s.length_input_lt
  have coded := holds.valid_of_mem s.input small hcs
  have size := holds.length_words s.input coded
  obtain ⟨atLeast, atMost⟩ := sum_map_bounds 1 255 (fun b => (code.at b).len) s.input fun b hb =>
    (lens b (coded b hb)).imp_right And.left
  rw [s.length_input, ← size] at atLeast atMost
  refine ⟨_, (encodeConcatenatesTheCodes { s with priv := { s.priv with code := code } } fits).1 coded, rfl,
    ?weightedSum, by rwa [one_mul] at atLeast, atMost, ?below, rfl, fun single => ?zeros, rfl, rfl, rfl, rfl⟩
  case weightedSum =>
    rw [counted]
    exact size.trans (sum_countBytes_mul (fun b => (code.at b).len) s.input small).symm
  case below =>
    have := s.inLen.isLt
    exact atMost.trans_lt (by omega)
  case zeros =>
    rw [counted] at single
    rw [← s.length_input]
    exact holds.words_eq_replicate _ single hcs s.input fun b => (countBytes_at_ne_zero_iff s.input b small).2

end Sys2Proof.Machine
end

section
/-! PROOFS. The stages PACK and UNPACK: a payload is read through its expanded bits `pay.flatMap byteBits`, which PACK
makes the sequence followed by the filler, UNPACK cuts to the sequence, and the streaming forms run through bit by
bit. -/

namespace Sys2Proof.Machine

/-! ### The bits of a payload -/

/-- Bit m of a payload, most significant bit of each byte first (R63). -/
def payloadBit (pay : List Byte) (m : Nat) : Bool := (pay.getD (m / 8) 0).getLsbD (7 - m % 8)

theorem flatMap_byteBits_getElem?_of_lt (pay : List Byte) (m : Nat) (h : m < 8 * pay.length) :
    (pay.flatMap byteBits)[m]? = some (payloadBit pay m) := by
  have hj : m / 8 < pay.length := by omega
  rw [flatMap_byteBits_getElem?, List.getElem?_eq_getElem hj, payloadBit, List.getD_eq_getElem _ _ hj]
  rfl

/-- The bits UNPACK delivers, one by one (R155). -/
theorem unpackBits_eq_map_payloadBit (pay : List Byte) (n : Nat) (h : n ≤ 8 * pay.length) :
    unpackBits pay n = (List.range n).map (payloadBit pay) := by
  refine List.ext_getElem? fun m => ?_
  rcases Nat.lt_or_ge m n with hm | hm
  · rw [unpackBits, List.getElem?_take_of_lt hm, flatMap_byteBits_getElem?_of_lt pay m (by omega)]
    simp [hm]
  · rw [List.getElem?_eq_none (by simp [unpackBits]; omega), List.getElem?_eq_none (by simpa using hm)]

/-- Bit m of a packed payload is bit m of the sequence, and a filler bit is 0 (R150, R152). -/
theorem payloadBit_packBytes (q : Bits) (n m : Nat) (h : m < 8 * packLen n) :
    payloadBit (packBytes q n) m = (decide (m < n) && q.getD m false) := by
  rw [payloadBit, List.getD_eq_getElem?_getD, packBytes_getElem? q n (m / 8) (by omega), Option.getD_some,
    packByte_getLsbD q n (m / 8) (m % 8) (by omega), Nat.div_add_mod]

/-- PACK appends the filler and nothing else (R150, R152). -/
theorem flatMap_byteBits_packBytes (q : Bits) :
    (packBytes q q.length).flatMap byteBits = q ++ List.replicate (packPad q.length).toNat false := by
  have hlen := packLen_packPad q.length
  refine List.ext_getElem? fun m => ?_
  rcases Nat.lt_or_ge m (8 * packLen q.length) with hm | hm
  · rw [flatMap_byteBits_getElem?_of_lt _ m (by simpa using hm), payloadBit_packBytes q _ m hm]
    rcases Nat.lt_or_ge m q.length with hq | hq
    · rw [List.getElem?_append_left hq]
      simp [hq]
    · rw [List.getElem?_append_right hq, List.getElem?_replicate_of_lt (by omega)]
      simp [Nat.not_lt.2 hq]
  · rw [List.getElem?_eq_none (by simpa [Nat.mul_comm] using hm), List.getElem?_eq_none (by simp; omega)]

theorem byteBits_injective : Function.Injective byteBits := fun b c h =>
  BitVec.eq_of_getLsbD_eq fun i hi => by
    have bit := congrArg (·[7 - i]?) h
    simpa [byteBits_getElem? _ (7 - i) (by omega), show 7 - (7 - i) = i by omega] using bit

/-- Every byte expands to eight bits, so the expansion splits into its bytes again. -/
theorem flatMap_byteBits_injective : Function.Injective fun pay : List Byte => pay.flatMap byteBits := by
  intro pay pay' h
  have hlen : pay.length = pay'.length := by
    have := congrArg List.length h
    simp only [length_flatMap_byteBits] at this
    omega
  refine byteBits_injective.list_map (List.eq_iff_flatten_eq.2 ⟨by simpa only [List.flatMap_def] using h, ?_⟩)
  simp [Function.comp_def, hlen]

/-- A bit count and a padding below 8 that fill the bytes are the rule's PLEN and PAD (R151). -/
theorem packLen_packPad_unique (n k : Nat) (pad : BitVec 3) (h : 8 * k = n + pad.toNat) :
    packLen n = k ∧ packPad n = pad := by
  have hp := pad.isLt
  refine ⟨by rw [packLen]; omega, BitVec.eq_of_toNat_eq ?_⟩
  rw [packPad_toNat]; omega

/-- Bytes that expand to the sequence and a zero filler shorter than a byte are what PACK writes. -/
theorem eq_pack_of_flatMap_byteBits (pay : List Byte) (pad : BitVec 3) (q : Bits)
    (h : pay.flatMap byteBits = q ++ List.replicate pad.toNat false) :
    pay = packBytes q q.length ∧ pay.length = packLen q.length ∧ pad = packPad q.length := by
  have hlen := congrArg List.length h
  rw [length_flatMap_byteBits, List.length_append, List.length_replicate] at hlen
  obtain ⟨hplen, hpad⟩ := packLen_packPad_unique _ _ _ hlen
  refine ⟨flatMap_byteBits_injective ?_, hplen.symm, hpad.symm⟩
  change pay.flatMap byteBits = (packBytes q q.length).flatMap byteBits
  rw [flatMap_byteBits_packBytes, h, hpad]

/-! ### The stages -/

theorem exec_pack (s : State) (hn : s.priv.nbits = s.priv.bitseq.length) :
    exec .pack s = .next { s with priv := { s.priv with
      pay := packBytes s.priv.bitseq s.priv.bitseq.length
      plen := packLen s.priv.bitseq.length
      pad := packPad s.priv.bitseq.length } } :=
  (execPack_next s _).2 (by rw [hn])

/-- UNPACK of a payload that holds its padding (R155). -/
theorem exec_unpack (s : State) (hplen : s.priv.plen = s.priv.pay.length)
    (hpad : s.priv.pad.toNat ≤ 8 * s.priv.plen) :
    exec .unpack s = .next { s with priv := { s.priv with
      nbits := 8 * s.priv.plen - s.priv.pad.toNat
      bitseq := unpackBits s.priv.pay (8 * s.priv.plen - s.priv.pad.toNat) } } :=
  (execUnpack_next s _).2 (.inr ⟨hpad, by rw [List.take_of_length_le hplen.ge]⟩)

/-- Settles O34: the bits are those of `packByte`, and PLEN and PAD are arithmetic on NBITS. -/
theorem packPutsEachBitInItsPlace : Obligations.PackPutsEachBitInItsPlace := by
  intro s hn
  have total := packLen_packPad s.priv.nbits
  have hpad := packPad_toNat s.priv.nbits
  refine ⟨_, _, _, (execPack_next s _).2 rfl, rfl, hpad, by omega, ?_, length_packBytes _ _,
    payloadBit_packBytes _ _⟩
  rw [← BitVec.toNat_inj, hpad]
  change _ = 0 ↔ _
  omega

/-- Settles O35: without the fault each bit is the payload's; a padding below 8 is too large for an empty payload
only. -/
theorem unpackExpandsThePayload : Obligations.UnpackExpandsThePayload := by
  intro s hplen
  refine ⟨fun hpad => ⟨_, exec_unpack s hplen hpad, ?bits⟩, fun hpad stage => ⟨?empty, ?raises⟩⟩
  case bits =>
    rw [unpackBits_eq_map_payloadBit _ _ (by omega), List.length_map, List.length_range]
    exact ⟨rfl, fun m hm => by simp [hm, payloadBit]⟩
  case empty =>
    have := s.priv.pad.isLt
    omega
  case raises =>
    refine ⟨s.raise .truncatedStream, (execUnpack_next s _).2 (.inl ⟨hpad, rfl⟩), ?_, rfl, rfl, rfl, rfl⟩
    rw [← stage]
    rfl

/-- Settles O36: each bit delivered is one of the payload's bits below 8 x PLEN - PAD. -/
theorem fillerBitsAreIgnored : Obligations.FillerBitsAreIgnored := by
  intro s t pay hlen hplen agree hpad ht
  obtain rfl := Host.Outcome.next.inj ((exec_unpack s hplen hpad).symm.trans ht)
  refine ⟨_, exec_unpack { s with priv := { s.priv with pay := pay } } (hplen.trans hlen.symm) hpad, ?_, rfl⟩
  change unpackBits pay (8 * s.priv.plen - s.priv.pad.toNat) = unpackBits s.priv.pay _
  rw [unpackBits_eq_map_payloadBit _ _ (by omega), unpackBits_eq_map_payloadBit _ _ (by omega)]
  exact List.map_congr_left fun m hm => agree m (List.mem_range.1 hm)

theorem unpackBits_packBytes (q : Bits) : unpackBits (packBytes q q.length) q.length = q := by
  rw [unpackBits, flatMap_byteBits_packBytes, List.take_left' rfl]

/-- Settles O37: PACK appends a filler that UNPACK cuts off again; UNPACK leaves a sequence whose packed bits are the
payload's bits below NBITS and 0 above. -/
theorem packAndUnpackAreInverse : Obligations.PackAndUnpackAreInverse := by
  refine ⟨fun s hn => ?unpackOfPack, fun s hplen hpad => ?packOfUnpack⟩
  case unpackOfPack =>
    have total := packLen_packPad s.priv.bitseq.length
    have rest : 8 * packLen s.priv.bitseq.length - (packPad s.priv.bitseq.length).toNat = s.priv.bitseq.length := by
      omega
    refine ⟨_, _, exec_pack s hn, exec_unpack _ (length_packBytes _ _).symm (by simp only; omega), rfl, ?_, ?_⟩
    · simp only [rest, unpackBits_packBytes]
    · simp only [rest, hn]
  case packOfUnpack =>
    have hle : 8 * s.priv.plen - s.priv.pad.toNat ≤ 8 * s.priv.pay.length := by omega
    obtain ⟨hk, hp⟩ := packLen_packPad_unique (8 * s.priv.plen - s.priv.pad.toNat) s.priv.plen s.priv.pad (by omega)
    refine ⟨_, _, exec_unpack s hplen hpad, (execPack_next _ _).2 rfl, hk, hp, fun m hm => ?_⟩
    refine (payloadBit_packBytes _ _ m (by rwa [hk])).trans ?_
    rw [unpackBits_eq_map_payloadBit _ _ hle]
    rcases Nat.lt_or_ge m (8 * s.priv.plen - s.priv.pad.toNat) with h | h
    · simp [h, payloadBit]
    · simp [Nat.not_lt.2 h]

/-! ### The streaming forms -/

/-- A shift up drops the first bits and appends zeros. -/
theorem byteBits_shiftLeft (b : Byte) (k : Nat) (h : k ≤ 8) :
    byteBits (b <<< k) = (byteBits b).drop k ++ List.replicate k false := by
  refine List.ext_getElem (by simp; omega) fun t ht _ => ?_
  rw [length_byteBits] at ht
  rcases Nat.lt_or_ge t (8 - k) with kept | filled
  · rw [List.getElem_append_left (by simpa using kept)]
    simp [byteBits, show ¬ 7 - t < k by omega, show 7 - t - k = 7 - (k + t) by omega, show 7 - t < 8 by omega]
  · rw [List.getElem_append_right (by simpa using filled)]
    simp [byteBits, show 7 - t < k by omega]

theorem byteBits_shiftIn (acc : Byte) (v : Bool) : byteBits (shiftIn acc v) = (byteBits acc).drop 1 ++ [v] := by
  cases v <;> simp [shiftIn, byteBits, List.range_succ]

/-- The bits a BitPacker has taken: those of the bytes written, and the low NACC bits of ACC (R153). -/
def Packer.bits (p : Packer) : Bits := p.pay.flatMap byteBits ++ (byteBits p.acc).drop (8 - p.nacc)

/-- One push takes one bit, and keeps the group short of a byte. -/
theorem Packer.push_bits (p : Packer) (v : Bool) (h : p.nacc < 8) :
    (p.push v).bits = p.bits ++ [v] ∧ (p.push v).nacc < 8 := by
  have shifted : (byteBits (shiftIn p.acc v)).drop (8 - (p.nacc + 1)) = (byteBits p.acc).drop (8 - p.nacc) ++ [v] := by
    rw [byteBits_shiftIn, List.drop_append_of_le_length (by simp), List.drop_drop,
      show 1 + (8 - (p.nacc + 1)) = 8 - p.nacc by omega]
  unfold push
  split
  · next full =>
    rw [full, Nat.sub_self, List.drop_zero] at shifted
    simp [bits, shifted]
  · exact ⟨by rw [bits, bits, shifted, List.append_assoc], by simp only; omega⟩

theorem Packer.foldl_push_bits (q : Bits) (p : Packer) (h : p.nacc < 8) :
    (q.foldl push p).bits = p.bits ++ q ∧ (q.foldl push p).nacc < 8 := by
  induction q generalizing p with
  | nil => simpa using h
  | cons v q ih =>
    obtain ⟨hbits, hn⟩ := p.push_bits v h
    simpa [hbits] using ih (p.push v) hn

/-- The end of the sequence appends the filler and nothing else. -/
theorem Packer.finish_bits (p : Packer) (h : p.nacc < 8) :
    p.finish.1.flatMap byteBits = p.bits ++ List.replicate p.finish.2.toNat false := by
  unfold finish
  split
  · next empty => simp [bits, empty]
  · have hpad : (BitVec.ofNat 3 (8 - p.nacc)).toNat = 8 - p.nacc := by
      rw [BitVec.toNat_ofNat, Nat.mod_eq_of_lt (by omega)]
    simp [bits, hpad, byteBits_shiftLeft]

/-- The BitPacker writes what PACK writes. -/
theorem streamPack_eq (q : Bits) :
    (streamPack q).1 = packBytes q q.length ∧ (streamPack q).1.length = packLen q.length ∧
      (streamPack q).2 = packPad q.length := by
  obtain ⟨hbits, hn⟩ := Packer.foldl_push_bits q Packer.start (by decide)
  have finished := Packer.finish_bits _ hn
  rw [hbits] at finished
  exact eq_pack_of_flatMap_byteBits _ _ q finished

/-- The bits left in a shift register are the one shifted out and those left after the shift. -/
theorem take_succ_byteBits (b : Byte) (n : Nat) (h : n < 8) :
    (byteBits b).take (n + 1) = b.msb :: (byteBits (b <<< 1)).take n := by
  have first : byteBits b = b.msb :: (byteBits b).drop 1 := by
    simp [byteBits, List.range_succ, BitVec.msb_eq_getLsbD_last]
  rw [byteBits_shiftLeft b 1 (by omega), List.take_append_of_le_length (by simp; omega), first]
  rfl

/-- The BitReader delivers the NREM bits left in SHR, then those of the bytes not yet taken (R158). -/
theorem streamRead_eq (rem : Nat) (shr : Byte) (n : Nat) (pay : List Byte) (h : n ≤ 8) :
    streamRead rem shr n pay = ((byteBits shr).take n ++ pay.flatMap byteBits).take rem := by
  induction rem generalizing shr n pay with
  | zero => simp [streamRead]
  | succ rem ih =>
    cases n with
    | zero =>
      cases pay with
      | nil => simp [streamRead]
      | cons b pay =>
        have taken : byteBits b = b.msb :: (byteBits (b <<< 1)).take 7 := by
          simpa [List.take_of_length_le] using take_succ_byteBits b 7 (by omega)
        simp [streamRead, ih _ 7 _ (by omega), taken]
    | succ n => simp [streamRead, ih _ n _ (by omega), take_succ_byteBits shr n (by omega)]

theorem streamUnpack_eq (pay : List Byte) (pad : BitVec 3) :
    streamUnpack pay pad = unpackBits pay (8 * pay.length - pad.toNat) := by
  rw [streamUnpack, streamRead_eq _ _ _ _ (by omega), List.take_zero, List.nil_append, unpackBits]

/-- Settles O38: both shifters run through the bits of the payload in order. -/
theorem streamingFormsAgree : Obligations.StreamingFormsAgree := by
  refine ⟨fun s hn => ?packer, fun s hplen hpad => ?reader⟩
  case packer =>
    obtain ⟨hpay, hlen, hpad⟩ := streamPack_eq s.priv.bitseq
    rw [exec_pack s hn, hlen, hpay, hpad]
  case reader => rw [exec_unpack s hplen hpad, streamUnpack_eq, ← hplen]

end Sys2Proof.Machine
end

section
/-! PROOFS. The stages SERIALIZE and PARSE: SERIALIZE stores the container byte by byte, and PARSE reads the fields of
the container that the operand is (R81 to R83), so each field comes back. -/

namespace Sys2Proof.Machine

/-! ### The bytes of a container -/

/-- Byte j of a big-endian counter (R62). -/
theorem bytesBe32_getD_toNat (v : Word) (j : Nat) (h : j < 4) :
    ((bytesBe32 v).getD j 0).toNat = v.toNat / 2 ^ (24 - 8 * j) % 256 := by
  have number := List.getD_map (l := bytesBe32 v) (d := 0) (n := j) BitVec.toNat
  rw [← number, bytesBe32_toNat]
  interval_cases j <;> simp

/-- The payload is what follows the header and the padding count (R80). -/
@[simp] theorem drop_containerBytes (f : Table Word) (pad : BitVec 3) (pay : List Byte) :
    (containerBytes f pad pay).drop 1025 = pay := by
  rw [containerBytes, List.drop_append, List.drop_eq_nil_of_le (by simp), length_headerBytes]
  rfl

theorem Container.byte_payload (f : Table Word) (pad : BitVec 3) (pay : List Byte) (j : Nat) :
    Container.byte (containerBytes f pad pay) (1025 + j) = pay.getD j 0 := by
  simp only [Container.byte, List.getD_eq_getElem?_getD, ← List.getElem?_drop, drop_containerBytes]

/-! ### SERIALIZE -/

/-- The container of the items the stages before SERIALIZE left (R80, R165). -/
def State.container (s : State) : List Byte := containerBytes s.priv.freq s.priv.pad s.priv.pay

theorem State.length_container (s : State) (hplen : s.priv.plen = s.priv.pay.length) :
    s.container.length = 1025 + s.priv.plen := by
  rw [container, length_containerBytes, hplen]

/-- A block stored from offset 0 of OBUF is what OBUF holds there. -/
theorem State.obufByte_write_below (s : State) (p : Private) (bs : List Byte) (a : Nat) (h : a < bs.length) :
    State.obufByte { s with obuf := Memory.write s.obuf 0 bs, priv := p } a = bs.getD a 0 := by
  have hread := Memory.read_write_inside s.obuf 0 a bs h
  rw [Nat.zero_add] at hread
  simp [State.obufByte, hread, h]

/-- With PLEN the number of bytes of PAY, SERIALIZE stores the container when it fits OBUF (R165, R166). -/
theorem exec_serialize_next_iff (s t : State) (hplen : s.priv.plen = s.priv.pay.length) :
    exec .serialize s = .next t ↔
      1025 + s.priv.plen ≤ s.outCap ∧
        t = { s with
          obuf := Memory.write s.obuf 0 s.container
          priv := { s.priv with clen := 1025 + s.priv.plen } } := by
  have stores := execSerialize_next s t
  rwa [← hplen, Nat.min_self, List.take_of_length_le hplen.ge] at stores

/-- Settles O39: OBUF holds the container's bytes below CLEN and what it held before above. -/
theorem serializeWritesTheContainer : Obligations.SerializeWritesTheContainer := by
  intro s hplen fits
  have size := s.length_container hplen
  have stored (a : Nat) (ha : a < 1025 + s.priv.plen) :
      State.obufByte { s with obuf := Memory.write s.obuf 0 s.container } a = Container.byte s.container a :=
    s.obufByte_write_below s.priv _ a (size ▸ ha)
  have counter (b : Byte) (j : Nat) (hj : j < 4) :
      (State.obufByte { s with obuf := Memory.write s.obuf 0 s.container } (4 * b.toNat + j)).toNat =
        (s.priv.freq.at b).toNat / 2 ^ (24 - 8 * j) % 256 := by
    have := b.isLt
    rw [stored _ (by omega), State.container, Container.byte_header _ _ _ b j hj, bytesBe32_getD_toNat _ j hj]
  refine ⟨_, (exec_serialize_next_iff s _ hplen).2 ⟨fits, rfl⟩, fun b => ?counters, ?padding, fun j hj => ?payload,
    fun a ha => s.obufByte_write_above s.priv _ a (size.trans_le ha)⟩
  case counters =>
    have := (s.priv.freq.at b).isLt
    refine ⟨(counter b 0 (by omega)).trans (Nat.mod_eq_of_lt (by omega)), counter b 1 (by omega),
      counter b 2 (by omega), ?_⟩
    simpa using counter b 3 (by omega)
  case padding =>
    rw [stored _ (by omega)]
    exact Container.pad_containerBytes _ _ _
  case payload => rw [stored _ (by omega), State.container, Container.byte_payload]

/-! ### The operand of PARSE as a container -/

/-- The operand is the block IBUF holds below IN_LEN. -/
theorem State.input_eq (s : State) (bs : List Byte) (size : s.inLen.toNat = bs.length)
    (held : ∀ a, a < bs.length → s.ibufByte a = bs.getD a 0) : s.input = bs := by
  refine List.ext_getElem (by rw [s.length_input, size]) fun a _ ha => ?_
  have byte := held a ha
  rw [List.getD_eq_getElem bs 0 ha] at byte
  simpa [State.input, State.ibufBytes] using byte

theorem State.ibufByte_eq_byte_input (s : State) (a : Nat) (h : a < s.inLen.toNat) :
    s.ibufByte a = Container.byte s.input a := by
  have hread := s.ibufBytes_getElem? 0 _ a h
  rw [Nat.zero_add] at hread
  rw [Container.byte, State.input, List.getD_eq_getElem?_getD, hread, Option.getD_some]

/-- The counters PARSE reads are those of the container (R81, R171). -/
theorem State.counters_eq_freq_input (s : State) (h : 1025 ≤ s.inLen.toNat) :
    s.counters = Container.freq s.input := by
  refine Table.ext_at _ _ fun b => ?_
  have := b.isLt
  have byte := s.ibufByte_eq_byte_input
  rw [State.counters, Container.freq, Table.at_tabulate, Table.at_tabulate, State.counterAt,
    byte (4 * b.toNat) (by omega), byte (4 * b.toNat + 1) (by omega), byte (4 * b.toNat + 2) (by omega),
    byte (4 * b.toNat + 3) (by omega)]

theorem State.toNat_ibufByte_padOffset (s : State) (h : 1025 ≤ s.inLen.toNat) :
    (s.ibufByte 1024).toNat = Container.pad s.input := by
  rw [s.ibufByte_eq_byte_input 1024 (by omega), Container.pad]

/-- The payload PARSE reads is the rest of the container after the padding count (R83, R172). -/
theorem State.ibufBytes_payload (s : State) :
    s.ibufBytes 1025 (s.inLen.toNat - 1025) = s.input.drop 1025 := by
  refine List.ext_getElem (by simp) fun j _ _ => ?_
  simp [State.input, State.ibufBytes]

/-- A padding count in range is a value of the 3-bit PAD (R36). -/
theorem toNat_setWidth_of_le_seven (b : Byte) (h : b.toNat ≤ 7) : (b.setWidth 3).toNat = b.toNat := by
  rw [BitVec.toNat_setWidth, Nat.mod_eq_of_lt (by omega)]

/-! ### PARSE -/

/-- PARSE of a parseable container leaves its fields (R81 to R84, R170). -/
theorem exec_parse (s : State) (fits : s.inLen.toNat ≤ s.inCap) (parseable : Container.Parseable s.input) :
    exec .parse s = .next { s with priv := { s.priv with
      freq := Container.freq s.input
      pad := BitVec.ofNat 3 (Container.pad s.input)
      plen := s.inLen.toNat - 1025
      pay := s.input.drop 1025 } } := by
  obtain ⟨long, small⟩ := parseable
  rw [s.length_input] at long
  have hpad := s.toNat_ibufByte_padOffset long
  refine (execParse_next s _).2 (.inr (.inr ⟨long, fits, hpad.trans_le small, ?_⟩))
  rw [s.counters_eq_freq_input long, s.ibufBytes_payload, ← hpad, BitVec.ofNat_toNat]

/-- PARSE raises MalformedContainer for each of its two causes (R173). -/
theorem exec_parse_of_malformed (s : State)
    (h : s.inLen.toNat < 1025 ∨ (s.inLen.toNat ≤ s.inCap ∧ 7 < (s.ibufByte 1024).toNat)) :
    exec .parse s = .next (s.raise .malformedContainer) := by
  refine (execParse_next s _).2 ?_
  rcases Nat.lt_or_ge s.inLen.toNat 1025 with short | long
  · exact .inl ⟨short, rfl⟩
  · obtain ⟨fits, large⟩ := h.resolve_left (by omega)
    exact .inr (.inl ⟨long, fits, large, rfl⟩)

/-- Settles O40: PARSE takes the branch of no fault, and each counter is the big-endian number of its four bytes. -/
theorem parseReadsTheContainer : Obligations.ParseReadsTheContainer := by
  intro s long fits small
  refine ⟨_, _, _, (execParse_next s _).2 (.inr (.inr ⟨long, fits, small, rfl⟩)), fun b => ?counter,
    toNat_setWidth_of_le_seven _ small, s.length_ibufBytes _ _, fun j hj => s.ibufBytes_getElem? _ _ j ?inside⟩
  case counter => rw [State.counters, Table.at_tabulate, State.counterAt, be32_toNat]
  case inside => rwa [s.length_ibufBytes] at hj

/-- Settles O41: both causes end in the same report. -/
theorem parseRaisesMalformedContainer : Obligations.ParseRaisesMalformedContainer := by
  intro s stage malformed
  refine ⟨_, exec_parse_of_malformed s malformed, ?_, rfl, rfl, rfl, rfl⟩
  rw [← stage]
  rfl

/-- Settles O42: the operand of PARSE is the container stored, whose fields read back. -/
theorem parseInvertsSerialize : Obligations.ParseInvertsSerialize := by
  intro s t u hplen ht len fits same
  obtain ⟨-, rfl⟩ := (exec_serialize_next_iff s t hplen).1 ht
  have size : s.container.length = u.inLen.toNat := (s.length_container hplen).trans len.symm
  have operand : u.input = s.container := by
    refine u.input_eq _ size.symm fun a ha => (same a (by rwa [← len, ← size])).trans ?_
    exact s.obufByte_write_below { s.priv with clen := 1025 + s.priv.plen } s.container a ha
  rw [State.container] at operand
  have hpad := s.priv.pad.isLt
  have parseable : Container.Parseable u.input := by
    rw [operand]
    exact ⟨by rw [length_containerBytes]; omega, by rw [Container.pad_containerBytes]; omega⟩
  refine ⟨_, exec_parse u fits parseable, rfl, ?counters, ?padding, ?payload, ?size⟩
  case counters => rw [operand, Container.freq_containerBytes]
  case padding => rw [operand, Container.pad_containerBytes, BitVec.ofNat_toNat, BitVec.setWidth_eq]
  case payload => rw [operand, drop_containerBytes]
  case size => rw [len, Nat.add_sub_cancel_left]

end Sys2Proof.Machine
end

section
/-! PROOFS. The container of an input: its bits are the codes of the input's own tree, so its fields give the input back
(R84, R168). -/

namespace Sys2Proof.Machine

/-! ### The bits of an input -/

/-- The bits are the codes of the bytes in order, from a table DERIVE makes of the tree of the bytes' own counters. -/
def EncodesInput (bs : List Byte) (q : Bits) : Prop :=
  ∃ cs code, treeCodes (buildTree (countBytes bs)) = some cs ∧ RecordsCodes cs code ∧
    q = bs.flatMap fun b => (code.at b).word

theorem one_le_leafCount_countBytes (bs : List Byte) (small : bs.length < 2 ^ 32) (ne : bs ≠ []) :
    1 ≤ leafCount (countBytes bs) := by
  obtain ⟨b, hb⟩ := List.exists_mem_of_ne_nil bs ne
  have covered := (mem_symbols _ b).2 ((countBytes_at_ne_zero_iff bs b small).2 hb)
  rw [← length_symbols]
  exact List.length_pos_of_mem covered

namespace EncodesInput

variable {bs : List Byte} {q : Bits} (h : EncodesInput bs q) (small : bs.length < 2 ^ 32)
include h small

/-- With two or more byte values the bits spell the input (R185). -/
theorem spells (two : 2 ≤ leafCount (countBytes bs)) : (buildTree (countBytes bs)).Spells q bs := by
  obtain ⟨cs, code, hcs, holds, rfl⟩ := h
  exact spells_of_recordsCodes _ two cs hcs code holds bs fun b => (countBytes_at_ne_zero_iff bs b small).2

/-- With one byte value the input is copies of it and the bits as many zeros (R131, R143 (d)). -/
theorem single_leaf (one : leafCount (countBytes bs) = 1) :
    ∃ b w, (buildTree (countBytes bs)).node = [.leaf b w] ∧ q = List.replicate bs.length false ∧
      bs = List.replicate bs.length b := by
  obtain ⟨cs, code, hcs, holds, rfl⟩ := h
  obtain ⟨b, -, hnode⟩ := buildTree_node_of_leafCount_eq_one _ one
  have hr := buildTree_root _ one.ge
  rw [one] at hr
  obtain ⟨hall, hbits⟩ := words_of_single_leaf _ 0 _ b hr (by rw [hnode]; rfl) cs hcs code holds bs
    fun b => (countBytes_at_ne_zero_iff bs b small).2
  exact ⟨b, _, hnode, hbits, hall⟩

/-- A code has at most 255 bits (R134, R143 (c)). -/
theorem length_le : q.length ≤ 255 * bs.length := by
  obtain ⟨cs, code, hcs, holds, rfl⟩ := h
  have coded := holds.valid_of_mem bs small hcs
  rw [holds.length_words bs coded]
  refine (sum_map_bounds 0 255 _ bs fun b hb => ⟨Nat.zero_le _, ?_⟩).2
  rw [holds.len b (coded b hb)]
  exact length_le_of_mem_treeCodes _ cs b _ hcs (holds.mem b (coded b hb))

end EncodesInput

/-! ### The container of an input -/

/-- The container COMPRESS makes of an input whose bits are q (R168). -/
def compressedContainer (bs : List Byte) (q : Bits) : List Byte :=
  containerBytes (countBytes bs) (packPad q.length) (packBytes q q.length)

@[simp] theorem freq_compressedContainer (bs : List Byte) (q : Bits) :
    Container.freq (compressedContainer bs q) = countBytes bs :=
  Container.freq_containerBytes _ _ _

@[simp] theorem length_compressedContainer (bs : List Byte) (q : Bits) :
    (compressedContainer bs q).length = 1025 + packLen q.length := by
  rw [compressedContainer, length_containerBytes, length_packBytes]

/-- The padding count is in range (R151, R168 (b)). -/
theorem pad_compressedContainer_le (bs : List Byte) (q : Bits) : Container.pad (compressedContainer bs q) ≤ 7 := by
  rw [compressedContainer, Container.pad_containerBytes, packPad_toNat]
  omega

/-- The padding is within the payload (R156). -/
theorem pad_compressedContainer_le_payload (bs : List Byte) (q : Bits) :
    Container.pad (compressedContainer bs q) ≤ 8 * ((compressedContainer bs q).length - 1025) := by
  have total := packLen_packPad q.length
  rw [length_compressedContainer, compressedContainer, Container.pad_containerBytes]
  omega

/-- The logical bit sequence is the sequence packed (R83, R159). -/
@[simp] theorem bits_compressedContainer (bs : List Byte) (q : Bits) :
    Container.bits (compressedContainer bs q) = q := by
  have total := packLen_packPad q.length
  rw [compressedContainer, Container.bits_containerBytes, length_packBytes,
    show 8 * packLen q.length - (packPad q.length).toNat = q.length by omega, unpackBits_packBytes]

/-- The container of a non-empty input decodes to the input (R84). -/
theorem EncodesInput.decodesTo {bs : List Byte} {q : Bits} (h : EncodesInput bs q) (small : bs.length < 2 ^ 32)
    (ne : bs ≠ []) : Container.DecodesTo (compressedContainer bs q) bs := by
  have pos := one_le_leafCount_countBytes bs small ne
  rw [Container.DecodesTo, freq_compressedContainer, bits_compressedContainer, if_neg (by omega)]
  refine ⟨pad_compressedContainer_le_payload bs q, ?_⟩
  split
  · next one => exact h.single_leaf small one
  · next many => exact h.spells small (by omega)

/-- Each byte value is decoded as often as its counter says (R84, R168 (c)). -/
theorem EncodesInput.faithful {bs : List Byte} {q : Bits} (h : EncodesInput bs q) (small : bs.length < 2 ^ 32)
    (ne : bs ≠ []) : Container.Faithful (compressedContainer bs q) := by
  refine ⟨⟨?long, pad_compressedContainer_le bs q⟩, bs, h.decodesTo small ne, fun b => ?counter⟩
  case long => rw [length_compressedContainer]; exact Nat.le_add_right _ _
  case counter => rw [freq_compressedContainer, countBytes_at_toNat bs b small]

end Sys2Proof.Machine
end

section
/-! PROOFS. The run of a COMPRESS of a non-empty input: each stage enters the next one, and SERIALIZE publishes the
container of the input (R196, R197). -/

namespace Sys2Proof.Machine

/-! ### A waiting host -/

/-- While a command runs, WAIT leaves the step to the engine and stays in the script (R92). -/
theorem step_of_waiting (s : State) (rest : List HostMove) (hh : s.host = .wait :: rest)
    (running : s.status.done = false) : step s = engineStep s := by
  rw [step_of_host_cons s _ rest hh]
  simp only [hostMove, running, ← hh]
  rfl

/-- WAIT ends when DONE = 1. -/
theorem step_of_waited (s : State) (rest : List HostMove) (hh : s.host = .wait :: rest)
    (ended : s.status.done = true) : step s = .next { s with host := rest } := by
  rw [step_of_host_cons s _ rest hh]
  exact if_pos ended

/-! ### A stage of COMPRESS -/

/-- A COMPRESS of a non-empty input is about to run the stage of code c. -/
structure State.Compressing (s : State) (c : BitVec 4) : Prop where
  inv      : s.Inv
  busy     : s.status.busy = true
  op       : s.priv.op = .compress
  stage    : s.status.stage = c
  nonempty : s.inLen ≠ 0

/-- A CMD write starts a COMPRESS at COUNT (R195). -/
theorem State.RegsOk.compressing {s : State} (h : s.RegsOk) (nonempty : s.inLen ≠ 0) :
    (s.startCommand .compress 1#4).Compressing 1#4 := by
  have started := h.startCommand .compress 1#4 (by decide)
  exact ⟨.of_busy started rfl rfl (fun _ => State.compressData_one _) nofun, rfl, rfl, rfl, nonempty⟩

/-- The faults of R216 at a stage of COMPRESS are EmptyInput at COUNT and UnknownByte at ENCODE. -/
theorem fault_of_compress (k : ErrorKind) (c : BitVec 4) (hc : c ∈ Command.compress.stages)
    (cause : (k.code, c) ∈ faultCauses) : c = 1 ∨ (c = 4 ∧ k = .unknownByte) := by
  revert c
  cases k <;> decide

/-- What follows a stage of COMPRESS before the last one is the next stage (R196). -/
theorem State.advance_of_compress (s : State) (i : Instr) (c : BitVec 4) (hi : encodeWord i = .stage c)
    (hc : c ∈ Command.compress.stages) (notLast : c ≠ 6) (op : s.priv.op = .compress) (nonempty : s.inLen ≠ 0) :
    s.advance i = s.enter (c + 1) := by
  cases i <;> simp only [encodeWord, CodeWord.stage.injEq, reduceCtorEq] at hi <;> subst hi
  case count => exact s.advance_count_of_ne nonempty
  case build => exact s.advance_build_of_compress op
  case derive => rfl
  case encode => rfl
  case pack => rfl
  case serialize => exact absurd rfl notLast
  all_goals exact absurd hc (by decide)

namespace State.Compressing

variable {s s' : State} {c : BitVec 4}

theorem done_eq_false (h : s.Compressing c) : s.status.done = false := (h.inv.regs.busy_status h.busy).1

theorem mem_stages (h : s.Compressing c) : c ∈ Command.compress.stages := by
  have hm := (h.inv.regs.busy_status h.busy).2.2
  rwa [h.op, h.stage] at hm

/-- A stage of COMPRESS raises nothing: COUNT has no fault, and ENCODE knows every byte of its input (R142). -/
theorem exec_running (h : s.Compressing c) (i : Instr) (hi : encodeWord i = .stage c) (hx : exec i s = .next s') :
    s'.status = s.status ∧ s'.priv.op = .compress := by
  have hst := h.stage
  rcases exec_stage_regs s s' i h.inv.regs (hst ▸ hi) hx with ⟨k, rfl, cause⟩ | ⟨-, status, op⟩
  · exfalso
    have decoded := decodeWord_encodeWord i
    rcases fault_of_compress k c h.mem_stages (hst ▸ cause) with rfl | ⟨rfl, rfl⟩
    · obtain rfl : Instr.count = i := Except.ok.inj (hi ▸ decoded)
      obtain ⟨-, counted⟩ := (execCount_next s _).1 hx
      have idle := congrArg (fun u : State => u.status.busy) counted
      simp [h.busy] at idle
    · obtain rfl : Instr.encode = i := Except.ok.inj (hi ▸ decoded)
      exact h.inv.execEncode_ne_raise h.busy hst hx
  · exact ⟨status, op.trans h.op⟩

/-- An engine step runs the stage and then what follows it. -/
theorem engineStep_runs_stage (h : s.Compressing c) :
    ∃ i s', encodeWord i = .stage c ∧ exec i s.stirHidden = .next s' ∧ s'.status = s.status ∧
      s'.priv.op = .compress ∧ engineStep s = .next (s'.advance i) := by
  obtain ⟨t, ht⟩ := h.inv.engineStep_completes
  obtain ⟨i, s', hd, hx, rfl⟩ := (engineStep_busy s t h.busy).1 ht
  have hi : encodeWord i = .stage c := h.stage ▸ encodeWord_of_decodeStage _ i hd
  have stirred : s.stirHidden.Compressing c := ⟨h.inv.withUnseen _ _ _ _, h.busy, h.op, h.stage, h.nonempty⟩
  obtain ⟨status, op⟩ := stirred.exec_running i hi hx
  rw [State.afterStage_running s' i (status ▸ h.busy)] at ht
  exact ⟨i, s', hi, hx, status, op, ht⟩

/-- A stage before the last one enters the next (R196). -/
theorem engineStep_next (h : s.Compressing c) (notLast : c ≠ 6) :
    ∃ t, engineStep s = .next t ∧ t.Compressing (c + 1) ∧ s.SameHostPart t := by
  obtain ⟨i, s', hi, hx, status, op, ht⟩ := h.engineStep_runs_stage
  have inLen : s'.inLen = s.inLen := (exec_sameHostPart i _ _ hx).inLen
  rw [s'.advance_of_compress i c hi h.mem_stages notLast op (inLen ▸ h.nonempty)] at ht
  have busy : s'.status.busy = true := status ▸ h.busy
  exact ⟨_, ht, ⟨engineStep_keeps_inv _ _ h.inv ht, busy, op, rfl, inLen ▸ h.nonempty⟩,
    engineStep_sameHostPart _ _ ht⟩

/-- While the host waits, n steps take the command n stages further, to SERIALIZE. -/
theorem run_to_serialize (n : Nat) (rest : List HostMove) (h : s.Compressing c) (hc : c.toNat + n = 6)
    (waiting : s.host = .wait :: rest) :
    ∃ t, t.Compressing 6 ∧ s.SameHostPart t ∧
      ∀ k, Host.Core.run Sys2Proof.core (n + k) s = Host.Core.run Sys2Proof.core k t := by
  induction n generalizing s c with
  | zero =>
    obtain rfl : c = 6 := BitVec.eq_of_toNat_eq hc
    exact ⟨s, h, ⟨rfl, rfl, rfl, rfl, rfl, rfl⟩, fun k => by rw [Nat.zero_add]⟩
  | succ n ih =>
    have notLast : c ≠ 6 := by
      rintro rfl
      simp at hc
    have next : (c + 1).toNat = c.toNat + 1 := by
      rw [BitVec.toNat_add, show (1 : BitVec 4).toNat = 1 from rfl, Nat.mod_eq_of_lt (by omega)]
    obtain ⟨s₁, hs₁, h₁, same₁⟩ := h.engineStep_next notLast
    obtain ⟨t, ht, same, run⟩ := ih h₁ (by omega) (same₁.host.trans waiting)
    refine ⟨t, ht, same₁.trans same, fun k => ?_⟩
    rw [Nat.succ_add, ← run k]
    exact run_succ_of_next Sys2Proof.core _ s s₁ ((step_of_waiting s rest waiting h.done_eq_false).trans hs₁)

/-- At SERIALIZE the items of the engine are the fields of the container of the operand (R43). -/
theorem container_eq (h : s.Compressing 6) :
    ∃ q, EncodesInput s.input q ∧ s.priv.plen = s.priv.pay.length ∧ s.container = compressedContainer s.input q := by
  obtain ⟨⟨-, counted⟩, built, ⟨cs, old, hcs, hcode⟩, ⟨hq, hn⟩, hpay, hplen, hpad⟩ :=
    (State.compressData_six s).1 (h.inv.compressData h.busy h.op _ h.stage)
  rw [built, counted] at hcs
  rw [hcode] at hq
  refine ⟨s.priv.bitseq, ⟨cs, _, hcs, foldl_recordCode_recordsCodes cs old, ((encodeBytes_eq_some_iff _ _ _).1 hq).2⟩,
    by rw [hplen, hpay, length_packBytes], ?_⟩
  rw [State.container, counted, hpad, hpay, hn, compressedContainer]

end State.Compressing

/-! ### The published result -/

/-- After a successful end the result is the block stored from offset 0 of OBUF, when CLEN or DLEN is its length. -/
theorem State.output_endCommand (s : State) (p : Private) (bs : List Byte) (fits : bs.length < 2 ^ 40) :
    (State.endCommand { s with obuf := Memory.write s.obuf 0 bs, priv := p } bs.length).output = bs := by
  have len : (BitVec.ofNat 40 bs.length).toNat = bs.length := by
    rw [BitVec.toNat_ofNat, Nat.mod_eq_of_lt fits]
  refine List.ext_getElem (by rw [State.length_output, State.endCommand_outLen, len]) fun a _ ha => ?_
  have byte := s.obufByte_write_below p bs a ha
  rw [List.getD_eq_getElem bs 0 ha] at byte
  simp only [State.output, List.getElem_map, List.getElem_range]
  exact byte

/-- SERIALIZE ends the command and publishes the container of the operand (R197). -/
theorem State.Compressing.engineStep_serialize {s : State} (h : s.Compressing 6) :
    ∃ t q, engineStep s = .next t ∧ t.status = Status.success ∧ EncodesInput s.input q ∧
      t.output = compressedContainer s.input q := by
  obtain ⟨i, s', hi, hx, status, -, ht⟩ := h.engineStep_runs_stage
  obtain rfl : Instr.serialize = i := Except.ok.inj (hi ▸ decodeWord_encodeWord i)
  obtain ⟨q, encodes, hplen, hc⟩ := h.container_eq
  obtain ⟨-, rfl⟩ := (exec_serialize_next_iff s.stirHidden s' hplen).1 hx
  have size := s.length_container hplen
  have fits : s.container.length < 2 ^ 40 := by
    have bound := encodes.length_le s.length_input_lt
    have small := s.length_input_lt
    rw [hc, length_compressedContainer, packLen]
    omega
  have published := s.stirHidden.output_endCommand { s.priv with clen := 1025 + s.priv.plen } s.container fits
  refine ⟨_, q, ht, ?ends, encodes, ?output⟩
  case ends =>
    have noError := (h.inv.regs.busy_status h.busy).2.1
    change Status.ended s.status = Status.success
    rw [Status.ended, noError]
    rfl
  case output =>
    rw [size] at published
    exact published.trans hc

/-! ### The script COMPRESS, WAIT -/

theorem hostMove_scriptCompress (s : State) (idle : s.status.busy = false) :
    hostMove scriptCompress s = .next (s.startCommand .compress 1#4) :=
  (execCompress_next s _).2 (.inr ⟨idle, rfl⟩)

/-- A COMPRESS of a non-empty input ends successfully with the container of the input (R196, R197). -/
theorem runScript_compress (s : State) (regs : s.RegsOk) (idle : s.status.busy = false) (nonempty : s.inLen ≠ 0) :
    ∃ t q, runScript 8 [scriptCompress, .wait] s = .next t ∧ t.host = [] ∧ t.inLen = s.inLen ∧ t.input = s.input ∧
      t.status = Status.success ∧ EncodesInput s.input q ∧ t.output = compressedContainer s.input q := by
  have started : State.Compressing { s.startCommand .compress 1#4 with host := [.wait] } 1#4 := by
    obtain ⟨inv, busy, op, stage, ne⟩ := regs.compressing nonempty
    exact ⟨inv.withUnseen _ _ _ _, busy, op, stage, ne⟩
  obtain ⟨u, hu, same, run⟩ := started.run_to_serialize 5 [] rfl rfl
  obtain ⟨v, q, hv, success, encodes, output⟩ := hu.engineStep_serialize
  have all := same.trans (engineStep_sameHostPart u v hv)
  have input : u.input = s.input := same.input
  rw [input] at encodes output
  refine ⟨{ v with host := [] }, q, ?runs, rfl, all.inLen, all.input, success, encodes, output⟩
  have ends : step u = .next v := (step_of_waiting u [] same.host hu.done_eq_false).trans hv
  have taken : step v = .next { v with host := [] } := step_of_waited v [] all.host (by rw [success]; rfl)
  have starts : runScript 8 [scriptCompress, .wait] s = runScript 7 [.wait] (s.startCommand .compress 1#4) :=
    runScript_cons 7 _ _ s _ (hostMove_scriptCompress { s with host := [.wait] } idle)
  refine starts.trans ((run 2).trans ?_)
  rw [run_succ_of_next Sys2Proof.core 1 u v ends]
  exact run_succ_of_next Sys2Proof.core 0 v _ taken

/-- Settles O59: the result is the container of the input, whose counters, padding and bits are known. -/
theorem producedContainerIsFaithful : Obligations.ProducedContainerIsFaithful := by
  intro s t regs idle nonempty ht
  obtain ⟨t', q, ht', -, -, -, -, encodes, output⟩ := runScript_compress s regs idle nonempty
  obtain rfl := Host.Outcome.next.inj (ht'.symm.trans ht)
  have small := s.length_input_lt
  have ne : s.input ≠ [] := fun he => nonempty (BitVec.eq_of_toNat_eq (by rw [← s.length_input, he]; rfl))
  rw [output]
  refine ⟨?sum, pad_compressedContainer_le _ _, encodes.faithful small ne⟩
  case sum => rw [freq_compressedContainer, counterSum_countBytes _ small, s.length_input]

end Sys2Proof.Machine
end

section
/-! PROOFS. DECODE on any bit sequence (R180 to R184): the walk ends at ROOT exactly when the bits spell bytes, what is
stored then and which fault every other end raises; and the end of a DECOMPRESS without a tree (R200). -/

namespace Sys2Proof.Machine

/-! ### Paths and the sequences they spell -/

/-- Every edge of a walk leads to a lower index (R118 (d)). -/
theorem Tree.Ok.add_length_le_of_follow {t : Tree} (ok : t.Ok) (p : Bits) (i j : Nat)
    (h : follow t.node i p = some j) : j + p.length ≤ i := by
  induction p using List.reverseRecOn generalizing j with
  | nil => exact (Option.some.inj h).ge
  | append_singleton p b ih =>
    obtain ⟨n, w, x, y, hp, hn, rfl⟩ := follow_concat _ _ _ _ _ h
    obtain ⟨left, right⟩ := ok.child n w x y hn
    have lower : (if b then y else x) < n := by cases b <;> assumption
    calc
      _ = (if b then y else x) + 1 + p.length := by rw [List.length_append, Nat.add_right_comm, Nat.add_assoc]; rfl
      _ ≤ n + p.length := Nat.add_le_add_right lower _
      _ ≤ i := ih n hp

/-- A walk that is back where it began has no edge. -/
theorem Tree.Ok.eq_nil_of_follow_self {t : Tree} (ok : t.Ok) (p : Bits) (i : Nat) (h : follow t.node i p = some i) :
    p = [] :=
  List.eq_nil_of_length_eq_zero (Nat.le_zero.1 (Nat.le_of_add_le_add_left (ok.add_length_le_of_follow p i i h)))

/-- A walk to an internal node goes on to the child the next label names. -/
theorem follow_concat_of_int (node : List Node) (p : Bits) (b : Bool) (r i w x y : Nat)
    (hp : follow node r p = some i) (hn : node[i]? = some (.int w x y)) :
    follow node r (p ++ [b]) = some (if b then y else x) := by
  rw [follow_append_bits, hp, Option.bind_some, follow_cons_of_int _ _ _ _ _ _ _ hn, follow_nil]

theorem Tree.spells_nil (t : Tree) : t.Spells [] [] := ⟨[], by simp, rfl, rfl⟩

/-- A path in front of a sequence puts its byte value in front of the bytes. -/
theorem Tree.Spells.cons {t : Tree} {p q : Bits} {b : Byte} {out : List Byte} (hq : t.Spells q out)
    (hp : t.PathTo p b) : t.Spells (p ++ q) (b :: out) := by
  obtain ⟨ws, paths, rfl, rfl⟩ := hq
  exact ⟨(p, b) :: ws, List.forall_mem_cons.2 ⟨hp, paths⟩, rfl, rfl⟩

/-! ### The ends of the walk under an internal root -/

/-- What the walk does with one bit: it leaves the tree, it emits at a leaf and is at ROOT again, or it goes on from an
internal node (R180). -/
theorem walkTree_cons_cases (node : List Node) (root : Nat) (b : Bool) (q : Bits) (cur : Nat) (out : List Byte) :
    walkTree node root (b :: q) cur out = .lost ∨
    ∃ w x y, node[cur]? = some (.int w x y) ∧
      ((∃ sym w', node[if b then y else x]? = some (.leaf sym w') ∧
          walkTree node root (b :: q) cur out = walkTree node root q root (out ++ [sym])) ∨
        walkTree node root (b :: q) cur out = walkTree node root q (if b then y else x) out) := by
  cases hn : node[cur]? with
  | none => exact .inl (by simp only [walkTree, hn])
  | some n =>
    cases n with
    | leaf sym w => exact .inl (by simp only [walkTree, hn])
    | int w x y =>
      cases hm : node[if b then y else x]? with
      | none => exact .inl (by simp only [walkTree, hn, hm])
      | some m =>
        refine .inr ⟨w, x, y, rfl, ?_⟩
        cases m with
        | leaf sym w' => exact .inl ⟨sym, w', hm, by simp only [walkTree, hn, hm]⟩
        | int w' x' y' => exact .inr (by simp only [walkTree, hn, hm])

/-- When the walk ends at ROOT, the edges p taken since ROOT and the bits q left spell what is still emitted. -/
theorem spells_of_walkTree (t : Tree) (ok : t.Ok) (root : Nat) (hr : t.root = some root) (q p : Bits) (cur : Nat)
    (out all : List Byte) (hp : follow t.node root p = some cur)
    (h : walkTree t.node root q cur out = .ended root all) :
    ∃ bs, all = out ++ bs ∧ t.Spells (p ++ q) bs := by
  induction q generalizing p cur out with
  | nil =>
    obtain ⟨rfl, rfl⟩ := WalkEnd.ended.inj h
    obtain rfl := ok.eq_nil_of_follow_self p cur hp
    exact ⟨[], (List.append_nil _).symm, t.spells_nil⟩
  | cons b q ih =>
    rw [← List.singleton_append, ← List.append_assoc]
    rcases walkTree_cons_cases t.node root b q cur out with lost | ⟨w, x, y, hn, ⟨sym, w', leaf, he⟩ | he⟩
    · exact nomatch lost.symm.trans h
    · obtain ⟨bs, rfl, spelled⟩ := ih [] root _ rfl (he.symm.trans h)
      have path : t.PathTo (p ++ [b]) sym :=
        ⟨root, _, w', hr, follow_concat_of_int _ p b root cur w x y hp hn, leaf⟩
      exact ⟨sym :: bs, List.append_assoc _ _ _, spelled.cons path⟩
    · exact ih (p ++ [b]) _ out (follow_concat_of_int _ p b root cur w x y hp hn) (he.symm.trans h)

/-- Under an internal root the walk ends at ROOT exactly when the bits spell the bytes emitted (R180, R183). -/
theorem walkBits_eq_ended_root_iff (t : Tree) (ok : t.Ok) (root w x y : Nat) (hr : t.root = some root)
    (hn : t.node[root]? = some (.int w x y)) (q : Bits) (out : List Byte) :
    walkBits t root q = .ended root out ↔ t.Spells q out := by
  refine ⟨fun h => ?_, walkBits_of_spells t root w x y hr hn q out⟩
  simp only [walkBits, hn] at h
  obtain ⟨bs, rfl, spelled⟩ := spells_of_walkTree t ok root hr q [] root [] out rfl h
  exact spelled

/-- The fault of R181 is not one of the walk under an internal root. -/
theorem walkTree_ne_oneBit (node : List Node) (root : Nat) (q : Bits) (cur : Nat) (out all : List Byte) :
    walkTree node root q cur out ≠ .oneBit all := by
  induction q generalizing cur out with
  | nil => nofun
  | cons b q ih =>
    rcases walkTree_cons_cases node root b q cur out with lost | ⟨_, _, _, _, ⟨sym, _, _, he⟩ | he⟩
    · rw [lost]
      nofun
    · exact he ▸ ih root (out ++ [sym])
    · exact he ▸ ih _ out

/-- Under an internal root the walk comes to the end of the bits. -/
theorem exists_walkBits_eq_ended (t : Tree) (ok : t.Ok) (root w x y : Nat) (hr : t.root = some root)
    (hn : t.node[root]? = some (.int w x y)) (q : Bits) :
    ∃ cur out, walkBits t root q = .ended cur out ∧ out.length ≤ q.length := by
  have emitted := walkBits_emitsAtMost t root q ok hr
  cases hw : walkBits t root q with
  | ended cur out => exact ⟨cur, out, rfl, by rwa [hw] at emitted⟩
  | oneBit out =>
    simp only [walkBits, hn] at hw
    exact absurd hw (walkTree_ne_oneBit _ _ _ _ _ _)
  | lost =>
    rw [hw] at emitted
    exact emitted.elim

/-! ### The walk under a single leaf -/

/-- Under a single leaf a bit 1 ends the walk (R181), with no more bytes emitted than bits read. -/
theorem exists_walkLeaf_eq_oneBit (root : Nat) (sym : Byte) (q : Bits) (before : List Byte) (h : true ∈ q) :
    ∃ out, walkLeaf root sym q before = .oneBit out ∧ out.length ≤ before.length + q.length := by
  induction q generalizing before with
  | nil => exact absurd h List.not_mem_nil
  | cons b q ih =>
    cases b with
    | true => exact ⟨before, rfl, Nat.le_add_right _ _⟩
    | false =>
      obtain ⟨out, hw, short⟩ := ih (before ++ [sym]) (by simpa using h)
      rw [List.length_append, Nat.add_assoc, Nat.add_comm _ q.length] at short
      exact ⟨out, hw, short⟩

/-! ### The stage -/

section

variable (s : State) (root : Nat) (hr : s.priv.tree.root = some root) (hn : s.priv.nbits = s.priv.bitseq.length)
include hr hn

/-- When the walk ends at ROOT, DECODE stores the bytes emitted from offset 0 of OBUF and counts them (R180). -/
theorem exec_decode_of_ended_root (out : List Byte) (hw : walkBits s.priv.tree root s.priv.bitseq = .ended root out)
    (room : out.length ≤ s.outCap) :
    exec .decode s = .next { s with
      obuf := Memory.write s.obuf 0 out
      priv := { s.priv with cur := root, ocnt := out.length, dlen := out.length } } := by
  refine (execDecode_next s _).2 (.inr ⟨root, hr, .inr ⟨root, out, ?_, room, .inl ⟨rfl, rfl⟩⟩⟩)
  rwa [hn, List.take_length]

/-- When the bits end with CUR other than ROOT, DECODE raises TruncatedStream (R183). -/
theorem exec_decode_of_ended_inside (cur : Nat) (out : List Byte) (inside : cur ≠ root)
    (hw : walkBits s.priv.tree root s.priv.bitseq = .ended cur out) (room : out.length ≤ s.outCap) :
    exec .decode s = .next (State.raise { s with obuf := Memory.write s.obuf 0 out } .truncatedStream) := by
  refine (execDecode_next s _).2 (.inr ⟨root, hr, .inr ⟨cur, out, ?_, room, .inr ⟨inside, rfl⟩⟩⟩)
  rwa [hn, List.take_length]

/-- At a bit 1 under a single leaf DECODE raises MalformedContainer (R181). -/
theorem exec_decode_of_oneBit (out : List Byte) (hw : walkBits s.priv.tree root s.priv.bitseq = .oneBit out)
    (room : out.length ≤ s.outCap) :
    exec .decode s = .next (State.raise { s with obuf := Memory.write s.obuf 0 out } .malformedContainer) := by
  refine (execDecode_next s _).2 (.inr ⟨root, hr, .inl ⟨out, ?_, room, rfl⟩⟩)
  rwa [hn, List.take_length]

end

/-! ### The statements about DECODE -/

/-- Settles O43: the walk ends at ROOT exactly when the bits spell the bytes emitted, and inside the tree otherwise. -/
theorem decodeFollowsTheTree : Obligations.DecodeFollowsTheTree := by
  intro s r w x y ok hr hn hbits fits
  obtain ⟨cur, emitted, hw, short⟩ := exists_walkBits_eq_ended _ ok r w x y hr hn s.priv.bitseq
  have room : emitted.length ≤ s.outCap := (short.trans hbits.ge).trans fits
  have ends := walkBits_eq_ended_root_iff _ ok r w x y hr hn s.priv.bitseq
  refine ⟨fun out spelled => ?decoded, fun unspelled stage => ?truncated⟩
  case decoded =>
    have hroot := (ends out).2 spelled
    obtain ⟨rfl, rfl⟩ := WalkEnd.ended.inj (hw.symm.trans hroot)
    exact ⟨_, exec_decode_of_ended_root s cur hr hbits emitted hw room, short.trans hbits.ge,
      s.obufByte_write_below s.priv emitted, s.obufByte_write_above s.priv emitted⟩
  case truncated =>
    have inside : cur ≠ r := by
      rintro rfl
      exact unspelled emitted ((ends emitted).1 hw)
    refine ⟨_, exec_decode_of_ended_inside s r hr hbits cur emitted inside hw room, ?_, rfl, rfl, rfl, rfl⟩
    rw [← stage]
    rfl

/-- Settles O44: bits that hold no 1 are a run of 0, each of which emits the byte value. -/
theorem singleLeafDecodeCountsZeros : Obligations.SingleLeafDecodeCountsZeros := by
  intro s r w sym hr hn hbits fits
  have single : walkBits s.priv.tree r s.priv.bitseq = walkLeaf r sym s.priv.bitseq [] := by
    simp only [walkBits, hn]
  refine ⟨fun zeros => ?decoded, fun one stage => ?malformed⟩
  case decoded =>
    have run : s.priv.bitseq = List.replicate s.priv.nbits false :=
      hbits ▸ List.eq_replicate_of_mem fun b hb => Bool.eq_false_iff.2 fun hb' => zeros (hb' ▸ hb)
    have hw : walkBits s.priv.tree r s.priv.bitseq = .ended r (List.replicate s.priv.nbits sym) := by
      rw [single, run, walkLeaf_replicate, List.nil_append]
    have size : (List.replicate s.priv.nbits sym).length = s.priv.nbits := List.length_replicate
    have decoded := exec_decode_of_ended_root s r hr hbits _ hw (size.trans_le fits)
    rw [size] at decoded
    refine ⟨_, decoded, fun j hj => ?_, fun a ha => s.obufByte_write_above s.priv _ a (size.trans_le ha)⟩
    rw [s.obufByte_write_below s.priv _ j (hj.trans_eq size.symm)]
    simp [hj]
  case malformed =>
    obtain ⟨out, hw, short⟩ := exists_walkLeaf_eq_oneBit r sym s.priv.bitseq [] one
    rw [List.length_nil, Nat.zero_add] at short
    have room : out.length ≤ s.outCap := (short.trans hbits.ge).trans fits
    refine ⟨_, exec_decode_of_oneBit s r hr hbits out (single.trans hw) room, ?_, rfl, rfl, rfl, rfl⟩
    rw [← stage]
    rfl

/-- After BUILD of an all-zero table the sequencer ends a DECOMPRESS (R182, R200). -/
theorem State.afterStage_build_of_no_tree (s : State) (hb : s.status.busy = true) (hop : s.priv.op = .decompress)
    (ht : s.priv.tree.root = none) : s.afterStage .build = s.endCommand 0 :=
  (s.afterStage_running .build hb).trans (s.advance_build_of_no_tree hop ht)

/-- Settles O45: BUILD of an all-zero table leaves the empty tree, on which the sequencer ends the command. -/
theorem emptyTreeEndsDecompress : Obligations.EmptyTreeEndsDecompress := by
  refine ⟨fun s ht => (execDecode_next s _).2 (.inl ⟨ht, rfl⟩), fun s regs hh hb hst hop zero => ?_⟩
  have empty : (buildTree s.priv.freq).root = none := by rw [buildTree_of_leafCount_eq_zero _ zero]; rfl
  have hd : decodeStage s.status.stage = .ok .build := by rw [hst]; rfl
  have hend := step_of_stage s _ .build hh hb hd ((execBuild_next s.stirHidden _).2 rfl)
  rw [State.afterStage_build_of_no_tree _ (by exact hb) (by exact hop) (by exact empty)] at hend
  refine ⟨_, hend, ?status, rfl, rfl, rfl⟩
  case status =>
    obtain ⟨-, noError, -⟩ := regs.busy_status hb
    simp [Status.ended, Status.success, noError]

end Sys2Proof.Machine
end

section
/-! PROOFS. The host's writes of CMD and its other moves while the block is idle (R195, R203 to R205, R211). -/

namespace Sys2Proof.Machine

/-! ### The host commands -/

/-- The operation a host command is decoded to (R87). -/
def Command.instr : Command → Instr
  | .compress => .compress
  | .decompress => .decompress

/-- The stage a host command starts at (R195). -/
def Command.first : Command → BitVec 4
  | .compress => 1#4
  | .decompress => 7#4

theorem Command.head?_stages (op : Command) : op.stages.head? = some op.first := by cases op <;> rfl

/-- The meaning of a host command is its start, and nothing while BUSY = 1 (R195, R204). -/
theorem exec_command (op : Command) (s : State) :
    exec op.instr s = if s.status.busy then .next s else .next (s.startCommand op op.first) := by
  cases op <;> rfl

theorem exec_command_of_busy (op : Command) (s : State) (busy : s.status.busy = true) :
    exec op.instr s = .next s :=
  (exec_command op s).trans (if_pos busy)

theorem exec_command_of_idle (op : Command) (s : State) (idle : s.status.busy = false) :
    exec op.instr s = .next (s.startCommand op op.first) :=
  (exec_command op s).trans (if_neg (by simp [idle]))

/-! ### A write of CMD -/

/-- A CMD word is a host command or reserved (R87). -/
theorem decodeCmd_command_or_reserved (w : Word) :
    (∃ op : Command, decodeCmd w = .ok op.instr) ∨ ∃ e, decodeCmd w = .error e := by
  rcases decodeCmd_cases w with h | h | h
  · exact .inl ⟨.compress, h⟩
  · exact .inl ⟨.decompress, h⟩
  · exact .inr h

theorem writeCmd_of_command (w : Word) (op : Command) (s : State) (hd : decodeCmd w = .ok op.instr) :
    writeCmd w s = exec op.instr s := by
  simp only [writeCmd, decodeWord, hd]

theorem writeCmd_of_reserved (w : Word) (s : State) (hd : ∃ e, decodeCmd w = .error e) :
    writeCmd w s = .next s.illegalCommand := by
  obtain ⟨e, hd⟩ := hd
  simp only [writeCmd, decodeWord, hd]

theorem State.illegalCommand_of_busy (s : State) (busy : s.status.busy = true) : s.illegalCommand = s :=
  if_pos busy

theorem State.illegalCommand_of_idle (s : State) (idle : s.status.busy = false) :
    s.illegalCommand = State.raise { s with status := { s.status with stage := 0 } } .illegalCommand :=
  if_neg (by simp [idle])

theorem writeCmd_of_busy (w : Word) (s : State) (busy : s.status.busy = true) : writeCmd w s = .next s := by
  rcases decodeCmd_command_or_reserved w with ⟨op, hd⟩ | hd
  · rw [writeCmd_of_command w op s hd, exec_command_of_busy op s busy]
  · rw [writeCmd_of_reserved w s hd, s.illegalCommand_of_busy busy]

/-- A CMD write has an effect or is ignored, and is never refused. -/
theorem writeCmd_completes (w : Word) (s : State) : ∃ t, writeCmd w s = .next t := by
  cases idle : s.status.busy with
  | true => exact ⟨s, writeCmd_of_busy w s idle⟩
  | false =>
    rcases decodeCmd_command_or_reserved w with ⟨op, hd⟩ | hd
    · exact ⟨_, (writeCmd_of_command w op s hd).trans (exec_command_of_idle op s idle)⟩
    · exact ⟨_, writeCmd_of_reserved w s hd⟩

/-- The write of a host command starts it when the block is idle. -/
theorem hostMove_of_command (s : State) (v : Len) (op : Command) (hd : decodeCmd (v.setWidth 32) = .ok op.instr)
    (idle : s.status.busy = false) : hostMove (.wrReg 0 v) s = .next (s.startCommand op op.first) :=
  (writeCmd_of_command _ op s hd).trans (exec_command_of_idle op s idle)

/-- The write of a reserved OP reports IllegalCommand when the block is idle. -/
theorem hostMove_of_reserved (s : State) (v : Len) (hd : ∃ e, decodeCmd (v.setWidth 32) = .error e)
    (idle : s.status.busy = false) :
    hostMove (.wrReg 0 v) s =
      .next (State.raise { s with status := { s.status with stage := 0 } } .illegalCommand) :=
  (writeCmd_of_reserved _ s hd).trans (congrArg _ (s.illegalCommand_of_idle idle))

/-- Settles O10: `exec_command`, and the fields of the state a command starts in. -/
theorem commandsStartWhenIdle : Obligations.CommandsStartWhenIdle := by
  intro s i op c h
  obtain ⟨rfl, rfl⟩ : i = op.instr ∧ c = op.first := by
    rcases h with ⟨rfl, rfl, rfl⟩ | ⟨rfl, rfl, rfl⟩ <;> exact ⟨rfl, rfl⟩
  refine ⟨exec_command_of_busy op s, fun idle => ⟨_, exec_command_of_idle op s idle, ?_⟩⟩
  exact ⟨rfl, rfl, rfl, rfl, rfl, rfl, rfl, fun _ => rfl, rfl, rfl, rfl, rfl⟩

/-- Settles O8: the write is the head of the script, and BUSY = 1 chooses the branch that ignores it. -/
theorem cmdWriteWhileBusyIsIgnored : Obligations.CmdWriteWhileBusyIsIgnored := by
  intro s v rest hh busy
  rw [step_of_host_cons s _ rest hh]
  exact writeCmd_of_busy _ _ busy

/-- Settles O9: OP is the low four bits of the value written, and a reserved one raises IllegalCommand. -/
theorem reservedOpReportsIllegalCommand : Obligations.ReservedOpReportsIllegalCommand := by
  intro s v rest hh idle notCompress notDecompress
  have low : (v.setWidth 32).toNat % 16 = v.toNat % 16 := by
    rw [BitVec.toNat_setWidth, Nat.mod_mod_of_dvd _ (by decide)]
  have reserved : ∃ e, decodeCmd (v.setWidth 32) = .error e := by
    refine (decodeCmd_eq_error_iff _).2 ⟨?_, ?_⟩ <;> rw [Ne, cmdOp_eq_iff, low]
    · exact notCompress
    · exact notDecompress
  rw [step_of_host_cons s _ rest hh]
  exact ⟨_, hostMove_of_reserved _ v reserved idle, rfl, rfl, rfl, rfl, rfl, fun _ => rfl, rfl, rfl, rfl⟩

/-! ### The other moves -/

theorem drawnStage_mem (op : Command) (k : Nat) : drawnStage op k ∈ op.stages := by
  have pos : 0 < op.stages.length := by cases op <;> decide
  rw [drawnStage, List.getD_eq_getElem _ _ (Nat.mod_lt _ pos)]
  exact List.getElem_mem _

/-- Settles O12: BUSY is bit 0 of the word and STAGE its bits 8 to 11; DONE and ERR are 0 while BUSY = 1. -/
theorem statusReadWhileBusyShowsAStage : Obligations.StatusReadWhileBusyShowsAStage := by
  intro s rest regs busy hh
  obtain ⟨running, noError, -⟩ := regs.busy_status busy
  refine ⟨drawnStage s.priv.op s.draws, drawnStage_mem _ _, ?_⟩
  have word : (Status.word { s.status with stage := drawnStage s.priv.op s.draws }).setWidth 40 =
      BitVec.ofNat 40 (1 + 256 * (drawnStage s.priv.op s.draws).toNat) := by
    refine BitVec.eq_of_toNat_eq ?_
    rw [BitVec.toNat_setWidth, Status.word_toNat, BitVec.toNat_ofNat]
    simp [busy, running, noError, flagBit]
  rw [step_of_host_cons s _ rest hh, ← word]
  exact congrArg Host.Outcome.next (if_pos busy)

/-- The host reads each of the four registers at any time (R22). -/
theorem readReg_completes (s : State) : ∀ n < 4, ∃ t, readReg n s = .next t
  | 0, _ => ⟨_, rfl⟩
  | 1, _ => ⟨_, rfl⟩
  | 2, _ => ⟨_, rfl⟩
  | 3, _ => ⟨_, rfl⟩
  | _ + 4, hn => absurd hn (Nat.not_lt.2 (Nat.le_add_left 4 _))

/-- The host writes each of the four registers of an idle block, IN_LEN with a value at most IN_CAP (R22, R25). -/
theorem writeReg_completes (s : State) (v : Len) (idle : s.status.busy = false) :
    ∀ n < 4, (n = 2 → v.toNat ≤ s.inCap) → ∃ t, writeReg n v s = .next t
  | 0, _, _ => writeCmd_completes _ s
  | 1, _, _ => ⟨_, rfl⟩
  | 2, _, fits => ⟨_, writeInLen_of_idle s v idle (fits rfl)⟩
  | 3, _, _ => ⟨_, rfl⟩
  | _ + 4, hn, _ => absurd hn (Nat.not_lt.2 (Nat.le_add_left 4 _))

/-- Settles O14: each move's conditions choose a branch that answers a state. -/
theorem wellFormedMovesCompleteWhenIdle : Obligations.WellFormedMovesCompleteWhenIdle := by
  intro s m rest hh idle wf fits
  rw [step_of_host_cons s m rest hh]
  cases m with
  | reset => exact ⟨_, rfl⟩
  | wrReg n v =>
    obtain ⟨hn, hv⟩ := (Bool.and_eq_true (decide (n < 4)) _).mp wf
    refine writeReg_completes { s with host := rest } v idle n (of_decide_eq_true hn) ?_
    rintro rfl
    exact of_decide_eq_true hv
  | rdReg n => exact readReg_completes _ n (of_decide_eq_true wf)
  | wrIbuf a b => exact ⟨_, writeIbuf_of_idle _ a b (of_decide_eq_true wf) idle⟩
  | rdIbuf a => exact ⟨_, readIbuf_of_idle _ a (of_decide_eq_true wf) idle⟩
  | rdObuf a =>
    have ha : a < s.outCap := of_decide_eq_true wf
    rcases Nat.lt_or_ge a s.outLen.toNat with below | above
    · exact ⟨_, readObuf_of_idle _ a ha idle below⟩
    · exact ⟨_, readObuf_of_forbidden _ a ha (.inr above)⟩
  | load bs => exact ⟨_, loadBytes_of_idle _ bs idle (of_decide_eq_true wf)⟩
  | move => exact ⟨_, moveResult_of_idle _ idle (fits rfl)⟩
  | wait =>
    simp only [hostMove]
    split
    · exact ⟨_, rfl⟩
    · exact ⟨_, engineStep_idle _ idle⟩
  | pass => exact ⟨_, engineStep_idle _ idle⟩

end Sys2Proof.Machine
end

section
/-! PROOFS. The order of the stages (R196, R200): what the sequencer does after each stage, and that a running command
ends with the stages left in its list (R207). -/

namespace Sys2Proof.Machine

/-! ### What follows a stage -/

theorem Command.stages_nodup (op : Command) : op.stages.Nodup := by cases op <;> decide

theorem Command.length_stages_le (op : Command) : op.stages.length ≤ 6 := by cases op <;> decide

/-- After a stage that raised nothing the sequencer enters the next stage of the list, ends the command, or raises
EmptyInput (R102, R196, R197, R200, R201). -/
theorem State.advance_cases (s : State) (i : Instr) (c : BitVec 4) (hi : encodeWord i = .stage c)
    (hc : c ∈ s.priv.op.stages) :
    (∃ (j : Nat) (d : BitVec 4), s.priv.op.stages[j]? = some c ∧ s.priv.op.stages[j + 1]? = some d ∧
      s.advance i = s.enter d) ∨
    (∃ n, s.advance i = s.endCommand n ∧ (s.priv.op.stages.getLast? = some c ∨
      i = .build ∧ s.priv.op = .decompress ∧ s.priv.tree.root = none)) ∨
    s.advance i = s.raise .emptyInput := by
  have command := s.priv.op.eq_of_mem_stages c hc
  cases i <;> simp only [encodeWord, CodeWord.stage.injEq, reduceCtorEq] at hi <;> subst hi
  case build =>
    cases op : s.priv.op with
    | compress => exact .inl ⟨1, 3, rfl, rfl, s.advance_build_of_compress op⟩
    | decompress =>
      by_cases ht : s.priv.tree.root = none
      · exact .inr (.inl ⟨0, s.advance_build_of_no_tree op ht, .inr ⟨rfl, rfl, ht⟩⟩)
      · exact .inl ⟨1, 8, rfl, rfl, s.advance_build_of_tree op ht⟩
  all_goals rw [command (by decide)]
  case count =>
    by_cases empty : s.inLen = 0
    · exact .inr (.inr (s.advance_count_of_empty empty))
    · exact .inl ⟨0, 2, rfl, rfl, s.advance_count_of_ne empty⟩
  case derive => exact .inl ⟨2, 4, rfl, rfl, rfl⟩
  case encode => exact .inl ⟨3, 5, rfl, rfl, rfl⟩
  case pack => exact .inl ⟨4, 6, rfl, rfl, rfl⟩
  case serialize => exact .inr (.inl ⟨_, rfl, .inl rfl⟩)
  case parse => exact .inl ⟨0, 2, rfl, rfl, rfl⟩
  case unpack => exact .inl ⟨2, 9, rfl, rfl, rfl⟩
  case decode => exact .inr (.inl ⟨_, rfl, .inl rfl⟩)

theorem ErrorKind.code_ne_zero (k : ErrorKind) : k.code ≠ 0 := by cases k <;> decide

theorem buildTree_root_eq_none_iff (f : Table Word) : (buildTree f).root = none ↔ leafCount f = 0 :=
  Option.isNone_iff_eq_none.symm.trans (buildTree_isEmpty_iff f)

/-- BUILD leaves no tree for a table without a counter only (R116). -/
theorem leafCount_eq_zero_of_execBuild (s t : State) (h : execBuild s = .next t)
    (noTree : t.priv.tree.root = none) : leafCount s.priv.freq = 0 := by
  obtain rfl := (execBuild_next s t).1 h
  exact (buildTree_root_eq_none_iff _).1 noTree

/-- A stage reports its fault itself or leaves a running state to the sequencer, which enters the next stage or ends the
command. -/
theorem engineStep_order (s t : State) (regs : s.RegsOk) (busy : s.status.busy = true)
    (ht : engineStep s = .next t) :
    (t.status.busy = true → t.priv.op = s.priv.op ∧
      ∃ j : Nat, s.priv.op.stages[j]? = some s.status.stage ∧ s.priv.op.stages[j + 1]? = some t.status.stage) ∧
    (t.status.busy = false → t.status.done = true ∧
      (t.status.err = 0 → t.status.stage = 0 ∧
        (s.priv.op.stages.getLast? = some s.status.stage ∨
          (s.status.stage = 2 ∧ s.priv.op = .decompress ∧ leafCount s.priv.freq = 0))) ∧
      (t.status.err ≠ 0 → t.status.stage = s.status.stage ∧ t.outLen = 0)) := by
  obtain ⟨-, noError, mem⟩ := regs.busy_status busy
  obtain ⟨i, s', hd, hx, rfl⟩ := (engineStep_busy s t busy).1 ht
  have hi := encodeWord_of_decodeStage _ i hd
  have stirred : s.stirHidden.RegsOk := regs.congr _ rfl rfl rfl rfl rfl rfl
  rcases exec_stage_regs _ s' i stirred hi hx with ⟨k, rfl, -⟩ | ⟨-, status, op⟩
  · rw [State.afterStage_ended _ _ rfl]
    exact ⟨nofun, fun _ => ⟨rfl, fun he => absurd he k.code_ne_zero, fun _ => ⟨rfl, rfl⟩⟩⟩
  · change s'.status = s.status at status
    change s'.priv.op = s.priv.op at op
    have running : s'.status.busy = true := status ▸ busy
    rw [State.afterStage_running s' i running]
    rcases s'.advance_cases i _ hi (op ▸ mem) with ⟨j, d, here, next, he⟩ | ⟨n, he, last⟩ | he <;> rw [he]
    · rw [op] at here next
      exact ⟨fun _ => ⟨op, j, here, next⟩, fun idle => nomatch running.symm.trans idle⟩
    · refine ⟨nofun, fun _ => ⟨rfl, fun _ => ⟨rfl, ?_⟩, fun error => ?_⟩⟩
      · rw [op] at last
        refine last.imp_right ?_
        rintro ⟨rfl, decompress, noTree⟩
        exact ⟨(CodeWord.stage.inj hi).symm, decompress, leafCount_eq_zero_of_execBuild s.stirHidden s' hx noTree⟩
      · exact absurd (by rw [State.endCommand_status, Status.ended_err, status, noError]) error
    · exact ⟨nofun, fun _ => ⟨rfl, fun error => absurd error (ErrorKind.code_ne_zero .emptyInput),
        fun _ => ⟨by rw [State.raise_status, Status.faulted_stage, status], rfl⟩⟩⟩

/-- Settles O49: with the script empty the step is the engine's. -/
theorem stagesRunInTheCommandOrder : Obligations.StagesRunInTheCommandOrder := fun s t regs hh busy ht =>
  engineStep_order s t regs busy ((step_of_host_nil s hh).symm.trans ht)

end Sys2Proof.Machine
end

section
/-! PROOFS. The end of a running command (R207): while the host waits or makes no move, the engine takes the command
through the stages left in its list, and the script CMD, WAIT runs it to its end. -/

namespace Sys2Proof.Machine

/-! ### The stages left -/

/-- The stage about to run is one of the last n of the command's list. -/
def State.StagesLeft (s : State) (n : Nat) : Prop :=
  ∃ j : Nat, s.priv.op.stages[j]? = some s.status.stage ∧ s.priv.op.stages.length ≤ j + n

theorem State.RegsOk.stagesLeft {s : State} (h : s.RegsOk) (busy : s.status.busy = true) :
    s.StagesLeft s.priv.op.stages.length := by
  obtain ⟨-, -, mem⟩ := h.busy_status busy
  obtain ⟨j, here⟩ := List.mem_iff_getElem?.1 mem
  exact ⟨j, here, Nat.le_add_left _ _⟩

/-- There is a stage left to run. -/
theorem State.StagesLeft.pos {s : State} {n : Nat} (h : s.StagesLeft n) : 0 < n := by
  obtain ⟨j, here, length⟩ := h
  have := (List.getElem?_eq_some_iff.1 here).1
  omega

/-- A step that does not end the command leaves one stage fewer. -/
theorem State.StagesLeft.next {s t : State} {n : Nat} (h : s.StagesLeft (n + 1)) (regs : s.RegsOk)
    (busy : s.status.busy = true) (ht : engineStep s = .next t) (running : t.status.busy = true) :
    t.StagesLeft n := by
  obtain ⟨j, here, length⟩ := h
  obtain ⟨op, i, here', next⟩ := (engineStep_order s t regs busy ht).1 running
  obtain rfl : j = i :=
    (List.getElem?_inj (List.getElem?_eq_some_iff.1 here).1 s.priv.op.stages_nodup).1 (here.trans here'.symm)
  exact ⟨j + 1, op ▸ next, op ▸ by omega⟩

/-! ### The last step of a command -/

/-- The command running in s ends in t, and u is the state in which its last stage is about to run. -/
structure State.EndsBy (s u t : State) : Prop where
  inv   : u.Inv
  busy  : u.status.busy = true
  op    : u.priv.op = s.priv.op
  same  : s.SameHostPart u
  step  : engineStep u = .next t
  ended : t.status.busy = false

namespace State.EndsBy

variable {s u t : State}

theorem done (h : s.EndsBy u t) : t.status.done = true :=
  ((engineStep_order u t h.inv.regs h.busy h.step).2 h.ended).1

theorem inv_end (h : s.EndsBy u t) : t.Inv := engineStep_keeps_inv u t h.inv h.step

theorem same_end (h : s.EndsBy u t) : s.SameHostPart t := h.same.trans (engineStep_sameHostPart u t h.step)

end State.EndsBy

/-- While the host waits or makes no move, the engine ends the command with the stages left. -/
theorem State.Inv.run_to_end {s : State} (n : Nat) (h : s.Inv) (busy : s.status.busy = true) (left : s.StagesLeft n)
    (script : s.host = [] ∨ ∃ rest, s.host = .wait :: rest) :
    ∃ m ≤ n, ∃ u t, s.EndsBy u t ∧
      ∀ k, Host.Core.run Sys2Proof.core (m + k) s = Host.Core.run Sys2Proof.core k t := by
  induction n generalizing s with
  | zero => exact absurd left.pos (Nat.lt_irrefl 0)
  | succ n ih =>
    obtain ⟨running, -⟩ := h.regs.busy_status busy
    obtain ⟨v, hv⟩ := h.engineStep_completes
    have same := engineStep_sameHostPart s v hv
    have moves : step s = .next v := by
      rcases script with noMove | ⟨rest, waiting⟩
      · exact (step_of_host_nil s noMove).trans hv
      · exact (step_of_waiting s rest waiting running).trans hv
    cases busy' : v.status.busy with
    | false =>
      refine ⟨1, Nat.le_add_left 1 n, s, v, ⟨h, busy, rfl, ⟨rfl, rfl, rfl, rfl, rfl, rfl⟩, hv, busy'⟩, fun k => ?_⟩
      rw [Nat.add_comm]
      exact run_succ_of_next Sys2Proof.core k s v moves
    | true =>
      obtain ⟨op, -⟩ := (engineStep_order s v h.regs busy hv).1 busy'
      obtain ⟨m, hm, u, t, ends, run⟩ := ih (engineStep_keeps_inv s v h hv) busy' (left.next h.regs busy hv busy')
        (by rwa [same.host])
      refine ⟨m + 1, Nat.succ_le_succ hm, u, t,
        ⟨ends.inv, ends.busy, ends.op.trans op, same.trans ends.same, ends.step, ends.ended⟩, fun k => ?_⟩
      rw [Nat.succ_add, ← run k]
      exact run_succ_of_next Sys2Proof.core _ s v moves

/-- An idle block with no move pending stays as it is (R41, R236). -/
theorem run_of_idle (k : Nat) (s : State) (script : s.host = []) (idle : s.status.busy = false) :
    Host.Core.run Sys2Proof.core k s = .next s := by
  induction k with
  | zero => rfl
  | succ k ih =>
    refine (run_succ_of_next Sys2Proof.core k s s ?_).trans ih
    exact (step_of_host_nil s script).trans (engineStep_idle s idle)

/-- Settles O55: the list of a command has at most six stages, and after its end the block stays as it is. -/
theorem everyCommandEnds : Obligations.EveryCommandEnds := by
  intro s h busy
  have started : State.Inv { s with host := [] } := h.withUnseen _ _ _ _
  obtain ⟨m, hm, u, t, ends, run⟩ := started.run_to_end _ busy (started.regs.stagesLeft busy) (.inl rfl)
  obtain ⟨k, hk⟩ := Nat.exists_eq_add_of_le (hm.trans (Command.length_stages_le _))
  refine ⟨t, ?_, ends.ended, ends.done, ends.inv_end⟩
  rw [runScript, hk, run k]
  exact run_of_idle k t ends.same_end.host ends.ended

/-! ### The script CMD, WAIT -/

/-- A command started on an idle block has nothing computed yet (R195). -/
theorem State.RegsOk.startCommand_inv {s : State} (h : s.RegsOk) (op : Command) :
    (s.startCommand op op.first).Inv := by
  refine .of_busy (h.startCommand op _ (List.mem_of_head? op.head?_stages)) rfl rfl ?_ ?_ <;> rintro rfl
  · exact compressData_one _
  · exact decompressData_seven _

/-- On an idle block the write of a host command and WAIT run the command to its end, and the other moves follow. -/
theorem runScript_command (s : State) (regs : s.RegsOk) (idle : s.status.busy = false) (v : Len) (op : Command)
    (hd : decodeCmd (v.setWidth 32) = .ok op.instr) (rest : List HostMove) :
    ∃ u t, State.EndsBy { s.startCommand op op.first with host := .wait :: rest } u t ∧
      ∃ m ≤ op.stages.length, ∀ k, runScript (m + k + 2) (.wrReg 0 v :: .wait :: rest) s = runScript k rest t := by
  have started : State.Inv { s.startCommand op op.first with host := .wait :: rest } :=
    (regs.startCommand_inv op).withUnseen _ _ _ _
  obtain ⟨m, hm, u, t, ends, run⟩ := started.run_to_end _ rfl (started.regs.stagesLeft rfl) (.inr ⟨rest, rfl⟩)
  refine ⟨u, t, ends, m, hm, fun k => ?_⟩
  have starts : runScript (m + k + 2) (.wrReg 0 v :: .wait :: rest) s =
      runScript (m + k + 1) (.wait :: rest) (s.startCommand op op.first) :=
    runScript_cons _ _ _ s _ (hostMove_of_command { s with host := .wait :: rest } v op hd idle)
  have waited : step t = .next { t with host := rest } := step_of_waited t rest ends.same_end.host ends.done
  exact (starts.trans (run (k + 1))).trans (run_succ_of_next Sys2Proof.core k t _ waited)

/-- With no other move the run stops at the end of the command, whatever steps are left. -/
theorem runScript_command_end (n : Nat) (s : State) (regs : s.RegsOk) (idle : s.status.busy = false) (v : Len)
    (op : Command) (hd : decodeCmd (v.setWidth 32) = .ok op.instr) (hn : op.stages.length + 2 ≤ n) :
    ∃ u t, State.EndsBy { s.startCommand op op.first with host := [.wait] } u t ∧
      runScript n [.wrReg 0 v, .wait] s = .next { t with host := [] } := by
  obtain ⟨u, t, ends, m, hm, run⟩ := runScript_command s regs idle v op hd []
  obtain ⟨k, rfl⟩ : ∃ k, n = m + k + 2 := ⟨n - m - 2, by omega⟩
  refine ⟨u, t, ends, (run k).trans ?_⟩
  exact run_of_idle k { t with host := [] } rfl ends.ended

end Sys2Proof.Machine
end

section
/-! PROOFS. What a command reports: STATUS and the result. A COMPRESS ends with EmptyInput or with the container of its
input (R196, R197), and the bits of that container are determined by the input. -/

namespace Sys2Proof.Machine

/-! ### Reports -/

/-- What the host learns of a command: STATUS, and the bytes of the result, whose number is OUT_LEN (R209). -/
def State.report (s : State) : Status × List Byte := (s.status, s.output)

/-- OUT_LEN is the number of bytes of the result. -/
theorem State.outLen_eq (s : State) : s.outLen = BitVec.ofNat 40 s.output.length := by
  rw [s.length_output, BitVec.ofNat_toNat, BitVec.setWidth_eq]

theorem State.outLen_eq_zero (s : State) (h : s.output = []) : s.outLen = 0 := by
  rw [s.outLen_eq, h]
  rfl

/-- A fault reports its kind, the stage and no result (R222). -/
theorem State.report_raise (s : State) (k : ErrorKind) (c : BitVec 4) (stage : s.status.stage = c) :
    (s.raise k).report = (Status.failure k c, []) := by
  subst stage
  rfl

/-- A command that ends without a fault reports success and its result (R197, R201). -/
theorem State.report_endCommand (s : State) (n : Nat) (out : List Byte) (noError : s.status.err = 0)
    (output : (s.endCommand n).output = out) : (s.endCommand n).report = (Status.success, out) := by
  rw [State.report, output, State.endCommand_status, Status.ended, noError]
  rfl

/-! ### The report of a COMPRESS -/

/-- A COMPRESS whose operand is empty is at COUNT: no later stage has an empty operand (R102). -/
theorem State.Inv.stage_eq_one_of_empty {s : State} (h : s.Inv) (busy : s.status.busy = true)
    (op : s.priv.op = .compress) (empty : s.inLen = 0) : s.status.stage = 1 := by
  obtain ⟨-, -, mem⟩ := h.regs.busy_status busy
  rw [op] at mem
  have atCount : ¬ 2 ≤ s.status.stage.toNat := fun later =>
    ((s.compressData_iff _).1 (h.compress busy op)).1 later |>.1 empty
  revert mem atCount
  generalize s.status.stage = c
  revert c
  decide

/-- EmptyInput is the report on the empty operand (R102, R198). -/
theorem State.EndsBy.report_of_empty {s u t : State} (h : s.EndsBy u t) (op : s.priv.op = .compress)
    (empty : s.inLen = 0) : t.report = (Status.failure .emptyInput 1, []) := by
  have empty' : u.inLen = 0 := h.same.inLen.trans empty
  have stage := h.inv.stage_eq_one_of_empty h.busy (h.op.trans op) empty'
  have hd : decodeStage u.status.stage = .ok .count := by rw [stage]; rfl
  have counted := execCount_of_empty u.stirHidden empty'
  have step := (engineStep_busy u _ h.busy).2 ⟨.count, _, hd, counted, rfl⟩
  rw [h.step, State.afterStage_count_of_empty _ (by exact h.busy) (by exact empty')] at step
  rw [Host.Outcome.next.inj step]
  exact State.report_raise _ _ 1 stage

/-- A COMPRESS of a non-empty operand ends at SERIALIZE, with the container of the operand as its result. -/
theorem State.EndsBy.report_of_nonempty {s u t : State} (h : s.EndsBy u t) (op : s.priv.op = .compress)
    (nonempty : s.inLen ≠ 0) :
    ∃ q, EncodesInput s.input q ∧ t.report = (Status.success, compressedContainer s.input q) := by
  have stage : u.Compressing u.status.stage := ⟨h.inv, h.busy, h.op.trans op, rfl, h.same.inLen ▸ nonempty⟩
  by_cases last : u.status.stage = 6
  · obtain ⟨v, q, hv, success, encodes, output⟩ := (last ▸ stage).engineStep_serialize
    obtain rfl := Host.Outcome.next.inj (hv.symm.trans h.step)
    rw [h.same.input] at encodes output
    exact ⟨q, encodes, Prod.ext success output⟩
  · obtain ⟨v, hv, next, -⟩ := stage.engineStep_next last
    obtain rfl := Host.Outcome.next.inj (hv.symm.trans h.step)
    exact nomatch next.busy.symm.trans h.ended

/-- An input that has not one byte value alone has two or more. -/
theorem two_le_leafCount_countBytes (bs : List Byte) (small : bs.length < 2 ^ 32) (ne : bs ≠ [])
    (many : leafCount (countBytes bs) ≠ 1) : 2 ≤ leafCount (countBytes bs) :=
  Nat.lt_of_le_of_ne (one_le_leafCount_countBytes bs small ne) many.symm

/-- The bits of an input are determined: each byte has one code in the tree of the input's counters. -/
theorem EncodesInput.unique {bs : List Byte} {q q' : Bits} (h : EncodesInput bs q) (h' : EncodesInput bs q')
    (small : bs.length < 2 ^ 32) : q = q' := by
  by_cases one : leafCount (countBytes bs) = 1
  · obtain ⟨-, -, -, zeros, -⟩ := h.single_leaf small one
    obtain ⟨-, -, -, zeros', -⟩ := h'.single_leaf small one
    rw [zeros, zeros']
  · obtain ⟨cs, code, hcs, holds, rfl⟩ := h
    obtain ⟨cs', code', hcs', holds', rfl⟩ := h'
    obtain rfl := Option.some.inj (hcs.symm.trans hcs')
    refine List.flatMap_congr fun b hb => ?_
    have two := two_le_leafCount_countBytes bs small (List.ne_nil_of_mem hb) one
    have path := mem_treeCodes_buildTree_iff _ two cs hcs b
    exact buildTree_pathTo_inj _ _ _ b ((path _).1 (holds.word_mem b (holds.valid_of_mem bs small hcs b hb)))
      ((path _).1 (holds'.word_mem b (holds'.valid_of_mem bs small hcs b hb)))

theorem State.input_ne_nil (s : State) (nonempty : s.inLen ≠ 0) : s.input ≠ [] := by
  refine mt (congrArg List.length) fun h => nonempty (BitVec.eq_of_toNat_eq ?_)
  rwa [s.length_input] at h

/-- Settles O56: EmptyInput or the container, whose bits are the codes of the tree of the input's counters. -/
theorem compressProducesTheContainer : Obligations.CompressProducesTheContainer := by
  intro s regs idle
  obtain ⟨u, t, ends, run⟩ := runScript_command_end 8 s regs idle 1#40 .compress rfl (by decide)
  refine ⟨_, run, rfl, ends.same_end.inLen, ends.same_end.input, fun empty => ?empty, fun nonempty => ?container⟩
  case empty =>
    obtain ⟨status, output⟩ := Prod.mk.inj (ends.report_of_empty rfl empty)
    exact ⟨status, t.outLen_eq_zero output⟩
  case container =>
    have small := s.length_input_lt
    obtain ⟨q, encodes, report⟩ := ends.report_of_nonempty rfl nonempty
    change EncodesInput s.input q at encodes
    obtain ⟨status, output⟩ := Prod.mk.inj report
    refine ⟨status, q, fun one => ?zeros, fun many => encodes.spells small ?two, ?length, output⟩
    case zeros =>
      obtain ⟨-, -, -, zeros, -⟩ := encodes.single_leaf small one
      rwa [s.length_input] at zeros
    case two => exact two_le_leafCount_countBytes s.input small (s.input_ne_nil nonempty) many
    case length =>
      exact (t.length_output.symm.trans (congrArg List.length output)).trans (length_compressedContainer _ q)

end Sys2Proof.Machine
end

section
/-! PROOFS. What a DECOMPRESS reports is a function of its operand, the container: the first stage that has a fault to
raise, the end without a tree, or the end of the walk (R200 to R202). -/

namespace Sys2Proof.Machine

/-! ### The report as a function of the container -/

/-- What DECODE reports by the end of its walk (R180 to R183); no walk of a built tree is lost. -/
def WalkEnd.report (root : Nat) : WalkEnd → Option (Status × List Byte)
  | .ended cur out => some (if cur = root then (Status.success, out) else (Status.failure .truncatedStream 9, []))
  | .oneBit _ => some (Status.failure .malformedContainer 9, [])
  | .lost => none

/-- What DECOMPRESS reports on a container, stage by stage: PARSE, BUILD, UNPACK, DECODE (R200). -/
def decompressReport (c : List Byte) : Option (Status × List Byte) :=
  if 1025 ≤ c.length ∧ Container.pad c ≤ 7 then
    match (buildTree (Container.freq c)).root with
    | none => some (Status.success, [])
    | some root =>
      if 8 * (c.length - 1025) < Container.pad c then some (Status.failure .truncatedStream 8, [])
      else (walkBits (buildTree (Container.freq c)) root (Container.bits c)).report root
  else some (Status.failure .malformedContainer 7, [])

section

variable {c : List Byte}

theorem decompressReport_of_not_parseable (h : ¬ Container.Parseable c) :
    decompressReport c = some (Status.failure .malformedContainer 7, []) :=
  if_neg h

theorem decompressReport_of_no_tree (h : Container.Parseable c) (hr : (buildTree (Container.freq c)).root = none) :
    decompressReport c = some (Status.success, []) := by
  refine (if_pos h).trans ?_
  rw [hr]

theorem decompressReport_of_truncated (h : Container.Parseable c) (hr : (buildTree (Container.freq c)).root ≠ none)
    (short : 8 * (c.length - 1025) < Container.pad c) :
    decompressReport c = some (Status.failure .truncatedStream 8, []) := by
  obtain ⟨root, hr⟩ := Option.ne_none_iff_exists'.1 hr
  refine (if_pos h).trans ?_
  rw [hr]
  exact if_pos short

theorem decompressReport_of_walk (h : Container.Parseable c) (root : Nat)
    (hr : (buildTree (Container.freq c)).root = some root) (long : Container.pad c ≤ 8 * (c.length - 1025)) :
    decompressReport c = (walkBits (buildTree (Container.freq c)) root (Container.bits c)).report root := by
  refine (if_pos h).trans ?_
  rw [hr]
  exact if_neg (Nat.not_lt.2 long)

end

/-! ### The items of the engine as fields of the container -/

/-- PARSE leaves the fields of a parseable container (R81 to R83, R170). -/
theorem State.Parsed.fields {s : State} (h : s.Parsed) :
    Container.Parseable s.input ∧ s.priv.freq = Container.freq s.input ∧
      s.priv.pad.toNat = Container.pad s.input ∧ s.priv.plen = s.input.length - 1025 ∧
      s.priv.pay = s.input.drop 1025 := by
  obtain ⟨long, plen, pay, freq, pad⟩ := h
  rw [s.toNat_ibufByte_padOffset long] at pad
  have small := s.priv.pad.isLt
  refine ⟨⟨by rwa [s.length_input], by omega⟩, freq.trans (s.counters_eq_freq_input long), pad, ?_, ?_⟩
  · rw [s.length_input, plen]
  · rw [pay, plen, s.ibufBytes_payload]

/-- UNPACK leaves the logical bits of the container (R83). -/
theorem State.Unpacked.take_bitseq {s : State} (h : s.Unpacked) (parsed : s.Parsed) :
    s.priv.bitseq.take s.priv.nbits = Container.bits s.input := by
  obtain ⟨-, nbits, bits⟩ := h
  obtain ⟨-, -, pad, plen, pay⟩ := parsed.fields
  rw [bits, unpackBits, List.take_take, Nat.min_self, nbits, plen, pay, pad]
  rfl

/-- The logical bits are those of the payload without the padding (R83). -/
theorem length_bits (c : List Byte) : (Container.bits c).length = 8 * (c.length - 1025) - Container.pad c := by
  rw [Container.bits, unpackBits, List.length_take, length_flatMap_byteBits, List.length_drop]
  exact Nat.min_eq_left (Nat.sub_le _ _)

theorem State.length_bits_input_lt (s : State) : (Container.bits s.input).length < 2 ^ 40 := by
  have := s.length_input_lt
  rw [length_bits]
  omega

/-! ### The last stage of a DECOMPRESS -/

/-- After a fault nothing follows, and the report is the fault's. -/
theorem State.report_afterStage_raise (s : State) (k : ErrorKind) (i : Instr) (c : BitVec 4)
    (stage : s.status.stage = c) : ((s.raise k).afterStage i).report = (Status.failure k c, []) := by
  rw [State.afterStage_ended _ _ rfl, s.report_raise k c stage]

/-- After a DECODE that ended at ROOT the bytes emitted are the result (R184, R201). -/
theorem State.report_afterStage_decode (s : State) (cur : Nat) (out : List Byte) (busy : s.status.busy = true)
    (noError : s.status.err = 0) (fits : out.length < 2 ^ 40) :
    ((State.finishDecode { s with obuf := Memory.write s.obuf 0 out } cur out).afterStage .decode).report =
      (Status.success, out) := by
  rw [State.afterStage_running _ _ (by exact busy)]
  exact State.report_endCommand _ out.length out noError (s.output_endCommand _ out fits)

theorem State.report_of_parse {s s' : State} (busy : s.status.busy = true) (stage : s.status.stage = 7)
    (hx : execParse s = .next s') (ended : (s'.afterStage .parse).status.busy = false) :
    decompressReport s.input = some (s'.afterStage .parse).report := by
  have raised (malformed : ¬ Container.Parseable s.input) :
      decompressReport s.input = some ((s.raise .malformedContainer).afterStage .parse).report := by
    rw [s.report_afterStage_raise _ _ 7 stage, decompressReport_of_not_parseable malformed]
  rcases (execParse_next s s').1 hx with ⟨short, rfl⟩ | ⟨long, -, large, rfl⟩ | ⟨-, -, -, rfl⟩
  · exact raised fun parseable => Nat.not_lt.2 parseable.1 (by rwa [s.length_input])
  · exact raised fun parseable => Nat.not_lt.2 parseable.2 (by rwa [← s.toNat_ibufByte_padOffset long])
  · rw [State.afterStage_running _ _ (by exact busy)] at ended
    exact nomatch busy.symm.trans ended

namespace State.Inv

variable {s s' : State} (h : s.Inv) (busy : s.status.busy = true) (op : s.priv.op = .decompress)
include h busy op

theorem report_of_build (stage : s.status.stage = 2) (hx : execBuild s = .next s')
    (ended : (s'.afterStage .build).status.busy = false) :
    decompressReport s.input = some (s'.afterStage .build).report := by
  obtain ⟨-, noError, -⟩ := h.regs.busy_status busy
  have parsed := (decompressData_two s).1 (h.decompressData busy op _ stage)
  obtain ⟨parseable, freq, -⟩ := parsed.fields
  obtain rfl := (execBuild_next s s').1 hx
  rw [State.afterStage_running _ _ (by exact busy)] at ended ⊢
  by_cases noTree : (buildTree s.priv.freq).root = none
  · rw [State.advance_build_of_no_tree _ (by exact op) (by exact noTree)]
    rw [freq] at noTree
    rw [decompressReport_of_no_tree parseable noTree]
    exact congrArg some (State.report_endCommand _ 0 [] noError rfl).symm
  · rw [State.advance_build_of_tree _ (by exact op) (by exact noTree)] at ended
    exact nomatch busy.symm.trans ended

theorem report_of_unpack (stage : s.status.stage = 8) (hx : execUnpack s = .next s')
    (ended : (s'.afterStage .unpack).status.busy = false) :
    decompressReport s.input = some (s'.afterStage .unpack).report := by
  obtain ⟨parsed, built, tree⟩ := (decompressData_eight s).1 (h.decompressData busy op _ stage)
  obtain ⟨parseable, freq, pad, plen, -⟩ := parsed.fields
  rw [built, freq] at tree
  rcases (execUnpack_next s s').1 hx with ⟨short, rfl⟩ | ⟨-, rfl⟩
  · rw [s.report_afterStage_raise _ _ 8 stage]
    exact decompressReport_of_truncated parseable tree (by rwa [pad, plen] at short)
  · rw [State.afterStage_running _ _ (by exact busy)] at ended
    exact nomatch busy.symm.trans ended

theorem report_of_decode (stage : s.status.stage = 9) (hx : execDecode s = .next s') :
    decompressReport s.input = some (s'.afterStage .decode).report := by
  obtain ⟨-, noError, -⟩ := h.regs.busy_status busy
  obtain ⟨parsed, ⟨built, tree⟩, unpacked⟩ := (decompressData_nine s).1 (h.decompressData busy op _ stage)
  obtain ⟨parseable, freq, pad, plen, -⟩ := parsed.fields
  have long : Container.pad s.input ≤ 8 * (s.input.length - 1025) := by
    rw [← pad, ← plen]
    exact unpacked.1
  rcases (execDecode_next s s').1 hx with ⟨noTree, -⟩ | ⟨root, hr, walk⟩
  · exact absurd noTree tree
  · rw [unpacked.take_bitseq parsed, built, freq] at walk
    rw [built, freq] at hr
    rw [decompressReport_of_walk parseable root hr long]
    rcases walk with ⟨out, hw, -, rfl⟩ | ⟨cur, out, hw, fits, ⟨rfl, rfl⟩ | ⟨inside, rfl⟩⟩ <;>
      rw [hw, WalkEnd.report]
    · exact congrArg some (State.report_afterStage_raise _ _ _ 9 stage).symm
    · have emitted := walkBits_emitsAtMost _ cur (Container.bits s.input) (buildTree_ok _) hr
      rw [hw] at emitted
      have small : out.length < 2 ^ 40 := Nat.lt_of_le_of_lt emitted s.length_bits_input_lt
      rw [if_pos rfl, s.report_afterStage_decode cur out busy noError small]
    · rw [if_neg inside]
      exact congrArg some (State.report_afterStage_raise _ _ _ 9 stage).symm

end State.Inv

/-- The report of a DECOMPRESS is a function of its operand. -/
theorem State.EndsBy.report_of_decompress {s u t : State} (h : s.EndsBy u t) (op : s.priv.op = .decompress) :
    decompressReport s.input = some t.report := by
  obtain ⟨i, u', hd, hx, rfl⟩ := (engineStep_busy u t h.busy).1 h.step
  have stirred : u.stirHidden.Inv := h.inv.withUnseen _ _ _ _
  have op' : u.priv.op = .decompress := h.op.trans op
  have input : u.stirHidden.input = s.input := h.same.input
  obtain ⟨-, -, mem⟩ := h.inv.regs.busy_status h.busy
  rw [← input]
  rw [op', Command.stages] at mem
  simp only [List.mem_cons, List.not_mem_nil, or_false] at mem
  rcases mem with stage | stage | stage | stage <;> rw [stage] at hd <;> obtain rfl := Except.ok.inj hd
  · exact State.report_of_parse h.busy stage hx h.ended
  · exact stirred.report_of_build h.busy op' stage hx h.ended
  · exact stirred.report_of_unpack h.busy op' stage hx h.ended
  · exact stirred.report_of_decode h.busy op' stage hx

end Sys2Proof.Machine
end

section
/-! PROOFS. The outcomes of DECOMPRESS (R202), the round trip (R210), and that a command's report is a function of its
operand (R209). -/

namespace Sys2Proof.Machine

/-! ### The report by the number of leaves -/

section

variable {c : List Byte} (h : Container.Parseable c) (long : Container.pad c ≤ 8 * (c.length - 1025))
include h long

/-- Rows 5 and 6 of R202: under a single leaf each bit 0 is a byte, and no bit may be 1. -/
theorem decompressReport_of_single_leaf (one : leafCount (Container.freq c) = 1) :
    (true ∈ Container.bits c → decompressReport c = some (Status.failure .malformedContainer 9, [])) ∧
    (true ∉ Container.bits c → ∃ b, (Container.freq c).at b ≠ 0 ∧
      decompressReport c = some (Status.success, List.replicate (Container.bits c).length b)) := by
  obtain ⟨b, counted, node⟩ := buildTree_node_of_leafCount_eq_one _ one
  have hr := buildTree_root _ one.ge
  rw [one] at hr
  have walk : walkBits (buildTree (Container.freq c)) 0 (Container.bits c) = walkLeaf 0 b (Container.bits c) [] := by
    rw [walkBits, node]
    rfl
  rw [decompressReport_of_walk h 0 hr long, walk]
  refine ⟨fun bit => ?_, fun zeros => ⟨b, counted, ?_⟩⟩
  · obtain ⟨out, ends, -⟩ := exists_walkLeaf_eq_oneBit 0 b _ [] bit
    rw [ends]
    rfl
  · have run : Container.bits c = List.replicate (Container.bits c).length false :=
      List.eq_replicate_of_mem fun v hv => Bool.eq_false_iff.2 fun hv' => zeros (hv' ▸ hv)
    conv_lhs => rw [run, walkLeaf_replicate]
    rfl

/-- Rows 7 and 8 of R202: under two or more leaves the bits spell the result or end inside a code word. -/
theorem decompressReport_of_two_leaves (two : 2 ≤ leafCount (Container.freq c)) :
    (∀ out, (buildTree (Container.freq c)).Spells (Container.bits c) out →
      decompressReport c = some (Status.success, out)) ∧
    ((∀ out, ¬ (buildTree (Container.freq c)).Spells (Container.bits c) out) →
      decompressReport c = some (Status.failure .truncatedStream 9, [])) := by
  obtain ⟨root, w, x, y, hr, hn⟩ := buildTree_root_int _ two
  have spells := walkBits_eq_ended_root_iff _ (buildTree_ok _) root w x y hr hn (Container.bits c)
  rw [decompressReport_of_walk h root hr long]
  refine ⟨fun out spelled => ?_, fun unspelled => ?_⟩
  · rw [(spells out).2 spelled, WalkEnd.report, if_pos rfl]
  · obtain ⟨cur, out, ends, -⟩ := exists_walkBits_eq_ended _ (buildTree_ok _) root w x y hr hn (Container.bits c)
    have inside : cur ≠ root := by
      rintro rfl
      exact unspelled out ((spells out).1 ends)
    rw [ends, WalkEnd.report, if_neg inside]

end

/-- Settles O57: each row is the report of the first stage that ends the command. -/
theorem decompressOutcomesAreTheEightRows : Obligations.DecompressOutcomesAreTheEightRows := by
  intro s regs idle
  obtain ⟨u, t, ends, run⟩ := runScript_command_end 6 s regs idle 2#40 .decompress rfl (by decide)
  have report : decompressReport s.input = some t.report := ends.report_of_decompress rfl
  have reported {st : Status} {out : List Byte} (h : decompressReport s.input = some (st, out)) :
      t.status = st ∧ t.output = out := Prod.mk.inj (Option.some.inj (report.symm.trans h))
  have noResult {st : Status} (h : decompressReport s.input = some (st, [])) : t.status = st ∧ t.outLen = 0 :=
    (reported h).imp_right t.outLen_eq_zero
  have size := s.length_input
  refine ⟨_, run, rfl, ends.same_end.inLen, ends.same_end.input, ?_⟩
  split
  case isTrue short =>
    exact noResult (decompressReport_of_not_parseable fun h => absurd (size ▸ h.1) (Nat.not_le.2 short))
  next enough =>
  split
  case isTrue large => exact noResult (decompressReport_of_not_parseable fun h => absurd h.2 (Nat.not_le.2 large))
  next small =>
  have parseable : Container.Parseable s.input := ⟨size.symm ▸ Nat.not_lt.1 enough, Nat.not_lt.1 small⟩
  split
  case isTrue zero => exact noResult (decompressReport_of_no_tree parseable ((buildTree_root_eq_none_iff _).2 zero))
  next pos =>
  split
  case isTrue short =>
    refine noResult (decompressReport_of_truncated parseable (mt (buildTree_root_eq_none_iff _).1 pos) ?_)
    rw [size, short.1]
    exact short.2
  next =>
  have long : Container.pad s.input ≤ 8 * (s.input.length - 1025) := by omega
  split
  case isTrue one =>
    obtain ⟨malformed, decoded⟩ := decompressReport_of_single_leaf parseable long one
    split
    case isTrue bit => exact noResult (malformed bit)
    case isFalse zeros =>
      obtain ⟨b, counted, h⟩ := decoded zeros
      obtain ⟨success, output⟩ := reported h
      have length : t.outLen.toNat = (Container.bits s.input).length := by
        rw [← t.length_output, output, List.length_replicate]
      exact ⟨success, by rw [← size, ← length_bits, ← length], b, counted, length ▸ output⟩
  case isFalse many =>
    obtain ⟨decoded, truncated⟩ := decompressReport_of_two_leaves parseable long ((Nat.two_le_iff _).2 ⟨pos, many⟩)
    refine ⟨fun out spelled => ?_, fun unspelled => noResult (truncated unspelled)⟩
    obtain ⟨success, output⟩ := reported (decoded out spelled)
    exact ⟨success, t.length_output.symm.trans (congrArg List.length output), output⟩

/-! ### The round trip -/

/-- DECOMPRESS reports the input of which the container was made (R210). -/
theorem EncodesInput.decompressReport_eq {bs : List Byte} {q : Bits} (h : EncodesInput bs q)
    (small : bs.length < 2 ^ 32) (ne : bs ≠ []) :
    decompressReport (compressedContainer bs q) = some (Status.success, bs) := by
  have parseable := (h.faithful small ne).1
  obtain ⟨cs, code, hcs, holds, rfl⟩ := h
  obtain ⟨root, hr, walk⟩ := walkBits_of_recordsCodes _ (one_le_leafCount_countBytes bs small ne) cs hcs code holds bs
    fun b => (countBytes_at_ne_zero_iff bs b small).2
  rw [decompressReport_of_walk parseable root (by rwa [freq_compressedContainer])
    (pad_compressedContainer_le_payload _ _), freq_compressedContainer, bits_compressedContainer, walk, WalkEnd.report,
    if_pos rfl]

/-- MOVE of a result that fits IBUF makes it the operand, and the other moves follow (R92). -/
theorem runScript_move (n : Nat) (s : State) (idle : s.status.busy = false) (fits : s.outLen.toNat ≤ s.inCap)
    (rest : List HostMove) : runScript (n + 1) (.move :: rest) s = runScript n rest (s.loadInput s.output) :=
  runScript_cons n _ rest s _ (moveResult_of_idle { s with host := rest } idle fits)

/-- Settles O58: MOVE makes the container the operand of the DECOMPRESS, which reports the input. -/
theorem roundTripReturnsTheInput : Obligations.RoundTripReturnsTheInput := by
  intro s t regs idle nonempty ht fits
  have small := s.length_input_lt
  have ne := s.input_ne_nil nonempty
  obtain ⟨_, v, ends, run⟩ := runScript_command_end 8 s regs idle 1#40 .compress rfl (by decide)
  obtain rfl := Host.Outcome.next.inj (run.symm.trans ht)
  obtain ⟨q, encodes, report⟩ := ends.report_of_nonempty rfl nonempty
  obtain ⟨success, container⟩ := Prod.mk.inj report
  refine ⟨success, ?_⟩
  obtain ⟨_, w, ends₁, m, hm, run₁⟩ :=
    runScript_command s regs idle 1#40 .compress rfl [.move, scriptDecompress, .wait]
  have container₁ : w.output = v.output := by
    obtain ⟨q₁, encodes₁, report₁⟩ := ends₁.report_of_nonempty rfl nonempty
    rw [container, (Prod.mk.inj report₁).2]
    exact congrArg _ (encodes₁.unique encodes small)
  have fits₁ : w.output.length ≤ w.inCap := by
    rw [container₁, v.length_output, State.inCap, ends₁.same_end.caps]
    exact fits
  have operand : (w.loadInput w.output).input = w.output :=
    w.input_loadInput _ (Nat.lt_of_le_of_lt fits₁ w.caps.inCap.isLt)
  obtain ⟨k, hk, enough⟩ : ∃ k, 15 = m + (k + 1) + 2 ∧ 6 ≤ k := by
    change m ≤ 6 at hm
    exact ⟨12 - m, by omega, by omega⟩
  obtain ⟨_, u, ends₂, run₂⟩ := runScript_command_end k (w.loadInput w.output)
    (ends₁.inv_end.regs.loadInput _ fits₁) ends₁.ended 2#40 .decompress rfl enough
  have report₂ : decompressReport (w.loadInput w.output).input = some u.report := ends₂.report_of_decompress rfl
  rw [operand, container₁, container, encodes.decompressReport_eq small ne] at report₂
  obtain ⟨success₂, result⟩ := Prod.mk.inj (Option.some.inj report₂)
  refine ⟨{ u with host := [] }, ?runs, rfl, success₂.symm, ?length, result.symm, ?faithful⟩
  case runs =>
    rw [hk]
    refine (run₁ (k + 1)).trans ((runScript_move k w ends₁.ended ?_ _).trans run₂)
    rwa [← w.length_output]
  case length => exact (u.length_output.symm.trans (congrArg List.length result.symm)).trans s.length_input
  case faithful =>
    change Container.Faithful v.output
    rw [container]
    exact encodes.faithful small ne

/-! ### The operand alone -/

/-- Two runs of a command on the same operand report the same, whatever else the states hold (R209). -/
theorem State.EndsBy.report_unique {s u t s' u' t' : State} (h : s.EndsBy u t) (h' : s'.EndsBy u' t')
    (op : s.priv.op = s'.priv.op) (inLen : s.inLen = s'.inLen) (input : s.input = s'.input) :
    t.report = t'.report := by
  cases command : s.priv.op with
  | compress =>
    have command' := op.symm.trans command
    by_cases empty : s.inLen = 0
    · rw [h.report_of_empty command empty, h'.report_of_empty command' (inLen ▸ empty)]
    · obtain ⟨q, encodes, report⟩ := h.report_of_nonempty command empty
      obtain ⟨q', encodes', report'⟩ := h'.report_of_nonempty command' (inLen ▸ empty)
      rw [← input] at encodes' report'
      rw [report, report', encodes.unique encodes' s.length_input_lt]
  | decompress =>
    have report := h.report_of_decompress command
    rw [input, h'.report_of_decompress (op.symm.trans command)] at report
    exact (Option.some.inj report).symm

/-- WAIT after the end of a command takes one step and changes nothing. -/
theorem runScript_waited (n : Nat) (rest : List HostMove) (s : State) (ended : s.status.done = true) :
    runScript (n + 1) (.wait :: rest) s = runScript n rest s :=
  runScript_cons n .wait rest s s (if_pos ended)

/-- A reserved OP on an idle block is reported at once, and WAIT finds it (R205). -/
theorem runScript_reserved (n : Nat) (s : State) (idle : s.status.busy = false) (v : Len)
    (hd : ∃ e, decodeCmd (v.setWidth 32) = .error e) :
    ∃ t, runScript (n + 2) [.wrReg 0 v, .wait] s = .next t ∧ t.status.done = true ∧
      t.report = (Status.failure .illegalCommand 0, []) := by
  have reported := runScript_cons (n + 1) (.wrReg 0 v) [.wait] s
    (State.raise { s with status := { s.status with stage := 0 } } .illegalCommand)
    (hostMove_of_reserved { s with host := [.wait] } v hd idle)
  exact ⟨_, (reported.trans (runScript_waited n [] _ rfl)).trans (run_of_idle n _ rfl rfl), rfl, rfl⟩

/-- Settles O60: both runs end, and their reports are the same. -/
theorem outcomeDependsOnTheOperandAlone : Obligations.OutcomeDependsOnTheOperandAlone := by
  intro s u v regs regs' idle idle' inLen input
  obtain ⟨t, w, run, run', done, report⟩ : ∃ t w, runScript 8 [.wrReg 0 v, .wait] s = .next t ∧
      runScript 8 [.wrReg 0 v, .wait] u = .next w ∧ t.status.done = true ∧ t.report = w.report := by
    rcases decodeCmd_command_or_reserved (v.setWidth 32) with ⟨op, hd⟩ | hd
    · have enough : op.stages.length + 2 ≤ 8 := Nat.add_le_add_right op.length_stages_le 2
      obtain ⟨_, t, ends, run⟩ := runScript_command_end 8 s regs idle v op hd enough
      obtain ⟨_, w, ends', run'⟩ := runScript_command_end 8 u regs' idle' v op hd enough
      have report : t.report = w.report := ends.report_unique ends' rfl inLen input
      exact ⟨_, _, run, run', ends.done, report⟩
    · obtain ⟨t, run, done, report⟩ := runScript_reserved 6 s idle v hd
      obtain ⟨w, run', -, report'⟩ := runScript_reserved 6 u idle' v hd
      exact ⟨t, w, run, run', done, report.trans report'.symm⟩
  obtain ⟨status, output⟩ := Prod.mk.inj report
  exact ⟨t, w, run, run', status, done, by rw [t.outLen_eq, w.outLen_eq, output], output⟩

end Sys2Proof.Machine
end

section
/-! PROOFS. What a fault and a reset leave: the report, and free values in the place of what they release (R222, R240,
R241). -/

namespace Sys2Proof.Machine

/-! ### Buffers nothing has written -/

/-- A byte of a buffer that lists nothing is the free value of its offset (R28, U5). -/
theorem State.ibufByte_of_unwritten (s : State) (a : Nat) (unwritten : s.ibuf = []) :
    s.ibufByte a = Config.freeIbuf s.ibufSeed a := by
  rw [State.ibufByte, unwritten]
  rfl

/-- The same for OBUF (R29, U3). -/
theorem State.obufByte_of_unwritten (s : State) (a : Nat) (unwritten : s.obuf = []) :
    s.obufByte a = Config.freeObuf s.obufSeed a := by
  rw [State.obufByte, unwritten]
  rfl

theorem State.output_of_outLen_eq_zero (s : State) (h : s.outLen = 0) : s.output = [] :=
  List.eq_nil_of_length_eq_zero (s.length_output.trans (congrArg BitVec.toNat h))

/-! ### Faults -/

@[simp] theorem State.ibufByte_raise (s : State) (k : ErrorKind) (a : Nat) :
    (s.raise k).ibufByte a = s.ibufByte a := rfl

theorem State.obufByte_raise (s : State) (k : ErrorKind) (a : Nat) :
    (s.raise k).obufByte a = Config.freeObuf s.draws a :=
  (s.raise k).obufByte_of_unwritten a (s.raise_obuf k)

theorem State.output_raise (s : State) (k : ErrorKind) : (s.raise k).output = [] :=
  (s.raise k).output_of_outLen_eq_zero (s.raise_outLen k)

/-- Settles O47: a fault replaces STATUS and OUT_LEN, releases OBUF and the private state, and touches nothing else;
the codes are those of R89. -/
theorem raiseLeavesOnlyTheReport : Obligations.RaiseLeavesOnlyTheReport := by
  intro s k _
  exact ⟨s.raise_status k, s.raise_outLen k, s.raise_inLen k, s.ibufByte_raise k, s.obufByte_raise k, s.raise_priv k,
    s.output_raise k, congrArg ErrorKind.code, congrArg ErrorKind.code, congrArg ErrorKind.code,
    congrArg ErrorKind.code⟩

/-! ### Reset -/

/-- A reset is the host's move whether or not a command runs (R240). -/
theorem step_of_reset (s : State) (rest : List HostMove) (h : s.host = .reset :: rest) :
    step s = .next (State.assertReset { s with host := rest }) :=
  step_of_host_cons s .reset rest h

theorem State.ibufByte_assertReset (s : State) (a : Nat) : s.assertReset.ibufByte a = Config.freeIbuf s.draws a :=
  s.assertReset.ibufByte_of_unwritten a s.assertReset_ibuf

theorem State.obufByte_assertReset (s : State) (a : Nat) : s.assertReset.obufByte a = Config.freeObuf s.draws a :=
  s.assertReset.obufByte_of_unwritten a s.assertReset_obuf

/-- Settles O1: the registers are 0 and both buffers unwritten; the draws number the free values in the order OBUF,
private state, hidden registers. -/
theorem resetEventLeavesTheResetState : Obligations.ResetEventLeavesTheResetState := by
  intro s rest h
  exact ⟨_, step_of_reset s rest h, State.assertReset_status _, rfl, State.assertReset_inLen _,
    State.assertReset_outLen _, State.ibufByte_assertReset _, State.obufByte_assertReset _, State.assertReset_priv _,
    State.assertReset_hidden _, State.assertReset_host _, State.assertReset_caps _⟩

end Sys2Proof.Machine
end
